-- ==== Sys2Proof/Word.lean ====
section
/-! DEFINITION. The word and byte types of the block (00_scope.md R7, R9). -/

namespace Sys2Proof

/-- A register, a host port datum, a command word: 32 bits (00_scope.md R7 HDATA_BITS). -/
abbrev Word := BitVec 32

/-- A symbol or one byte of a byte array: 8 bits (00_scope.md R7 SYM_BITS). -/
abbrev Byte := BitVec 8

/-- A byte offset on the host port: 17 bits, 0x00000..0x1FFFF (00_scope.md R7 HADDR_BITS, 20_memory.md R60). -/
abbrev Offset := BitVec 17

end Sys2Proof
end

