-- ==== Sys2Proof/Syntax.lean ====
section
/-! DEFINITION. The commands of the block, one constructor per row of spec/opcode_table.json. No command
has an operand field (30_encoding.md R90 to R92). -/

namespace Sys2Proof

/-- The six commands (30_encoding.md R93). -/
inductive Instr where
  /-- NOP (45_control.md R195). -/
  | nop
  /-- BUILD, huffman_tree_builder (40_tree_builder.md R111). -/
  | build
  /-- GEN, huffman_code_gen (41_code_gen.md R131). -/
  | gen
  /-- PACK, bit_packer (42_bit_packer.md R146). -/
  | pack
  /-- UNPACK, bit_unpacker (43_bit_unpacker.md R161). -/
  | unpack
  /-- DECODE, huffman_tree_decoder (44_tree_decoder.md R176). -/
  | decode
deriving DecidableEq, Repr

end Sys2Proof
end

