-- ==== Sys2Proof/Machine/Port.lean ====
section
/-! DEFINITION. What the outside world does to the block, as data: accesses on the host port
(20_memory.md R62 to R64), the script form POLL (30_encoding.md R97), the reset input
(70_reset_and_hazards.md R240) and the places where the engine takes its turn (45_control.md R192). -/

namespace Sys2Proof.Machine

/-- The width of a host access: the port carries 32-bit accesses only, the others are refused by a bus
error (20_memory.md R62). -/
inductive Width where
  | bits8
  | bits16
  | bits32
deriving DecidableEq, Repr

/-- One host access at a byte offset of the window (20_memory.md R60, R62). -/
inductive PortOp where
  /-- A host read. -/
  | read (width : Width) (off : Offset)
  /-- A host write of `v` (a narrower access carries its data in the low bits; it is refused anyway). -/
  | write (width : Width) (off : Offset) (v : Word)
deriving DecidableEq, Repr

/-- One event of the schedule State.inputs (log 1). -/
inductive Input where
  /-- The host makes one access. -/
  | access (op : PortOp)
  /-- The host polls STATUS until BUSY reads 0 (30_encoding.md R97, log 8). -/
  | poll
  /-- The engine has its turn here (45_control.md R192). -/
  | engine
  /-- The reset input is asserted (70_reset_and_hazards.md R240). -/
  | reset
deriving DecidableEq, Repr

/-- What the port answers to one access: the read data (0 for a write and for a refused access) and
whether it is the bus error response (20_memory.md R62, R63). Log 15. -/
structure Response where
  busError : Bool
  data : Word
deriving DecidableEq, Repr

end Sys2Proof.Machine
end

