-- ==== Sys2Proof/WellFormed.lean ====
section
/-! DEFINITION. Which instructions and which host accesses are well formed. -/

namespace Sys2Proof

/-- A command has no operand, so each of the six is well formed (30_encoding.md R91). -/
def Instr.wellFormed : Instr → Bool
  | .nop => true
  | .build => true
  | .gen => true
  | .pack => true
  | .unpack => true
  | .decode => true

namespace Machine

/-- The port carries 32-bit accesses only (20_memory.md R62). -/
def Width.wellFormed : Width → Bool
  | .bits32 => true
  | .bits16 => false
  | .bits8 => false

/-- An access is well formed when it is 32 bits wide at an offset that is a multiple of 4
(20_memory.md R62). -/
def PortOp.wellFormed : PortOp → Bool
  | .read w off => w.wellFormed && off.toNat % 4 == 0
  | .write w off _ => w.wellFormed && off.toNat % 4 == 0

end Machine

end Sys2Proof
end

