-- ==== Sys2Proof/Decode.lean ====
section
/-! DEFINITION. Decoding and encoding of command words (30_encoding.md R90 to R96). -/

namespace Sys2Proof

/-- Why a command word is ILLEGAL (30_encoding.md R94, R95). -/
inductive DecodeReject where
  /-- RSV, bits 31:4, is not 0. -/
  | reservedBits
  /-- OP is one of the unassigned values 0x6..0xF. -/
  | unassignedOp
deriving DecidableEq, Repr

/-- The field OP, bits 3:0 (30_encoding.md R90). -/
def opField (w : Word) : Nat := w.toNat % 16

/-- The field RSV, bits 31:4 (30_encoding.md R90). -/
def rsvField (w : Word) : Nat := w.toNat / 16

/-- The opcode map of 30_encoding.md R93. -/
def decodeOp : Nat → Except DecodeReject Instr
  | 0x0 => .ok .nop
  | 0x1 => .ok .build
  | 0x2 => .ok .gen
  | 0x3 => .ok .pack
  | 0x4 => .ok .unpack
  | 0x5 => .ok .decode
  | _ => .error .unassignedOp

/-- Decoding, total over all words (30_encoding.md R94): RSV is checked first. -/
def decode (w : Word) : Except DecodeReject Instr :=
  if rsvField w ≠ 0 then .error .reservedBits else decodeOp (opField w)

/-- The OP value of a command (30_encoding.md R93). -/
def opOf : Instr → Nat
  | .nop => 0x0
  | .build => 0x1
  | .gen => 0x2
  | .pack => 0x3
  | .unpack => 0x4
  | .decode => 0x5

/-- The command word: RSV = 0 and OP (30_encoding.md R90, R93). -/
def encode (i : Instr) : Word := BitVec.ofNat 32 (opOf i)

/-- The instruction the decoder reads from the table's numbering of the bits: a command is one 32-bit
word, the data of the CMD write (30_encoding.md R96), so bits above 31 must be 0. -/
def decodeTableWord (nbits w : Nat) : Option Instr :=
  let v := w % 2 ^ nbits
  if v < 2 ^ 32 then
    match decode (BitVec.ofNat 32 v) with
    | .ok i => some i
    | .error _ => none
  else none

end Sys2Proof
end

