-- ==== Sys2Proof/Config.lean ====
section
/-! DEFINITION. What this implementation fixes (00_scope.md R7), the platform's open parameters
(92_eei_decisions.md, OPEN parameters) and the free values (93_implementation_defined.md U2 to U4, U6). -/

namespace Sys2Proof.Config

/-- NSYM = 2^SYM_BITS: the alphabet size (00_scope.md R7). -/
abbrev nsym : Nat := 256

/-- MAX_NODES = 2·NSYM − 1: the entries of NODE and NODE_FREQ (00_scope.md R7). -/
abbrev maxNodes : Nat := 511

/-- The greatest frequency FREQ_BITS bits hold, 2^32 − 1 (00_scope.md R7, R12). -/
abbrev freqMax : Nat := 0xFFFFFFFF

/-- Bytes of one CODE image (10_state.md R38). -/
abbrev imageBytes : Nat := 32

/-- TEXT_CAP: bytes of TEXT_IN (00_scope.md R7). -/
abbrev textCap : Nat := 16384

/-- PAYLOAD_CAP: bytes of PAYLOAD, the header included (00_scope.md R7). -/
abbrev payloadCap : Nat := 16384

/-- BIT_CAP: bits of BITBUF (00_scope.md R7). -/
abbrev bitCap : Nat := 131072

/-- The bytes BB that store BITBUF (10_state.md R41). -/
abbrev bitBytes : Nat := 16384

/-- OUT_CAP: bytes of TEXT_OUT (00_scope.md R7). -/
abbrev outCap : Nat := 16384

/-- ID_VALUE (00_scope.md R7, 10_state.md R23). -/
abbrev idValue : Word := 0x48554631#32

/-- OPEN parameter BASE, the bus address of the host window (92_eei_decisions.md D20, 93 P1). No rule's
result depends on it. Log 13. -/
opaque base : Nat

/-- OPEN parameter IRQ_LINE, the platform input that `irq` drives (92_eei_decisions.md D25, 93 P2). No
rule's result depends on it. Log 13. -/
opaque irqLine : Nat

/-- FREE VALUE (93 U3, U4, U6). The byte that an UNSPECIFIED element shows to the host at a window offset;
the first argument names the draw, so the value stays the same until the storage is lost again. Log 4. -/
opaque unspecByte : Nat → Nat → Byte

/-- FREE VALUE (93 U2). What a host read during BUSY returns, one draw per read (20_memory.md R72). Log 5. -/
opaque busyRead : Nat → Word

end Sys2Proof.Config
end

