-- ==== Sys2Proof/Machine/State.lean ====
section
/-! DEFINITION. The state of the block as plain data, its value right after reset, and the reasons a
step can stop (10_state.md R20 to R46). -/

namespace Sys2Proof.Machine

/-- A storage array: (index, element) pairs with indices strictly rising. An element that is not listed
has not been written since reset and is UNSPECIFIED (10_state.md R46, log 3). -/
abbrev Cells (α : Type) := List (Nat × α)

/-- A byte array of the host window, keyed by its byte index (20_memory.md R65, R66). -/
abbrev Memory := List Host.Cell

/-- CODE_VALID[s] and CODE_LEN[s] (10_state.md R37). -/
structure CodeEntry where
  valid : Bool
  len : BitVec 8
deriving DecidableEq, Repr

/-- The block's state, and the model's own fields `inputs`, `responses`, `draws`, `ramDraw`, `outDraw`. -/
structure State where
  /-- CMD: the last accepted command word (10_state.md R24). -/
  cmd : Word
  /-- STATUS.BUSY (10_state.md R25): a command is running. -/
  busy : Bool
  /-- STATUS.DONE (10_state.md R25). -/
  done : Bool
  /-- STATUS.ERR (10_state.md R25). -/
  err : Bool
  /-- STATUS.CMD_OVR (10_state.md R25). -/
  cmdOvr : Bool
  /-- STATUS.WR_IGN (10_state.md R25). -/
  wrIgn : Bool
  /-- STATUS.ERRCODE (10_state.md R25). -/
  errCode : BitVec 4
  /-- ERR_INFO (10_state.md R26). -/
  errInfo : Word
  /-- IRQ_EN.IE (10_state.md R27). -/
  ie : Bool
  /-- TEXT_LEN (10_state.md R28). -/
  textLen : Word
  /-- PAYLOAD_LEN (10_state.md R29). -/
  payloadLen : Word
  /-- BIT_LEN (10_state.md R31). -/
  bitLen : Word
  /-- OUT_LEN (10_state.md R32). -/
  outLen : Word
  /-- TREE_COUNT (10_state.md R33). -/
  treeCount : Word
  /-- ROOT (10_state.md R34). -/
  root : Word
  /-- FREQ[0..255] (10_state.md R30). -/
  freq : Cells Word
  /-- NODE[0..510] (10_state.md R35). -/
  node : Cells Word
  /-- NODE_FREQ[0..510] (10_state.md R36). -/
  nodeFreq : Cells Word
  /-- CODE_VALID and CODE_LEN (10_state.md R37): a symbol that is not listed has both 0 (log 18). -/
  codeTab : Cells CodeEntry
  /-- The CODE images (10_state.md R38): UNSPECIFIED until the first GEN since reset (`none`), then byte k
  of CB_s at index 32·s + k, a byte that is not listed being 0 (log 9). -/
  codeImg : Option Memory
  /-- TEXT_IN[0..16383] (10_state.md R39). -/
  textIn : Memory
  /-- PAYLOAD[0..16383] (10_state.md R40). -/
  payload : Memory
  /-- BB[0..16383], the bytes that store BITBUF (10_state.md R41). -/
  bitbuf : Memory
  /-- TEXT_OUT[0..16383] (10_state.md R42). -/
  textOut : Memory
  /-- MODEL'S OWN: what happens next, in order (20_memory.md R73, 93 U7, log 1). -/
  inputs : List Input
  /-- MODEL'S OWN: what the port has answered, newest first (log 15). -/
  responses : List Response
  /-- MODEL'S OWN: how many free values have been drawn (log 10). -/
  draws : Nat
  /-- MODEL'S OWN: the draw that UNSPECIFIED elements show since the last reset (93 U4, log 10). -/
  ramDraw : Nat
  /-- MODEL'S OWN: the draw that UNSPECIFIED bytes of TEXT_OUT show (93 U3, U4, log 10). -/
  outDraw : Nat
deriving DecidableEq, Repr

/-- The storage arrays a command reads (93_implementation_defined.md U1). -/
inductive ArrayName where
  | freq
  | node
  | nodeFreq
  | code
  | textIn
  | payload
  | bitbuf
deriving DecidableEq, Repr

/-- Why the machine stops. -/
inductive Fault where
  /-- Raised by BUILD, GEN, PACK, UNPACK and DECODE when they read element `i` of an array that nothing has
  written since reset: "The model stops rather than guess" (93 U1, 10_state.md R46). SAFE. Log 3. -/
  | unwritten (a : ArrayName) (i : Nat)
deriving DecidableEq, Repr

/-- Why the model gives no meaning. -/
inductive Refusal where
  /-- Raised by Machine/Dispatch.lean for a command that has no meaning yet; no arm raises it. SAFE. -/
  | notModelled (mnemonic : String)
deriving DecidableEq, Repr

/-- The block right after reset (70_reset_and_hazards.md R240; 10_state.md R22 to R42 and its section 5).
Every array is UNSPECIFIED; the model's own fields start as log 10 says. -/
def State.reset : State where
  cmd := 0
  busy := false
  done := false
  err := false
  cmdOvr := false
  wrIgn := false
  errCode := 0
  errInfo := 0
  ie := false
  textLen := 0
  payloadLen := 0
  bitLen := 0
  outLen := 0
  treeCount := 0
  root := 0
  freq := []
  node := []
  nodeFreq := []
  codeTab := []
  codeImg := none
  textIn := []
  payload := []
  bitbuf := []
  textOut := []
  inputs := []
  responses := []
  draws := 1
  ramDraw := 0
  outDraw := 0

end Sys2Proof.Machine
end

