-- ==== Sys2Proof/Machine/Ops.lean ====
section
/-! DEFINITION. The operations every command and every host access shares: storage cells, byte and bit
order, reading a run of elements, accepting a command, ending it, taking an error and acknowledging it. -/

namespace Sys2Proof.Machine

/-! ### Storage cells (10_state.md R46, 20_memory.md R65) -/

/-- The element at index `i`; `none` when it is UNSPECIFIED (10_state.md R46). -/
def Cells.peek {α : Type} : Cells α → Nat → Option α
  | [], _ => none
  | (k, v) :: rest, i => if k = i then some v else Cells.peek rest i

/-- The cells of a run of consecutive elements from index `base`. -/
def Cells.run {α : Type} : Nat → List α → Cells α
  | _, [] => []
  | base, v :: vs => (base, v) :: Cells.run (base + 1) vs

/-- Writes the run `vs` at indices `base`, `base + 1`, …; every other element keeps its value. -/
def Cells.poke {α : Type} (m : Cells α) (base : Nat) (vs : List α) : Cells α :=
  m.filter (fun c => decide (c.1 < base)) ++ Cells.run base vs ++
    m.filter (fun c => decide (base + vs.length ≤ c.1))

/-- The canonical form: indices strictly rising, from `lo` on and below `n`. -/
def Cells.within {α : Type} (n : Nat) : Nat → Cells α → Bool
  | _, [] => true
  | lo, (k, _) :: rest => decide (lo ≤ k) && decide (k < n) && Cells.within n (k + 1) rest

/-- The canonical form of an array of `n` elements; an element that is not listed has no value, so no
listed element can equal it. -/
def Cells.wf {α : Type} (n : Nat) (m : Cells α) : Bool := Cells.within n 0 m

/-- The canonical form of a byte array of `n` bytes. -/
def Memory.wf (n : Nat) (m : Memory) : Bool := Cells.wf n m

/-! ### Byte order and bit order -/

/-- Byte `k` of a word, byte 0 in bits 7:0 (20_memory.md R66). -/
def byteOf (v : Word) (k : Nat) : Byte := v.extractLsb' (8 * k) 8

/-- The four bytes of a word in index order: little-endian (20_memory.md R66). -/
def bytesOf (v : Word) : List Byte := [byteOf v 0, byteOf v 1, byteOf v 2, byteOf v 3]

/-- The word {b3, b2, b1, b0} (20_memory.md R66). -/
def wordOf (b0 b1 b2 b3 : Byte) : Word := b3 ++ b2 ++ b1 ++ b0

/-- Stored bit `i` of a byte: position 7 − i, MSB-first (20_memory.md R67). -/
def bitOf (b : Byte) (i : Nat) : Bool := b.getLsbD (7 - i)

/-- The byte that holds the first 8 bits of a bit string MSB-first, right-padded with zero bits
(20_memory.md R67, 42_bit_packer.md R151). -/
def byteOfBits (bs : List Bool) : Byte :=
  (List.range 8).foldl (fun acc t => acc ||| ((BitVec.ofBool (bs.getD t false)).setWidth 8 <<< (7 - t))) 0

/-- `d` bytes of a bit string, 8 bits a byte in order (20_memory.md R67). -/
def packBytes : Nat → List Bool → List Byte
  | 0, _ => []
  | d + 1, bs => byteOfBits bs :: packBytes d (bs.drop 8)

/-- ceil8(n) = (n + 7) div 8 (00_scope.md R9). -/
def ceil8 (n : Nat) : Nat := (n + 7) / 8

/-! ### NODE words (10_state.md R35) -/

/-- A leaf word: `0x80000000 | s`. -/
def leafWord (s : Byte) : Word := 0x80000000#32 ||| s.setWidth 32

/-- An internal word: `(right << 16) | left`. -/
def innerWord (left right : Nat) : Word := BitVec.ofNat 32 right <<< 16 ||| BitVec.ofNat 32 left

/-- Bit 31, LEAF. -/
def isLeafWord (w : Word) : Bool := w.getLsbD 31

/-- Bits 7:0 of a leaf, SYM. -/
def symField (w : Word) : Byte := w.extractLsb' 0 8

/-- Bits 8:0 of an internal node, LEFT. -/
def leftField (w : Word) : Nat := (w.extractLsb' 0 9).toNat

/-- Bits 24:16 of an internal node, RIGHT. -/
def rightField (w : Word) : Nat := (w.extractLsb' 16 9).toNat

/-- Bits 30:8 of a leaf must be 0. -/
def leafReservedClear (w : Word) : Bool := w.extractLsb' 8 23 == 0#23

/-- Bits 30:25 and 15:9 of an internal node must be 0. -/
def innerReservedClear (w : Word) : Bool := w.extractLsb' 25 6 == 0#6 && w.extractLsb' 9 7 == 0#7

/-! ### Errors (60_exceptions.md R205) -/

/-- The error kinds a command can end with (60_exceptions.md R205). -/
inductive ErrorKind where
  | illegalCmd
  | emptyInput
  | freqOverflow
  | badTree
  | missingCode
  | payloadOverflow
  | badPayload
  | badLength
  | corruptPayload
  | outOverflow
deriving DecidableEq, Repr

/-- STATUS.ERRCODE of an error (60_exceptions.md R205). -/
def errorCode : ErrorKind → BitVec 4
  | .illegalCmd => 1
  | .emptyInput => 2
  | .freqOverflow => 3
  | .badTree => 4
  | .missingCode => 5
  | .payloadOverflow => 6
  | .badPayload => 7
  | .badLength => 8
  | .corruptPayload => 9
  | .outOverflow => 10

/-- What ends a command before its `done` (00_scope.md R11, 44_tree_decoder.md R181). -/
inductive Stop where
  /-- `raise E(info)` before the command's first write. -/
  | raise (e : ErrorKind) (info : Word)
  /-- `raise E(info)` marked "walk error" in 44_tree_decoder.md R176. -/
  | raiseWalk (e : ErrorKind) (info : Word)
  /-- The model's fault (93 U1). -/
  | fault (f : Fault)
deriving DecidableEq, Repr

/-- Applies a reading or checking step to each item in order and stops at the first that stops. -/
def gather {α β : Type} (f : β → Except Stop α) : List β → Except Stop (List α)
  | [] => .ok []
  | x :: xs =>
    match f x with
    | .error e => .error e
    | .ok y =>
      match gather f xs with
      | .error e => .error e
      | .ok ys => .ok (y :: ys)

/-! ### The life of a command (45_control.md R191, R193; 60_exceptions.md R210, R212) -/

/-- Acceptance of the command word `v` (45_control.md R191). -/
def State.accept (v : Word) (s : State) : State :=
  { s with cmd := v, busy := true, done := false, err := false, errCode := 0, errInfo := 0 }

/-- Successful end, `done` (45_control.md R193). -/
def State.succeed (s : State) : State :=
  { s with busy := false, done := true }

/-- TAKING AN ERROR, the error end of a command (60_exceptions.md R210). -/
def State.raise (e : ErrorKind) (info : Word) (s : State) : State :=
  { s with busy := false, done := false, err := true, errCode := errorCode e, errInfo := info }

/-- What a DECODE walk error does besides: OUT_LEN is 0 and every byte of TEXT_OUT is UNSPECIFIED, a new
draw (44_tree_decoder.md R181, 93 U3, log 6). -/
def State.loseTextOut (s : State) : State :=
  { s with outLen := 0, textOut := [], outDraw := s.draws, draws := s.draws + 1 }

/-- RETURNING FROM AN ERROR, the host's acknowledgement: a write of `v` to STATUS clears each W1C bit that
`v` has at 1, and ERRCODE together with ERR (10_state.md R25, 60_exceptions.md R212). -/
def State.ackStatus (v : Word) (s : State) : State :=
  { s with
    done := s.done && !v.getLsbD 1
    err := s.err && !v.getLsbD 2
    errCode := if v.getLsbD 2 then 0 else s.errCode
    cmdOvr := s.cmdOvr && !v.getLsbD 3
    wrIgn := s.wrIgn && !v.getLsbD 4 }

/-- The end of a command: its writes and DONE, its error, or the model's fault (45_control.md R192, R193;
60_exceptions.md R210). -/
def endCommand (s : State) : Except Stop State → Host.Outcome State Fault Refusal
  | .ok s' => .next s'.succeed
  | .error (.raise e info) => .next (s.raise e info)
  | .error (.raiseWalk e info) => .next (s.loseTextOut.raise e info)
  | .error (.fault f) => .fault f

/-! ### The reset input and the host's side -/

/-- Asserting the reset input (70_reset_and_hazards.md R240): every piece of the block's state takes its
reset value and the UNSPECIFIED elements become a new draw; the outside (what is still to come and what
was answered) is not the block's. Log 16. -/
def State.resetInput (s : State) : State :=
  { State.reset with
    inputs := s.inputs
    responses := s.responses
    draws := s.draws + 1
    ramDraw := s.draws
    outDraw := s.draws }

/-- The schedule goes on with `rest`. -/
def State.withInputs (rest : List Input) (s : State) : State := { s with inputs := rest }

/-- The port answers the host (20_memory.md R62, R63). -/
def State.respond (r : Response) (s : State) : State := { s with responses := r :: s.responses }

/-- One free value has been drawn. -/
def State.drawn (s : State) : State := { s with draws := s.draws + 1 }

end Sys2Proof.Machine
end

