-- ==== Sys2Proof/Machine/Operands.lean ====
section
/-! DEFINITION. The operands of the commands. Every operand is implicit: a register, or an element of a
storage array read by its index with no address (20_memory.md R65, 30_encoding.md R91, R92). A read of an
element that nothing has written since reset is the model's fault (93 U1, log 3). -/

namespace Sys2Proof.Machine

/-- An element as a command reads it (10_state.md R46, 93 U1). -/
def element {α : Type} (a : ArrayName) (m : Cells α) (i : Nat) : Except Stop α :=
  match m.peek i with
  | some v => .ok v
  | none => .error (.fault (.unwritten a i))

/-- FREQ[i] as a 32-bit value (20_memory.md R65). -/
def readFreq (s : State) (i : Nat) : Except Stop Word := element .freq s.freq i

/-- NODE[i] as a 32-bit value (20_memory.md R65). -/
def readNode (s : State) (i : Nat) : Except Stop Word := element .node s.node i

/-- NODE_FREQ[i] as a 32-bit value (20_memory.md R65). -/
def readNodeFreq (s : State) (i : Nat) : Except Stop Word := element .nodeFreq s.nodeFreq i

/-- TEXT_IN[k] as a byte (20_memory.md R65). -/
def readTextIn (s : State) (k : Nat) : Except Stop Byte := element .textIn s.textIn k

/-- PAYLOAD[k] as a byte (20_memory.md R65). -/
def readPayload (s : State) (k : Nat) : Except Stop Byte := element .payload s.payload k

/-- BITBUF[i] as one bit: BB[i div 8] bit 7 − i mod 8 (10_state.md R41). -/
def readBit (s : State) (i : Nat) : Except Stop Bool :=
  match element .bitbuf s.bitbuf (i / 8) with
  | .ok b => .ok (bitOf b (i % 8))
  | .error e => .error e

/-- CODE_VALID and CODE_LEN of a symbol that has no listed entry (10_state.md R37). -/
def noCode : CodeEntry := { valid := false, len := 0 }

/-- CODE_VALID[s] and CODE_LEN[s] (10_state.md R37). -/
def codeEntry (s : State) (sym : Byte) : CodeEntry := (s.codeTab.peek sym.toNat).getD noCode

/-- Bit j of the image CB_s: CB_s[j div 8] bit 7 − j mod 8 (10_state.md R38). -/
def imageBit (img : Memory) (sym : Byte) (j : Nat) : Bool :=
  bitOf ((Cells.peek img (Config.imageBytes * sym.toNat + j / 8)).getD 0) (j % 8)

/-- One bit of CODE[s]; before the first GEN since reset the image is UNSPECIFIED (10_state.md R38). -/
def readCodeBit (s : State) (sym : Byte) (j : Nat) : Except Stop Bool :=
  match s.codeImg with
  | none => .error (.fault (.unwritten .code (Config.imageBytes * sym.toNat + j / 8)))
  | some img => .ok (imageBit img sym j)

/-- CODE[s]: the bit string of length CODE_LEN[s] (10_state.md R38). -/
def readCode (s : State) (sym : Byte) : Except Stop (List Bool) :=
  gather (readCodeBit s sym) (List.range (codeEntry s sym).len.toNat)

end Sys2Proof.Machine
end

