-- ==== Sys2Proof/Machine/BitPacker.lean ====
section
/-! DEFINITION. PACK, bit_packer (42_bit_packer.md R146 to R153). -/

namespace Sys2Proof.Machine

/-- The check pass at text index k: the symbol, or MISSING_CODE(k) (42_bit_packer.md R146, R149). -/
def packSymbol (s : State) (k : Nat) : Except Stop Byte :=
  match readTextIn s k with
  | .error e => .error e
  | .ok sym =>
    if (codeEntry s sym).valid then .ok sym else .error (.raise .missingCode (BitVec.ofNat 32 k))

/-- L: the total bit length of a text (42_bit_packer.md R146). -/
def bitTotal (s : State) (text : List Byte) : Nat := (text.map (fun sym => (codeEntry s sym).len.toNat)).sum

/-- The payload of a bit string of length L: the header L mod 8 and the data bytes (42_bit_packer.md R147,
R151). -/
def payloadOf (bits : List Bool) (len : Nat) : List Byte :=
  BitVec.ofNat 8 (len % 8) :: packBytes (ceil8 len) bits

/-- PACK's writes on success (42_bit_packer.md R150). -/
def State.writePayload (bytes : List Byte) (s : State) : State :=
  { s with payload := Cells.poke s.payload 0 bytes, payloadLen := BitVec.ofNat 32 bytes.length }

/-- PACK up to its end (42_bit_packer.md R146). -/
def packRun (s : State) : Except Stop State :=
  if Config.textCap < s.textLen.toNat then .error (.raise .badLength s.textLen)
  else
    match gather (packSymbol s) (List.range s.textLen.toNat) with
    | .error e => .error e
    | .ok text =>
      let len := bitTotal s text
      if Config.payloadCap < 1 + ceil8 len then .error (.raise .payloadOverflow (BitVec.ofNat 32 len))
      else
        match gather (readCode s) text with
        | .error e => .error e
        | .ok codes => .ok (s.writePayload (payloadOf codes.flatten len))

/-- PACK (42_bit_packer.md R146). -/
def execPack (s : State) : Host.Outcome State Fault Refusal := endCommand s (packRun s)

end Sys2Proof.Machine
end

