-- ==== Sys2Proof/Machine/BitUnpacker.lean ====
section
/-! DEFINITION. UNPACK, bit_unpacker (43_bit_unpacker.md R161 to R166). -/

namespace Sys2Proof.Machine

/-- The valid bits of the last data byte: 8 when the header is 0 (43_bit_unpacker.md R163). -/
def validBits (header : Byte) : Nat := if header = 0 then 8 else header.toNat

/-- The valid-bit prefix of the last data byte, the padding cleared (43_bit_unpacker.md R161). -/
def keepPrefix (v : Nat) (b : Byte) : Byte := b &&& (0xFF#8 <<< (8 - v))

/-- UNPACK's writes on success (43_bit_unpacker.md R165). -/
def State.writeBits (bytes : List Byte) (len : Nat) (s : State) : State :=
  { s with bitbuf := Cells.poke s.bitbuf 0 bytes, bitLen := BitVec.ofNat 32 len }

/-- UNPACK when there are d + 1 data bytes, PAYLOAD[1 .. d + 1] (43_bit_unpacker.md R161). -/
def unpackData (s : State) (header : Byte) (d : Nat) : Except Stop State :=
  match gather (readPayload s) (List.range' 1 d) with
  | .error e => .error e
  | .ok full =>
    match readPayload s (d + 1) with
    | .error e => .error e
    | .ok last =>
      .ok (s.writeBits (full ++ [keepPrefix (validBits header) last]) (8 * d + validBits header))

/-- UNPACK up to its end (43_bit_unpacker.md R161). -/
def unpackRun (s : State) : Except Stop State :=
  if s.payloadLen = 0 then .error (.raise .badPayload 0xFFFFFFFF)
  else if Config.payloadCap < s.payloadLen.toNat then .error (.raise .badLength s.payloadLen)
  else
    match readPayload s 0 with
    | .error e => .error e
    | .ok header =>
      if 7 < header.toNat then .error (.raise .badPayload (header.setWidth 32))
      else
        match s.payloadLen.toNat - 1 with
        | 0 =>
          if header = 0 then .ok (s.writeBits [] 0) else .error (.raise .badPayload (header.setWidth 32))
        | d + 1 => unpackData s header d

/-- UNPACK (43_bit_unpacker.md R161). -/
def execUnpack (s : State) : Host.Outcome State Fault Refusal := endCommand s (unpackRun s)

end Sys2Proof.Machine
end

