-- ==== Sys2Proof/Machine/Tree.lean ====
section
/-! DEFINITION. The stored tree (40_tree_builder.md R110) and TreeWF, the check GEN and DECODE make before
they use it (40_tree_builder.md R118). -/

namespace Sys2Proof.Machine

/-- The tree reachable from a node: the source's "tagged variant" with exclusive ownership of the two
subtrees, each vertex with the index of its NODE entry (40_tree_builder.md R110). -/
inductive CodeTree where
  | leaf (index : Nat) (sym : Byte)
  | inner (index : Nat) (left right : CodeTree)
deriving DecidableEq, Repr

/-- The NODE index of the tree's root. -/
def CodeTree.index : CodeTree → Nat
  | .leaf i _ => i
  | .inner i _ _ => i

/-- The NODE indices of the tree, in the pre-order of TreeWF's walk. -/
def CodeTree.indices : CodeTree → List Nat
  | .leaf i _ => [i]
  | .inner i l r => i :: (l.indices ++ r.indices)

/-- The symbols of the tree's leaves, from left to right. -/
def CodeTree.symbols : CodeTree → List Byte
  | .leaf _ s => [s]
  | .inner _ l r => l.symbols ++ r.symbols

/-- What the walk has seen: seenN and seenS of 40_tree_builder.md R118. -/
structure Seen where
  nodes : List Nat
  syms : List Byte
deriving DecidableEq, Repr

/-- BAD(info): the caller raises BAD_TREE with this info (40_tree_builder.md R118). -/
def badTree {α : Type} (info : Nat) : Except Stop α := .error (.raise .badTree (BitVec.ofNat 32 info))

/-- `visit(i)` of 40_tree_builder.md R118, which also returns the subtree it has walked. The first argument
bounds the depth: a path of more than TREE_COUNT nodes would meet an index twice first (R119, log 12). -/
def visit (s : State) : Nat → Nat → Seen → Except Stop (CodeTree × Seen)
  | 0, i, _ => badTree i
  | depth + 1, i, seen =>
    if s.treeCount.toNat ≤ i then badTree i
    else if i ∈ seen.nodes then badTree i
    else
      match readNode s i with
      | .error e => .error e
      | .ok w =>
        if isLeafWord w then
          if !leafReservedClear w then badTree i
          else if symField w ∈ seen.syms then badTree i
          else .ok (.leaf i (symField w), { nodes := i :: seen.nodes, syms := symField w :: seen.syms })
        else if !innerReservedClear w then badTree i
        else
          match visit s depth (leftField w) { seen with nodes := i :: seen.nodes } with
          | .error e => .error e
          | .ok (l, seen₁) =>
            match visit s depth (rightField w) seen₁ with
            | .error e => .error e
            | .ok (r, seen₂) => .ok (.inner i l r, seen₂)

/-- TreeWF (40_tree_builder.md R118), for TREE_COUNT ≠ 0: the walked tree, or BAD_TREE. -/
def treeWF (s : State) : Except Stop CodeTree :=
  if Config.maxNodes < s.treeCount.toNat then badTree s.treeCount.toNat
  else
    match visit s (s.treeCount.toNat + 1) s.root.toNat { nodes := [], syms := [] } with
    | .error e => .error e
    | .ok (t, _) => .ok t

end Sys2Proof.Machine
end

