-- ==== Sys2Proof/Machine/CodeGen.lean ====
section
/-! DEFINITION. GEN, huffman_code_gen (41_code_gen.md R131 to R137). -/

namespace Sys2Proof.Machine

/-- `walk(i, p)` of 41_code_gen.md R131: the codes it writes, in its order; 0 on a left descent and 1 on a
right descent. -/
def CodeTree.codes : CodeTree → List Bool → List (Byte × List Bool)
  | .leaf _ s, path => [(s, path)]
  | .inner _ l r, path => l.codes (path ++ [false]) ++ r.codes (path ++ [true])

/-- The code written for a symbol, if any. -/
def codeFor (codes : List (Byte × List Bool)) (sym : Byte) : Option (List Bool) :=
  (codes.find? (fun c => c.1 == sym)).map (fun c => c.2)

/-- CODE_VALID and CODE_LEN of every symbol that has a code, in symbol order (41_code_gen.md R131). -/
def codeTable (codes : List (Byte × List Bool)) : Cells CodeEntry :=
  (List.range Config.nsym).filterMap (fun s =>
    (codeFor codes (BitVec.ofNat 8 s)).map (fun p => (s, { valid := true, len := BitVec.ofNat 8 p.length })))

/-- Byte k of the image of a code: its bits 8k .. 8k + 7 MSB-first, the rest 0 (41_code_gen.md R132). -/
def imageByte (path : List Bool) (k : Nat) : Byte := byteOfBits (path.drop (8 * k))

/-- The CODE images of all symbols: the bytes that are not 0 (41_code_gen.md R132, log 9). -/
def codeImages (codes : List (Byte × List Bool)) : Memory :=
  (List.range Config.nsym).flatMap (fun s =>
    match codeFor codes (BitVec.ofNat 8 s) with
    | none => []
    | some p =>
      (List.range Config.imageBytes).filterMap (fun k =>
        if imageByte p k = 0 then none else some (Config.imageBytes * s + k, imageByte p k)))

/-- GEN's writes on success: the code table is cleared and then holds these codes (41_code_gen.md R131). -/
def State.writeCodes (codes : List (Byte × List Bool)) (s : State) : State :=
  { s with codeTab := codeTable codes, codeImg := some (codeImages codes) }

/-- GEN up to its end (41_code_gen.md R131): no tree, no codes (R137). -/
def genRun (s : State) : Except Stop State :=
  if s.treeCount = 0 then .ok (s.writeCodes [])
  else
    match treeWF s with
    | .error e => .error e
    | .ok t => .ok (s.writeCodes (t.codes []))

/-- GEN (41_code_gen.md R131). -/
def execGen (s : State) : Host.Outcome State Fault Refusal := endCommand s (genRun s)

end Sys2Proof.Machine
end

