-- ==== Sys2Proof/Machine/Control.lean ====
section
/-! DEFINITION. NOP and the illegal command (45_control.md R194, R195). -/

namespace Sys2Proof.Machine

/-- NOP: do nothing, then DONE (45_control.md R195). -/
def execNop (s : State) : Host.Outcome State Fault Refusal := endCommand s (.ok s)

/-- An ILLEGAL word ends at once with ILLEGAL_CMD(CMD) (45_control.md R194, 30_encoding.md R95). -/
def execIllegal (s : State) : Host.Outcome State Fault Refusal :=
  endCommand s (.error (.raise .illegalCmd s.cmd))

end Sys2Proof.Machine
end

