-- ==== Sys2Proof/Machine/TreeBuilder.lean ====
section
/-! DEFINITION. BUILD, huffman_tree_builder (40_tree_builder.md R111 to R117). -/

namespace Sys2Proof.Machine

/-- P: the symbols with FREQ[s] ≠ 0, ascending, each with its frequency (40_tree_builder.md R111). `fs` are
the frequencies of the symbols from `s` on. -/
def presentFrom : Nat → List Word → List (Byte × Word)
  | _, [] => []
  | s, f :: fs =>
    if f = 0 then presentFrom (s + 1) fs else (BitVec.ofNat 8 s, f) :: presentFrom (s + 1) fs

/-- The running total of 40_tree_builder.md R111; FREQ_OVERFLOW names the symbol whose addition first made
it exceed 2^32 − 1 (R113). -/
def checkTotal : Nat → List (Byte × Word) → Except Stop Unit
  | _, [] => .ok ()
  | total, (sym, f) :: rest =>
    if Config.freqMax < total + f.toNat then .error (.raise .freqOverflow (sym.setWidth 32))
    else checkTotal (total + f.toNat) rest

/-- The key of a node in the pool: its frequency, then its index (40_tree_builder.md R114). -/
structure Key where
  freq : Nat
  index : Nat
deriving DecidableEq, Repr

/-- Keys are compared lexicographically, frequency first (40_tree_builder.md R114). -/
def keyLess (a b : Key) : Bool :=
  decide (a.freq < b.freq) || (decide (a.freq = b.freq) && decide (a.index < b.index))

/-- Removes the node with the least key from the pool (40_tree_builder.md R111). -/
def popLeast : List Key → Option (Key × List Key)
  | [] => none
  | k :: rest =>
    match popLeast rest with
    | none => some (k, [])
    | some (m, rest') => if keyLess m k then some (m, k :: rest') else some (k, rest)

/-- The leaves' keys: leaf k has index `base + k` (40_tree_builder.md R111, R112). -/
def leafKeys : Nat → List (Byte × Word) → List Key
  | _, [] => []
  | base, (_, f) :: rest => { freq := f.toNat, index := base } :: leafKeys (base + 1) rest

/-- One created internal node: its NODE word and its frequency. -/
structure Merged where
  word : Word
  freq : Nat
deriving DecidableEq, Repr

/-- The merges, `while |pool| >= 2` (40_tree_builder.md R111): the first removed node is LEFT, the second
RIGHT (R115), the new node has index `next`. Returns the created nodes in order and the final pool. Each
round makes the pool smaller by one, so `rounds = |pool|` rounds suffice (log 12). -/
def mergeLoop : Nat → Nat → List Key → List Merged × List Key
  | 0, _, pool => ([], pool)
  | rounds + 1, next, pool =>
    match popLeast pool with
    | none => ([], pool)
    | some (a, pool₁) =>
      match popLeast pool₁ with
      | none => ([], pool)
      | some (b, pool₂) =>
        let sum := a.freq + b.freq
        let r := mergeLoop rounds (next + 1) ({ freq := sum, index := next } :: pool₂)
        ({ word := innerWord a.index b.index, freq := sum } :: r.1, r.2)

/-- BUILD's result: NODE[0 .. 2N − 2], NODE_FREQ[0 .. 2N − 2], ROOT and TREE_COUNT (40_tree_builder.md R116). -/
structure BuiltTree where
  words : List Word
  freqs : List Word
  root : Word
  count : Word
deriving DecidableEq, Repr

/-- BUILD on the 256 frequencies: a function of FREQ alone (40_tree_builder.md R111, R121). -/
def huffmanTree (fs : List Word) : Except Stop BuiltTree :=
  let present := presentFrom 0 fs
  if present.isEmpty then .error (.raise .emptyInput 0)
  else
    match checkTotal 0 present with
    | .error e => .error e
    | .ok () =>
      let n := present.length
      let r := mergeLoop n n (leafKeys 0 present)
      .ok
        { words := present.map (fun p => leafWord p.1) ++ r.1.map (fun m => m.word)
          freqs := present.map (fun p => p.2) ++ r.1.map (fun m => BitVec.ofNat 32 m.freq)
          root := BitVec.ofNat 32 ((r.2.map (fun k => k.index)).headD 0)
          count := BitVec.ofNat 32 (2 * n - 1) }

/-- BUILD's writes on success (40_tree_builder.md R116). -/
def State.writeTree (t : BuiltTree) (s : State) : State :=
  { s with
    node := s.node.poke 0 t.words
    nodeFreq := s.nodeFreq.poke 0 t.freqs
    root := t.root
    treeCount := t.count }

/-- BUILD up to its end: all 256 frequencies are read first (40_tree_builder.md R111). -/
def buildRun (s : State) : Except Stop State :=
  match gather (readFreq s) (List.range Config.nsym) with
  | .error e => .error e
  | .ok fs =>
    match huffmanTree fs with
    | .error e => .error e
    | .ok t => .ok (s.writeTree t)

/-- BUILD (40_tree_builder.md R111). -/
def execBuild (s : State) : Host.Outcome State Fault Refusal := endCommand s (buildRun s)

end Sys2Proof.Machine
end

