-- ==== Sys2Proof/Machine/TreeDecoder.lean ====
section
/-! DEFINITION. DECODE, huffman_tree_decoder (44_tree_decoder.md R176 to R183). -/

namespace Sys2Proof.Machine

/-- DECODE's writes on success (44_tree_decoder.md R180). -/
def State.writeText (text : List Byte) (s : State) : State :=
  { s with textOut := Cells.poke s.textOut 0 text, outLen := BitVec.ofNat 32 text.length }

/-- The walk of 44_tree_decoder.md R176 with `left` bits still to consume: `i` is the next bit, `cur` the
current node, `k` the symbols emitted so far. Answers the symbols still to come. -/
def decodeWalk (s : State) : Nat → Nat → Nat → Nat → Except Stop (List Byte)
  | 0, _, cur, _ =>
    if cur = s.root.toNat then .ok [] else .error (.raiseWalk .corruptPayload s.bitLen)
  | left + 1, i, cur, k =>
    match readNode s cur with
    | .error e => .error e
    | .ok x =>
      match readBit s i with
      | .error e => .error e
      | .ok b =>
        let child := if b then rightField x else leftField x
        match readNode s child with
        | .error e => .error e
        | .ok y =>
          if isLeafWord y then
            if k = Config.outCap then .error (.raiseWalk .outOverflow (BitVec.ofNat 32 i))
            else
              match decodeWalk s left (i + 1) s.root.toNat (k + 1) with
              | .error e => .error e
              | .ok rest => .ok (symField y :: rest)
          else decodeWalk s left (i + 1) child k

/-- DECODE of a single-leaf tree: the symbol NODE_FREQ[ROOT] times (44_tree_decoder.md R179). -/
def decodeSingle (s : State) (sym : Byte) : Except Stop State :=
  if s.bitLen ≠ 0 then .error (.raise .corruptPayload 0)
  else
    match readNodeFreq s s.root.toNat with
    | .error e => .error e
    | .ok c =>
      if Config.outCap < c.toNat then .error (.raise .outOverflow c)
      else .ok (s.writeText (List.replicate c.toNat sym))

/-- DECODE up to its end (44_tree_decoder.md R176). -/
def decodeRun (s : State) : Except Stop State :=
  if Config.bitCap < s.bitLen.toNat then .error (.raise .badLength s.bitLen)
  else if s.treeCount = 0 then
    if s.bitLen = 0 then .ok (s.writeText []) else .error (.raise .badTree 0)
  else
    match treeWF s with
    | .error e => .error e
    | .ok _ =>
      match readNode s s.root.toNat with
      | .error e => .error e
      | .ok w =>
        if isLeafWord w then decodeSingle s (symField w)
        else
          match decodeWalk s s.bitLen.toNat 0 s.root.toNat 0 with
          | .error e => .error e
          | .ok text => .ok (s.writeText text)

/-- DECODE (44_tree_decoder.md R176). -/
def execDecode (s : State) : Host.Outcome State Fault Refusal := endCommand s (decodeRun s)

end Sys2Proof.Machine
end

