-- ==== Sys2Proof/Machine/Flags.lean ====
section
/-! DEFINITION. The flags: the STATUS and IRQ_EN words as the host reads them (10_state.md R25, R27) and
the interrupt output (60_exceptions.md R220). No other flag exists (10_state.md R43). -/

namespace Sys2Proof.Machine

/-- One flag at its bit position of a register word. -/
def flagBit (b : Bool) (pos : Nat) : Word := (BitVec.ofBool b).setWidth 32 <<< pos

/-- STATUS as the host reads it; bits 7:5 and 31:12 read 0 (10_state.md R25). -/
def State.statusWord (s : State) : Word :=
  flagBit s.busy 0 ||| flagBit s.done 1 ||| flagBit s.err 2 ||| flagBit s.cmdOvr 3 |||
    flagBit s.wrIgn 4 ||| (s.errCode.setWidth 32 <<< 8)

/-- IRQ_EN as the host reads it; bits 31:1 read 0 (10_state.md R27). -/
def State.irqEnWord (s : State) : Word := flagBit s.ie 0

/-- The interrupt output, a level: irq = IE and (DONE or ERR) (60_exceptions.md R220). -/
def State.irq (s : State) : Bool := s.ie && (s.done || s.err)

/-- The platform input that `irq` drives, with its level (60_exceptions.md R221, OPEN IRQ_LINE, log 13). -/
def State.irqOutput (s : State) : Nat × Bool := (Config.irqLine, s.irq)

end Sys2Proof.Machine
end

