-- ==== Sys2Proof/Machine/HostPort.lean ====
section
/-! DEFINITION. The host port: the address map and the host's reads and writes (20_memory.md R60 to R73). -/

namespace Sys2Proof.Machine

/-- A location of the window, by 32-bit slot (20_memory.md R60). Array slots carry their index; a slot of a
byte array carries its word index. -/
inductive Loc where
  | id
  | cmd
  | status
  | errInfo
  | irqEn
  | textLen
  | payloadLen
  | bitLen
  | outLen
  | treeCount
  | root
  | freq (s : Nat)
  | node (i : Nat)
  | nodeFreq (i : Nat)
  | codeWord (s : Nat)
  | codeImg (m : Nat)
  | textIn (m : Nat)
  | payload (m : Nat)
  | bitbuf (m : Nat)
  | textOut (m : Nat)
  | reserved
deriving DecidableEq, Repr

/-- The registers at offsets 0x000 to 0x028, by slot number (10_state.md R22). -/
def registerAt : Nat → Loc
  | 0x0 => .id
  | 0x1 => .cmd
  | 0x2 => .status
  | 0x3 => .errInfo
  | 0x4 => .irqEn
  | 0x5 => .textLen
  | 0x6 => .payloadLen
  | 0x7 => .bitLen
  | 0x8 => .outLen
  | 0x9 => .treeCount
  | 0xA => .root
  | _ => .reserved

/-- The map of 20_memory.md R60 for an aligned offset. -/
def locate (off : Offset) : Loc :=
  let a := off.toNat
  if a < 0x00400 then registerAt (a / 4)
  else if a < 0x00800 then .freq ((a - 0x00400) / 4)
  else if a < 0x00FFC then .node ((a - 0x00800) / 4)
  else if a < 0x01000 then .reserved
  else if a < 0x017FC then .nodeFreq ((a - 0x01000) / 4)
  else if a < 0x01800 then .reserved
  else if a < 0x01C00 then .codeWord ((a - 0x01800) / 4)
  else if a < 0x02000 then .reserved
  else if a < 0x04000 then .codeImg ((a - 0x02000) / 4)
  else if a < 0x10000 then .reserved
  else if a < 0x14000 then .textIn ((a - 0x10000) / 4)
  else if a < 0x18000 then .payload ((a - 0x14000) / 4)
  else if a < 0x1C000 then .bitbuf ((a - 0x18000) / 4)
  else .textOut ((a - 0x1C000) / 4)

/-- The bus address of an offset (20_memory.md R60, OPEN BASE, log 13). -/
def busAddress (off : Offset) : Nat := Config.base + off.toNat

/-- The word of an UNSPECIFIED 32-bit element at window offset `a` (93 U4, log 4). -/
def unspecWord (draw a : Nat) : Word :=
  wordOf (Config.unspecByte draw a) (Config.unspecByte draw (a + 1)) (Config.unspecByte draw (a + 2))
    (Config.unspecByte draw (a + 3))

/-- A 32-bit element as the host reads it (20_memory.md R63, 93 U4). -/
def shownWord (draw a : Nat) (m : Cells Word) (i : Nat) : Word := (m.peek i).getD (unspecWord draw a)

/-- One byte of a byte array as the host reads it (93 U4); `a` is its window offset. -/
def shownByte (draw a : Nat) (m : Memory) (k : Nat) : Byte :=
  (Cells.peek m k).getD (Config.unspecByte draw a)

/-- The word at word index m of a byte array, `a` its window offset (20_memory.md R66). -/
def shownBytes (draw a : Nat) (x : Memory) (m : Nat) : Word :=
  wordOf (shownByte draw a x (4 * m)) (shownByte draw (a + 1) x (4 * m + 1))
    (shownByte draw (a + 2) x (4 * m + 2)) (shownByte draw (a + 3) x (4 * m + 3))

/-- The CODE_VALID/CODE_LEN word of a symbol: bit 31 and bits 7:0 (10_state.md R37). -/
def codeWordOf (e : CodeEntry) : Word := flagBit e.valid 31 ||| e.len.setWidth 32

/-- Image word m of the CODE images, `a` its window offset (10_state.md R38, 93 U6). -/
def shownImage (draw a : Nat) (img : Option Memory) (m : Nat) : Word :=
  match img with
  | none => unspecWord draw a
  | some x =>
    wordOf ((Cells.peek x (4 * m)).getD 0) ((Cells.peek x (4 * m + 1)).getD 0)
      ((Cells.peek x (4 * m + 2)).getD 0) ((Cells.peek x (4 * m + 3)).getD 0)

/-- `MemRead(off, 4)` while BUSY = 0 (20_memory.md R63). -/
def memRead (s : State) (off : Offset) : Word :=
  let a := off.toNat
  match locate off with
  | .id => Config.idValue
  | .cmd => s.cmd
  | .status => s.statusWord
  | .errInfo => s.errInfo
  | .irqEn => s.irqEnWord
  | .textLen => s.textLen
  | .payloadLen => s.payloadLen
  | .bitLen => s.bitLen
  | .outLen => s.outLen
  | .treeCount => s.treeCount
  | .root => s.root
  | .freq i => shownWord s.ramDraw a s.freq i
  | .node i => shownWord s.ramDraw a s.node i
  | .nodeFreq i => shownWord s.ramDraw a s.nodeFreq i
  | .codeWord i => codeWordOf (codeEntry s (BitVec.ofNat 8 i))
  | .codeImg m => shownImage s.ramDraw a s.codeImg m
  | .textIn m => shownBytes s.ramDraw a s.textIn m
  | .payload m => shownBytes s.ramDraw a s.payload m
  | .bitbuf m => shownBytes s.ramDraw a s.bitbuf m
  | .textOut m => shownBytes s.outDraw a s.textOut m
  | .reserved => 0

/-- `MemWrite(off, 4, v)` while BUSY = 0 (20_memory.md R64). -/
def memWrite (s : State) (off : Offset) (v : Word) : State :=
  match locate off with
  | .cmd => s.accept v
  | .status => s.ackStatus v
  | .irqEn => { s with ie := v.getLsbD 0 }
  | .textLen => { s with textLen := v }
  | .payloadLen => { s with payloadLen := v }
  | .bitLen => { s with bitLen := v }
  | .treeCount => { s with treeCount := v }
  | .root => { s with root := v }
  | .freq i => { s with freq := s.freq.poke i [v] }
  | .node i => { s with node := s.node.poke i [v] }
  | .nodeFreq i => { s with nodeFreq := s.nodeFreq.poke i [v] }
  | .textIn m => { s with textIn := Cells.poke s.textIn (4 * m) (bytesOf v) }
  | .payload m => { s with payload := Cells.poke s.payload (4 * m) (bytesOf v) }
  | .bitbuf m => { s with bitbuf := Cells.poke s.bitbuf (4 * m) (bytesOf v) }
  | .id | .errInfo | .outLen | .codeWord _ | .codeImg _ | .textOut _ | .reserved => s

/-- What a host read returns while BUSY = 1 only for ID, CMD, STATUS and IRQ_EN (20_memory.md R72). -/
def readableWhileBusy : Loc → Bool
  | .id | .cmd | .status | .irqEn => true
  | _ => false

/-- A host write while BUSY = 1 (20_memory.md R72). -/
def busyWrite (s : State) (off : Offset) (v : Word) : State :=
  match locate off with
  | .cmd => { s with cmdOvr := true }
  | .status | .irqEn => memWrite s off v
  | _ => { s with wrIgn := true }

/-- A 32-bit aligned host read (20_memory.md R63, R72): while BUSY = 1 a fresh free value but for the four
registers (93 U2, log 5). -/
def hostRead (s : State) (off : Offset) : State :=
  if s.busy && !readableWhileBusy (locate off) then
    (s.respond { busError := false, data := Config.busyRead s.draws }).drawn
  else s.respond { busError := false, data := memRead s off }

/-- A 32-bit aligned host write (20_memory.md R64, R72). -/
def hostWrite (s : State) (off : Offset) (v : Word) : State :=
  (if s.busy then busyWrite s off v else memWrite s off v).respond { busError := false, data := 0 }

/-- One host access: a malformed one gets the bus error response and changes nothing (20_memory.md R62). -/
def portAccess (s : State) (op : PortOp) : State :=
  if op.wellFormed then
    match op with
    | .read _ off => hostRead s off
    | .write _ off v => hostWrite s off v
  else s.respond { busError := true, data := 0 }

end Sys2Proof.Machine
end

