-- ==== Sys2Proof/Machine/Engine.lean ====
section
/-! DEFINITION. The engine's turn and the events from outside (45_control.md R190, R192). -/

namespace Sys2Proof.Machine

/-- The engine executes `decode(CMD)` and ends it, as one atomic step (45_control.md R192, log 7). -/
def runCommand (s : State) : Host.Outcome State Fault Refusal :=
  match decode s.cmd with
  | .ok i => exec i s
  | .error _ => execIllegal s

/-- The engine's turn: idle, it does nothing (45_control.md R190, log 19). -/
def engineTurn (s : State) : Host.Outcome State Fault Refusal :=
  if s.busy then runCommand s else .next s

/-- The offset of STATUS (10_state.md R25). -/
def statusOffset : Offset := 0x008#17

/-- The offset of CMD (10_state.md R24). -/
def cmdOffset : Offset := 0x004#17

/-- One round of the machine: the next event of the schedule, and the engine's turn when none is left
(log 1). A POLL waits for the engine to end its command and then reads STATUS once (30_encoding.md R97,
log 8). -/
def nextEvent (s : State) : Host.Outcome State Fault Refusal :=
  match s.inputs with
  | [] => engineTurn s
  | .engine :: rest => engineTurn (s.withInputs rest)
  | .access op :: rest => .next (portAccess (s.withInputs rest) op)
  | .poll :: rest => if s.busy then runCommand s else .next (hostRead (s.withInputs rest) statusOffset)
  | .reset :: rest => .next (s.withInputs rest).resetInput

/-- The command word `w` is accepted and the engine has the next turn (log 2). -/
def issueCommand (w : Word) (s : State) : State := (s.accept w).withInputs (.engine :: s.inputs)

end Sys2Proof.Machine
end

