-- ==== Sys2Proof/Machine/Step.lean ====
section
/-! DEFINITION. One step of the machine, and where it takes its next command from. -/

namespace Sys2Proof.Machine

/-- One step: the next event of the schedule (45_control.md R192, 20_memory.md R73). -/
def step (s : State) : Host.Outcome State Fault Refusal := nextEvent s

/-- The block fetches no instruction: a command is the data of a host write to CMD (10_state.md R21,
45_control.md R191). This is that write, accepted, with the engine's turn next (log 2). -/
def State.withFetchWord (s : State) (nbits w : Nat) : State := issueCommand (BitVec.ofNat 32 (w % 2 ^ nbits)) s

end Sys2Proof.Machine
end

