-- ==== Sys2Proof/Safety.lean ====
section
/-! DEFINITION. What counts as a safe state and a safe run: the invariant of the block, the stored trees
that TreeWF accepts, and the words the statements use for bit strings, texts and written storage. -/

namespace Sys2Proof.Machine

/-! ### Trees in storage (40_tree_builder.md R110, R118, R119) -/

/-- The tree stands in NODE below TREE_COUNT: each vertex's word is the leaf or internal word of
10_state.md R35, its reserved bits 0. -/
def CodeTree.storedIn (s : State) : CodeTree → Prop
  | .leaf i sym => i < s.treeCount.toNat ∧ s.node.peek i = some (leafWord sym)
  | .inner i l r =>
    i < s.treeCount.toNat ∧ s.node.peek i = some (innerWord l.index r.index) ∧ l.storedIn s ∧ r.storedIn s

/-- The tree of the block is `t`: a strict tree (no index twice) at ROOT whose leaves hold distinct symbols
(40_tree_builder.md R118, R119). -/
structure TreeHeld (s : State) (t : CodeTree) : Prop where
  count_le : s.treeCount.toNat ≤ Config.maxNodes
  root_eq : t.index = s.root.toNat
  stored : t.storedIn s
  indices_nodup : t.indices.Nodup
  symbols_nodup : t.symbols.Nodup

/-- A "must be 0" bit of a NODE word is set: bits 30:8 of a leaf, 30:25 and 15:9 of an internal node
(10_state.md R35). -/
def ReservedBitSet (w : Word) : Prop :=
  w.getLsbD 31 = true ∧ w.extractLsb' 8 23 ≠ 0 ∨
    w.getLsbD 31 = false ∧ (w.extractLsb' 25 6 ≠ 0 ∨ w.extractLsb' 9 7 ≠ 0)

/-- The first offence of TreeWF's pre-order, left-before-right walk (40_tree_builder.md R118): the walk comes to
index `i` having seen the indices `ns` and the symbols `ss`, and BAD names the last argument. A left subtree
that holds no offence is a tree `l` in storage that repeats no index and no symbol, its own included. -/
inductive FirstOffence (s : State) : Nat → List Nat → List Byte → Nat → Prop where
  | outOfRange (i : Nat) (ns : List Nat) (ss : List Byte) : s.treeCount.toNat ≤ i → FirstOffence s i ns ss i
  | reached (i : Nat) (ns : List Nat) (ss : List Byte) : i ∈ ns → FirstOffence s i ns ss i
  | reservedBit (i : Nat) (ns : List Nat) (ss : List Byte) (w : Word) :
    s.node.peek i = some w → ReservedBitSet w → FirstOffence s i ns ss i
  | symbolTwice (i : Nat) (ns : List Nat) (ss : List Byte) (sym : Byte) :
    s.node.peek i = some (leafWord sym) → sym ∈ ss → FirstOffence s i ns ss i
  | inLeft (i : Nat) (ns : List Nat) (ss : List Byte) (l r x : Nat) :
    i < s.treeCount.toNat → i ∉ ns → l < 512 → r < 512 → s.node.peek i = some (innerWord l r) →
      FirstOffence s l (i :: ns) ss x → FirstOffence s i ns ss x
  | inRight (i : Nat) (ns : List Nat) (ss : List Byte) (l : CodeTree) (r x : Nat) :
    i < s.treeCount.toNat → i ∉ ns → l.index < 512 → r < 512 → s.node.peek i = some (innerWord l.index r) →
      l.storedIn s → (l.indices ++ i :: ns).Nodup → (l.symbols ++ ss).Nodup →
      FirstOffence s r (l.indices ++ i :: ns) (l.symbols ++ ss) x → FirstOffence s i ns ss x

/-- Descending from the root: left on 0, right on 1 (41_code_gen.md R131, 44_tree_decoder.md R178). -/
def CodeTree.descend : CodeTree → List Bool → Option CodeTree
  | t, [] => some t
  | .leaf _ _, _ :: _ => none
  | .inner _ l r, b :: bs => if b then r.descend bs else l.descend bs

/-- The path leads from the root to a leaf that holds `sym`. -/
def CodeTree.leadsTo (t : CodeTree) (path : List Bool) (sym : Byte) : Prop :=
  ∃ i, t.descend path = some (.leaf i sym)

/-- Both subtrees exist: the tree has at least two leaves. -/
def CodeTree.isInner : CodeTree → Bool
  | .leaf _ _ => false
  | .inner _ _ _ => true

/-! ### Bit strings and texts in storage -/

/-- Bit `i` of a bit string stored MSB-first (20_memory.md R67); `none` where the byte is not written. -/
def storedBit (m : Memory) (i : Nat) : Option Bool := (Cells.peek m (i / 8)).map (fun b => bitOf b (i % 8))

/-- CODE[sym]: CODE_LEN[sym] bits of the image (10_state.md R38). -/
def codeBits (s : State) (sym : Byte) : List Bool :=
  (List.range (codeEntry s sym).len.toNat).map (fun j => imageBit (s.codeImg.getD []) sym j)

/-- The elements `base`, `base + 1`, … hold the values `vs`. -/
def Cells.holds {α : Type} (m : Cells α) (base : Nat) (vs : List α) : Prop :=
  ∀ k, k < vs.length → m.peek (base + k) = vs[k]?

/-- The text PACK encodes: TEXT_LEN is within TEXT_CAP and TEXT_IN[0 .. TEXT_LEN − 1] is `text`. -/
structure TextGiven (s : State) (text : List Byte) : Prop where
  length_eq : s.textLen.toNat = text.length
  length_le : text.length ≤ Config.textCap
  held : Cells.holds s.textIn 0 text

/-- Every symbol of the text has a code, whose bits have been written (10_state.md R38). -/
structure TextCoded (s : State) (text : List Byte) : Prop where
  valid : ∀ sym ∈ text, (codeEntry s sym).valid = true
  image : s.codeImg = none → ∀ sym ∈ text, (codeEntry s sym).len = 0

/-- B: the concatenation of the codes in text order (42_bit_packer.md R146). -/
def packedBits (s : State) (text : List Byte) : List Bool := text.flatMap (codeBits s)

/-- FREQ[0..255] has been written and FREQ[i] = `f i` (10_state.md R30). -/
def FreqGiven (s : State) (f : Nat → Word) : Prop := ∀ i, i < Config.nsym → s.freq.peek i = some (f i)

/-- Σ FREQ[i] for i < k (40_tree_builder.md R113). -/
def freqSum (f : Nat → Word) (k : Nat) : Nat := ((List.range k).map (fun i => (f i).toNat)).sum

/-- The symbols that occur, ascending (40_tree_builder.md R111, P). -/
def presentSymbols (f : Nat → Word) : List Nat := (List.range Config.nsym).filter (fun i => f i ≠ 0)

/-- The container image of `s` (20_memory.md R78) stands in `u`: the tree and the packed payload. -/
structure SameContainer (s u : State) : Prop where
  treeCount_eq : u.treeCount = s.treeCount
  root_eq : u.root = s.root
  node_eq : ∀ i, i < s.treeCount.toNat → u.node.peek i = s.node.peek i
  nodeFreq_eq : ∀ i, i < s.treeCount.toNat → u.nodeFreq.peek i = s.nodeFreq.peek i
  payloadLen_eq : u.payloadLen = s.payloadLen
  payload_eq : ∀ k, k < s.payloadLen.toNat → Cells.peek u.payload k = Cells.peek s.payload k

/-- The pool before merge m: the nodes below `n + m` that no earlier merge has taken
(40_tree_builder.md R111). `node` is the NODE array BUILD leaves. -/
def inPool (node : Cells Word) (n m c : Nat) : Prop :=
  c < n + m ∧
    ∀ j, j < m → ∀ w, node.peek (n + j) = some w → leftField w ≠ c ∧ rightField w ≠ c

/-! ### Safe states and runs -/

/-- Nothing a command can read is UNSPECIFIED (10_state.md R46). -/
structure AllWritten (s : State) : Prop where
  freq : ∀ i, i < Config.nsym → (s.freq.peek i).isSome
  node : ∀ i, i < Config.maxNodes → (s.node.peek i).isSome
  nodeFreq : ∀ i, i < Config.maxNodes → (s.nodeFreq.peek i).isSome
  code : s.codeImg.isSome
  textIn : ∀ k, k < Config.textCap → (Cells.peek s.textIn k).isSome
  payload : ∀ k, k < Config.payloadCap → (Cells.peek s.payload k).isSome
  bitbuf : ∀ m, m < Config.bitBytes → (Cells.peek s.bitbuf m).isSome

/-- The element a fault names is UNSPECIFIED in the state (93 U1). -/
def Fault.justified (s : State) : Fault → Prop
  | .unwritten .freq i => s.freq.peek i = none
  | .unwritten .node i => s.node.peek i = none
  | .unwritten .nodeFreq i => s.nodeFreq.peek i = none
  | .unwritten .code _ => s.codeImg = none
  | .unwritten .textIn i => Cells.peek s.textIn i = none
  | .unwritten .payload i => Cells.peek s.payload i = none
  | .unwritten .bitbuf i => Cells.peek s.bitbuf i = none

/-- The invariant of the block: storage in canonical form, the code table as GEN leaves it
(41_code_gen.md R132, R134), and the flags as 10_state.md R25 says they can be. -/
structure State.Inv (s : State) : Prop where
  freq_wf : Cells.wf Config.nsym s.freq = true
  node_wf : Cells.wf Config.maxNodes s.node = true
  nodeFreq_wf : Cells.wf Config.maxNodes s.nodeFreq = true
  textIn_wf : Memory.wf Config.textCap s.textIn = true
  payload_wf : Memory.wf Config.payloadCap s.payload = true
  bitbuf_wf : Memory.wf Config.bitBytes s.bitbuf = true
  textOut_wf : Memory.wf Config.outCap s.textOut = true
  codeTab_wf : Cells.wf Config.nsym s.codeTab = true
  codeTab_valid : ∀ c ∈ s.codeTab, c.2.valid = true
  codeTab_empty : s.codeImg = none → s.codeTab = []
  codeImg_wf : ∀ img, s.codeImg = some img →
    Memory.wf (Config.imageBytes * Config.nsym) img = true ∧ ∀ c ∈ img, c.2 ≠ 0
  codeImg_padding : ∀ img (sym : Byte) j, s.codeImg = some img → (codeEntry s sym).len.toNat ≤ j →
    j < 8 * Config.imageBytes → imageBit img sym j = false
  done_err : ¬(s.done = true ∧ s.err = true)
  busy_clear : s.busy = true → s.done = false ∧ s.err = false
  err_code : s.err = true ↔ s.errCode ≠ 0
  errCode_le : s.errCode.toNat ≤ 10
  outLen_le : s.outLen.toNat ≤ Config.outCap

/-- No code of the table is a prefix of another (41_code_gen.md R130, R135). -/
def PrefixFree (s : State) : Prop :=
  ∀ a b : Byte, a ≠ b → (codeEntry s a).valid = true → (codeEntry s b).valid = true →
    ¬(codeBits s a <+: codeBits s b)

end Sys2Proof.Machine
end

