-- ==== Sys2Proof/Certificates/Slice0/Obligations.lean ====
section
/-! DEFINITION. The statements for the provers. Each docstring names the rule of spec/ it formalises.
`inputs`, `responses`, `draws`, `ramDraw` and `outDraw` are the model's own fields (log 1, log 15, log 10):
a statement says what happens to them, and no rule of spec/ does. -/

open Sys2Proof Sys2Proof.Machine

/-! ### Encoding (30_encoding.md) -/

/-- 30_encoding.md R94: a command is selected only by its exact word, and every other word is ILLEGAL. -/
def Obligations.DecodeSelectsExactlyTheOpcodeWords : Prop :=
  (∀ (w : Word) (i : Instr), decode w = .ok i ↔ w = encode i) ∧
    (∀ w : Word, w.toNat / 16 ≠ 0 ∨ 6 ≤ w.toNat % 16 ↔ ∃ r, decode w = .error r) ∧
    ∀ w : Word, decode w = .ok .nop ∧ w = 0x0#32 ∨ decode w = .ok .build ∧ w = 0x1#32 ∨
      decode w = .ok .gen ∧ w = 0x2#32 ∨ decode w = .ok .pack ∧ w = 0x3#32 ∨
      decode w = .ok .unpack ∧ w = 0x4#32 ∨ decode w = .ok .decode ∧ w = 0x5#32 ∨
      ∃ r, decode w = .error r

/-- The words of 30_encoding.md R93, and some words R94 makes ILLEGAL, written out. A sanity statement. -/
def Obligations.OpcodeMapWords : Prop :=
  decode 0b00000000000000000000000000000000#32 = .ok .nop ∧
    decode 0b00000000000000000000000000000001#32 = .ok .build ∧
    decode 0b00000000000000000000000000000010#32 = .ok .gen ∧
    decode 0b00000000000000000000000000000011#32 = .ok .pack ∧
    decode 0b00000000000000000000000000000100#32 = .ok .unpack ∧
    decode 0b00000000000000000000000000000101#32 = .ok .decode ∧
    decode 0x00000006#32 = .error .unassignedOp ∧ decode 0x0000000F#32 = .error .unassignedOp ∧
    decode 0x00000010#32 = .error .reservedBits ∧ decode 0x80000001#32 = .error .reservedBits

/-! ### A step and the life of a command (45_control.md) -/

/-- 45_control.md R192: the engine's turn executes decode(CMD). The turn comes from the schedule, or when
nothing else is left, or while a POLL waits (log 1, log 8). -/
def Obligations.StepRunsTheDecodedCommand : Prop :=
  ∀ (s : State) (i : Instr), s.busy = true → decode s.cmd = .ok i → i.wellFormed = true →
    (∀ rest, s.inputs = .engine :: rest → step s = exec i { s with inputs := rest }) ∧
      (s.inputs = [] → step s = exec i s) ∧ (∀ rest, s.inputs = .poll :: rest → step s = exec i s)

/-- Log 2 (DESIGN CHOICE): a fetched word is an accepted CMD write whose engine turn comes next. -/
def Obligations.FetchedWordRunsAsTheNextCommand : Prop :=
  ∀ (s : State) (i : Instr),
    step (s.withFetchWord 32 (encode i).toNat) =
      exec i { s with cmd := encode i, busy := true, done := false, err := false, errCode := 0, errInfo := 0 }

/-- 45_control.md R194: an illegal word ends with ILLEGAL_CMD(CMD) and nothing else changes. -/
def Obligations.IllegalWordEndsWithIllegalCmd : Prop :=
  ∀ (s : State) (rest : List Input), s.busy = true → s.inputs = .engine :: rest →
    (s.cmd.toNat / 16 ≠ 0 ∨ 6 ≤ s.cmd.toNat % 16) →
    step s = .next { s with inputs := rest, busy := false, done := false, err := true, errCode := 1, errInfo := s.cmd }

/-- 45_control.md R191: acceptance of a CMD write while idle, and none while BUSY. -/
def Obligations.CmdWriteIsAcceptedWhenIdle : Prop :=
  ∀ (s : State) (v : Word) (rest : List Input), s.inputs = .access (.write .bits32 0x004#17 v) :: rest →
    (s.busy = false →
      step s = .next
        { s with
          inputs := rest
          responses := { busError := false, data := 0 } :: s.responses
          cmd := v, busy := true, done := false, err := false, errCode := 0, errInfo := 0 }) ∧
      (s.busy = true →
        step s = .next
          { s with
            inputs := rest
            responses := { busError := false, data := 0 } :: s.responses
            cmdOvr := true })

/-- 45_control.md R195: NOP does nothing but end with DONE; as a full command it sets BUSY, clears DONE, ERR,
ERRCODE and ERR_INFO on acceptance, and raises the interrupt when IE = 1. -/
def Obligations.NopIsAFullCommand : Prop :=
  (∀ s : State, exec .nop s = .next { s with busy := false, done := true }) ∧
    ∀ (s : State) (rest : List Input), s.busy = false →
      s.inputs = .access (.write .bits32 0x004#17 0x00000000#32) :: .engine :: rest →
      ∃ s₁ s₂, step s = .next s₁ ∧ s₁.busy = true ∧ s₁.done = false ∧ s₁.err = false ∧ s₁.errCode = 0 ∧
        s₁.errInfo = 0 ∧ step s₁ = .next s₂ ∧ s₂.irq = s.ie ∧
        s₂ =
          { s with
            inputs := rest
            responses := { busError := false, data := 0 } :: s.responses
            cmd := 0, busy := false, done := true, err := false, errCode := 0, errInfo := 0 }

/-- 45_control.md R190: the engine leaves idle only by accepting a command and leaves running only by ending
the command or by reset. Which events give the engine its turn is the model's schedule (log 1, log 8). -/
def Obligations.EngineLeavesIdleOnlyByAcceptance : Prop :=
  ∀ s t : State, step s = .next t →
    (s.busy = false → t.busy = true →
      ∃ v rest, s.inputs = .access (.write .bits32 0x004#17 v) :: rest ∧ t.cmd = v) ∧
      (s.busy = true → t.busy = false →
        (∃ rest, s.inputs = .reset :: rest) ∨
          ((s.inputs = [] ∨ ∃ rest, s.inputs = .engine :: rest ∨ s.inputs = .poll :: rest) ∧
            (t.done = true ∨ t.err = true)))

/-- 45_control.md R193, 60_exceptions.md R210: a command that was accepted ends idle, with exactly one of
DONE and ERR, and the interrupt output then equals IE (R220). -/
def Obligations.CommandEndsWithDoneOrErr : Prop :=
  ∀ (i : Instr) (s t : State), s.err = false → exec i s = .next t →
    t.busy = false ∧ t.done = !t.err ∧ t.irq = s.ie

/-- 60_exceptions.md R211: an error changes nothing but STATUS and ERR_INFO, except a DECODE walk error, which
also sets OUT_LEN to 0 and makes TEXT_OUT UNSPECIFIED (a new draw of the model, log 6). -/
def Obligations.ErrorsArePrecise : Prop :=
  ∀ (i : Instr) (s t : State), s.err = false → exec i s = .next t → t.err = true →
    t = { s with busy := false, done := false, err := true, errCode := t.errCode, errInfo := t.errInfo } ∨
      (i = .decode ∧ (t.errCode = 9 ∨ t.errCode = 10) ∧
        t =
          { s with
            busy := false, done := false, err := true, errCode := t.errCode, errInfo := t.errInfo
            outLen := 0, textOut := [], outDraw := s.draws, draws := s.draws + 1 })

/-- 60_exceptions.md R205, the columns "raised by", "cause" and "ERR_INFO": which codes each command can end
with, that the cause then holds, and what ERR_INFO records. -/
def Obligations.ErrorCodesOfEachCommand : Prop :=
  ∀ (i : Instr) (s t : State), s.err = false → exec i s = .next t → t.err = true →
    match i with
    | .nop => False
    | .build =>
      t.errCode = 2 ∧ t.errInfo = 0 ∧ (∀ j, j < 256 → s.freq.peek j = some 0) ∨
        t.errCode = 3 ∧ t.errInfo.toNat < 256 ∧ ∃ f, FreqGiven s f ∧
          freqSum f t.errInfo.toNat ≤ 0xFFFFFFFF ∧ 0xFFFFFFFF < freqSum f (t.errInfo.toNat + 1)
    | .gen => t.errCode = 4 ∧ s.treeCount ≠ 0 ∧ treeWF s = .error (.raise .badTree t.errInfo)
    | .pack =>
      (t.errCode = 5 ∧ t.errInfo.toNat < s.textLen.toNat ∧
          (∃ sym, Cells.peek s.textIn t.errInfo.toNat = some sym ∧ (codeEntry s sym).valid = false) ∧
          ∀ k, k < t.errInfo.toNat →
            ∃ sym, Cells.peek s.textIn k = some sym ∧ (codeEntry s sym).valid = true) ∨
        (t.errCode = 6 ∧ 16384 < 1 + (t.errInfo.toNat + 7) / 8 ∧ ∃ text, TextGiven s text ∧
          (∀ sym ∈ text, (codeEntry s sym).valid = true) ∧
          t.errInfo.toNat = (text.map (fun sym => (codeEntry s sym).len.toNat)).sum) ∨
        t.errCode = 8 ∧ t.errInfo = s.textLen ∧ 16384 < s.textLen.toNat
    | .unpack =>
      t.errCode = 7 ∧
          (s.payloadLen = 0 ∧ t.errInfo = 0xFFFFFFFF#32 ∨
            s.payloadLen ≠ 0 ∧ ∃ header : Byte, Cells.peek s.payload 0 = some header ∧
              t.errInfo = header.setWidth 32 ∧ (7 < header.toNat ∨ s.payloadLen = 1 ∧ header ≠ 0)) ∨
        t.errCode = 8 ∧ t.errInfo = s.payloadLen ∧ 16384 < s.payloadLen.toNat
    | .decode =>
      t.errCode = 4 ∧
          (s.treeCount = 0 ∧ s.bitLen ≠ 0 ∧ t.errInfo = 0 ∨
            s.treeCount ≠ 0 ∧ treeWF s = .error (.raise .badTree t.errInfo)) ∨
        t.errCode = 8 ∧ t.errInfo = s.bitLen ∧ 131072 < s.bitLen.toNat ∨
        (t.errCode = 9 ∨ t.errCode = 10) ∧ ∃ T, TreeHeld s T ∧
          (T.isInner = false → s.bitLen ≠ 0 → t.errCode = 9 ∧ t.errInfo = 0) ∧
          (T.isInner = false → s.bitLen = 0 →
            t.errCode = 10 ∧ s.nodeFreq.peek s.root.toNat = some t.errInfo ∧ 16384 < t.errInfo.toNat) ∧
          (T.isInner = true → t.errCode = 9 →
            t.errInfo = s.bitLen ∧
              ∃ (steps : List (Byte × List Bool)) (tail bits : List Bool) (sub : CodeTree),
                steps.length ≤ 16384 ∧ (∀ p ∈ steps, T.leadsTo p.2 p.1) ∧ tail ≠ [] ∧
                T.descend tail = some sub ∧ sub.isInner = true ∧ bits = steps.flatMap (fun p => p.2) ++ tail ∧
                bits.length = s.bitLen.toNat ∧ ∀ k, k < bits.length → storedBit s.bitbuf k = bits[k]?) ∧
          (T.isInner = true → t.errCode = 10 →
            t.errInfo.toNat < s.bitLen.toNat ∧
              ∃ (steps : List (Byte × List Bool)) (bits : List Bool), steps.length = 16385 ∧
                (∀ p ∈ steps, T.leadsTo p.2 p.1) ∧ bits = steps.flatMap (fun p => p.2) ∧
                bits.length = t.errInfo.toNat + 1 ∧ ∀ k, k < bits.length → storedBit s.bitbuf k = bits[k]?)

/-- 10_state.md R45 and 30_encoding.md R92: no command writes CMD, CMD_OVR, WR_IGN, IRQ_EN, TEXT_LEN, FREQ or
TEXT_IN, nor the model's own fields of the outside, and each result register and array is written by its own
command alone. -/
def Obligations.CommandsWriteOnlyTheirOwnResults : Prop :=
  ∀ (i : Instr) (s t : State), exec i s = .next t →
    (t.cmd = s.cmd ∧ t.cmdOvr = s.cmdOvr ∧ t.wrIgn = s.wrIgn ∧ t.ie = s.ie ∧ t.textLen = s.textLen ∧
        t.freq = s.freq ∧ t.textIn = s.textIn ∧ t.inputs = s.inputs ∧ t.responses = s.responses ∧
        t.ramDraw = s.ramDraw) ∧
      (i ≠ .build → t.node = s.node ∧ t.nodeFreq = s.nodeFreq ∧ t.treeCount = s.treeCount ∧ t.root = s.root) ∧
      (i ≠ .gen → t.codeTab = s.codeTab ∧ t.codeImg = s.codeImg) ∧
      (i ≠ .pack → t.payload = s.payload ∧ t.payloadLen = s.payloadLen) ∧
      (i ≠ .unpack → t.bitbuf = s.bitbuf ∧ t.bitLen = s.bitLen) ∧
      (i ≠ .decode → t.textOut = s.textOut ∧ t.outLen = s.outLen ∧ t.outDraw = s.outDraw ∧ t.draws = s.draws)

/-- 10_state.md R37 ("Only GEN writes them") and 70_reset_and_hazards.md R251: over every step of the machine
the code table changes only by reset or by GEN, when the engine has its turn (log 1, log 8): never by a host
access, not even while GEN runs. -/
def Obligations.CodeTableChangesOnlyByGenOrReset : Prop :=
  ∀ s t : State, step s = .next t → t.codeTab ≠ s.codeTab ∨ t.codeImg ≠ s.codeImg →
    (∃ rest, s.inputs = .reset :: rest) ∨
      s.busy = true ∧ decode s.cmd = .ok .gen ∧
        (s.inputs = [] ∨ ∃ rest, s.inputs = .engine :: rest ∨ s.inputs = .poll :: rest)

/-! ### Stops (93_implementation_defined.md U1) -/

/-- The model's only stop: a command faults only at an element that is UNSPECIFIED (93 U1, 92 D33), and no
command is refused. -/
def Obligations.CommandsStopOnlyOnUnwrittenElements : Prop :=
  ∀ (i : Instr) (s : State),
    (∀ f, exec i s = .fault f → f.justified s) ∧ ∀ r, exec i s ≠ .refused r

/-- Where nothing is UNSPECIFIED, every step answers a next state (70_reset_and_hazards.md R261). -/
def Obligations.WrittenStorageNeverStops : Prop :=
  ∀ s : State, AllWritten s → ∃ t, step s = .next t

/-- 95_test_vectors.md V-RESET-6 for every state: BUILD stops at the least frequency that is UNSPECIFIED
(the order of its reads is log 11). -/
def Obligations.BuildStopsAtAnUnwrittenFrequency : Prop :=
  ∀ (s : State) (i : Nat), i < 256 → s.freq.peek i = none → (∀ j, j < i → (s.freq.peek j).isSome) →
    exec .build s = .fault (.unwritten .freq i)

/-! ### Host port (20_memory.md) -/

/-- 20_memory.md R62: a malformed access gets a bus error and data 0 and changes nothing, BUSY or not. -/
def Obligations.MalformedAccessGetsABusError : Prop :=
  ∀ (s : State) (rest : List Input) (w : Width) (off : Offset) (v : Word),
    w ≠ .bits32 ∨ off.toNat % 4 ≠ 0 →
    s.inputs = .access (.read w off) :: rest ∨ s.inputs = .access (.write w off v) :: rest →
    step s = .next { s with inputs := rest, responses := { busError := true, data := 0 } :: s.responses }

/-- 20_memory.md R63: what a host read returns while BUSY = 0; it changes no state. An element that is
UNSPECIFIED shows a free value (log 4), of which nothing is said here. -/
def Obligations.HostReadWhileIdle : Prop :=
  ∀ (s : State) (rest : List Input) (off : Offset), s.busy = false → off.toNat % 4 = 0 →
    s.inputs = .access (.read .bits32 off) :: rest →
    ∃ d : Word,
      step s = .next { s with inputs := rest, responses := { busError := false, data := d } :: s.responses } ∧
      (off = 0x000#17 → d = 0x48554631#32) ∧ (off = 0x004#17 → d = s.cmd) ∧
      (off = 0x008#17 →
        d.getLsbD 0 = s.busy ∧ d.getLsbD 1 = s.done ∧ d.getLsbD 2 = s.err ∧ d.getLsbD 3 = s.cmdOvr ∧
          d.getLsbD 4 = s.wrIgn ∧ d.extractLsb' 5 3 = 0 ∧ d.extractLsb' 8 4 = s.errCode ∧ d.extractLsb' 12 20 = 0) ∧
      (off = 0x00C#17 → d = s.errInfo) ∧ (off = 0x010#17 → d = if s.ie then 1 else 0) ∧
      (off = 0x014#17 → d = s.textLen) ∧ (off = 0x018#17 → d = s.payloadLen) ∧
      (off = 0x01C#17 → d = s.bitLen) ∧ (off = 0x020#17 → d = s.outLen) ∧
      (off = 0x024#17 → d = s.treeCount) ∧ (off = 0x028#17 → d = s.root) ∧
      (∀ i, i < 256 → off.toNat = 0x400 + 4 * i → ∀ v, s.freq.peek i = some v → d = v) ∧
      (∀ i, i < 511 → off.toNat = 0x800 + 4 * i → ∀ v, s.node.peek i = some v → d = v) ∧
      (∀ i, i < 511 → off.toNat = 0x1000 + 4 * i → ∀ v, s.nodeFreq.peek i = some v → d = v) ∧
      (∀ i, i < 256 → off.toNat = 0x1800 + 4 * i →
        d.getLsbD 31 = (codeEntry s (BitVec.ofNat 8 i)).valid ∧ d.extractLsb' 8 23 = 0 ∧
          d.extractLsb' 0 8 = (codeEntry s (BitVec.ofNat 8 i)).len) ∧
      (∀ i w, i < 256 → w < 8 → off.toNat = 0x2000 + 32 * i + 4 * w → ∀ img, s.codeImg = some img →
        ∀ k j, k < 4 → j < 8 →
          d.getLsbD (8 * k + (7 - j)) = imageBit img (BitVec.ofNat 8 i) (8 * (4 * w + k) + j)) ∧
      (∀ m k b, m < 4096 → k < 4 → off.toNat = 0x10000 + 4 * m → Cells.peek s.textIn (4 * m + k) = some b →
        d.extractLsb' (8 * k) 8 = b) ∧
      (∀ m k b, m < 4096 → k < 4 → off.toNat = 0x14000 + 4 * m → Cells.peek s.payload (4 * m + k) = some b →
        d.extractLsb' (8 * k) 8 = b) ∧
      (∀ m k b, m < 4096 → k < 4 → off.toNat = 0x18000 + 4 * m → Cells.peek s.bitbuf (4 * m + k) = some b →
        d.extractLsb' (8 * k) 8 = b) ∧
      (∀ m k b, m < 4096 → k < 4 → off.toNat = 0x1C000 + 4 * m → Cells.peek s.textOut (4 * m + k) = some b →
        d.extractLsb' (8 * k) 8 = b) ∧
      (0x2C ≤ off.toNat ∧ off.toNat < 0x400 ∨ off.toNat = 0xFFC ∨ off.toNat = 0x17FC ∨
          0x1C00 ≤ off.toNat ∧ off.toNat < 0x2000 ∨ 0x4000 ≤ off.toNat ∧ off.toNat < 0x10000 → d = 0)

/-- 20_memory.md R64: what a host write does while BUSY = 0, location by location, and that it does nothing
else. `s₀` is the state with the access answered. -/
def Obligations.HostWriteWhileIdle : Prop :=
  ∀ (s s₀ : State) (rest : List Input) (off : Offset) (v : Word), s.busy = false → off.toNat % 4 = 0 →
    s.inputs = .access (.write .bits32 off v) :: rest →
    s₀ = { s with inputs := rest, responses := { busError := false, data := 0 } :: s.responses } →
    (off = 0x004#17 →
        step s = .next
          { s₀ with cmd := v, busy := true, done := false, err := false, errCode := 0, errInfo := 0 }) ∧
      (off = 0x008#17 →
        step s = .next
          { s₀ with
            done := s.done && !v.getLsbD 1
            err := s.err && !v.getLsbD 2
            errCode := if v.getLsbD 2 then 0 else s.errCode
            cmdOvr := s.cmdOvr && !v.getLsbD 3
            wrIgn := s.wrIgn && !v.getLsbD 4 }) ∧
      (off = 0x010#17 → step s = .next { s₀ with ie := v.getLsbD 0 }) ∧
      (off = 0x014#17 → step s = .next { s₀ with textLen := v }) ∧
      (off = 0x018#17 → step s = .next { s₀ with payloadLen := v }) ∧
      (off = 0x01C#17 → step s = .next { s₀ with bitLen := v }) ∧
      (off = 0x024#17 → step s = .next { s₀ with treeCount := v }) ∧
      (off = 0x028#17 → step s = .next { s₀ with root := v }) ∧
      (∀ i, i < 256 → off.toNat = 0x400 + 4 * i → ∃ m, step s = .next { s₀ with freq := m } ∧
        ∀ j, m.peek j = if j = i then some v else s.freq.peek j) ∧
      (∀ i, i < 511 → off.toNat = 0x800 + 4 * i → ∃ m, step s = .next { s₀ with node := m } ∧
        ∀ j, m.peek j = if j = i then some v else s.node.peek j) ∧
      (∀ i, i < 511 → off.toNat = 0x1000 + 4 * i → ∃ m, step s = .next { s₀ with nodeFreq := m } ∧
        ∀ j, m.peek j = if j = i then some v else s.nodeFreq.peek j) ∧
      (∀ i, i < 4096 → off.toNat = 0x10000 + 4 * i → ∃ m, step s = .next { s₀ with textIn := m } ∧
        ∀ j, Cells.peek m j =
          if j / 4 = i then some (v.extractLsb' (8 * (j % 4)) 8) else Cells.peek s.textIn j) ∧
      (∀ i, i < 4096 → off.toNat = 0x14000 + 4 * i → ∃ m, step s = .next { s₀ with payload := m } ∧
        ∀ j, Cells.peek m j =
          if j / 4 = i then some (v.extractLsb' (8 * (j % 4)) 8) else Cells.peek s.payload j) ∧
      (∀ i, i < 4096 → off.toNat = 0x18000 + 4 * i → ∃ m, step s = .next { s₀ with bitbuf := m } ∧
        ∀ j, Cells.peek m j =
          if j / 4 = i then some (v.extractLsb' (8 * (j % 4)) 8) else Cells.peek s.bitbuf j) ∧
      (off = 0x000#17 ∨ off = 0x00C#17 ∨ off = 0x020#17 ∨ 0x2C ≤ off.toNat ∧ off.toNat < 0x400 ∨
          off.toNat = 0xFFC ∨ off.toNat = 0x17FC ∨ 0x1800 ≤ off.toNat ∧ off.toNat < 0x10000 ∨
          0x1C000 ≤ off.toNat → step s = .next s₀)

/-- 20_memory.md R64 and R69 over the whole window: a write other than to CMD leaves what every other offset
reads, UNSPECIFIED elements included. -/
def Obligations.WriteLeavesEveryOtherOffset : Prop :=
  ∀ (s : State) (a b : Offset) (v : Word), a.toNat % 4 = 0 → b.toNat % 4 = 0 → a ≠ b → a ≠ 0x004#17 →
    memRead (memWrite s a v) b = memRead s b

/-- 10_state.md R28 to R31, R33 to R36, R39 to R41: every RW register and array word stores all 32 bits. -/
def Obligations.ReadBackOfAWrite : Prop :=
  ∀ (s : State) (a : Offset) (v : Word), a.toNat % 4 = 0 →
    a = 0x014#17 ∨ a = 0x018#17 ∨ a = 0x01C#17 ∨ a = 0x024#17 ∨ a = 0x028#17 ∨
      0x400 ≤ a.toNat ∧ a.toNat < 0xFFC ∨ 0x1000 ≤ a.toNat ∧ a.toNat < 0x17FC ∨
      0x10000 ≤ a.toNat ∧ a.toNat < 0x1C000 →
    memRead (memWrite s a v) a = v

/-- 20_memory.md R72: the busy interlock. ID, CMD, STATUS and IRQ_EN read their values, BUSY being 1. Any other
read gives the free value Config.busyRead of the next draw (log 5), which no state determines: it holds nothing
of the result. -/
def Obligations.BusyInterlock : Prop :=
  ∀ (s : State) (rest : List Input) (off : Offset) (v : Word), s.busy = true → off.toNat % 4 = 0 →
    (s.inputs = .access (.write .bits32 off v) :: rest →
      ∃ t, step s = .next { t with inputs := rest, responses := { busError := false, data := 0 } :: s.responses } ∧
        (off = 0x004#17 → t = { s with cmdOvr := true }) ∧
        (off = 0x008#17 → t =
          { s with
            done := s.done && !v.getLsbD 1
            err := s.err && !v.getLsbD 2
            errCode := if v.getLsbD 2 then 0 else s.errCode
            cmdOvr := s.cmdOvr && !v.getLsbD 3
            wrIgn := s.wrIgn && !v.getLsbD 4 }) ∧
        (off = 0x010#17 → t = { s with ie := v.getLsbD 0 }) ∧
        (off ≠ 0x004#17 → off ≠ 0x008#17 → off ≠ 0x010#17 → t = { s with wrIgn := true })) ∧
      (s.inputs = .access (.read .bits32 off) :: rest →
        (off = 0x000#17 ∨ off = 0x004#17 ∨ off = 0x008#17 ∨ off = 0x010#17 →
          ∃ d : Word,
            step s = .next { s with inputs := rest, responses := { busError := false, data := d } :: s.responses } ∧
            (off = 0x000#17 → d = 0x48554631#32) ∧ (off = 0x004#17 → d = s.cmd) ∧
            (off = 0x008#17 →
              d.getLsbD 0 = true ∧ d.getLsbD 1 = s.done ∧ d.getLsbD 2 = s.err ∧ d.getLsbD 3 = s.cmdOvr ∧
                d.getLsbD 4 = s.wrIgn ∧ d.extractLsb' 5 3 = 0 ∧ d.extractLsb' 8 4 = s.errCode ∧
                d.extractLsb' 12 20 = 0) ∧
            (off = 0x010#17 → d = if s.ie then 1 else 0)) ∧
        (off ≠ 0x000#17 → off ≠ 0x004#17 → off ≠ 0x008#17 → off ≠ 0x010#17 →
          step s = .next
            { s with
              inputs := rest
              responses := { busError := false, data := Config.busyRead s.draws } :: s.responses
              draws := s.draws + 1 }))

/-- 10_state.md R27: IRQ_EN bit 0 is IE, which enables the interrupt of 60_exceptions.md R220; the other bits
read 0, and a write takes effect BUSY or not. -/
def Obligations.IrqEnableWrite : Prop :=
  (∀ (s : State) (rest : List Input) (v : Word), s.inputs = .access (.write .bits32 0x010#17 v) :: rest →
      ∃ t, step s = .next t ∧ t.ie = v.getLsbD 0 ∧ (memRead t 0x010#17).getLsbD 0 = v.getLsbD 0 ∧
        (memRead t 0x010#17).extractLsb' 1 31 = 0 ∧ t.irq = (v.getLsbD 0 && (s.done || s.err)) ∧
        t =
          { s with
            inputs := rest
            responses := { busError := false, data := 0 } :: s.responses
            ie := v.getLsbD 0 }) ∧
    memRead State.reset 0x010#17 = 0x00000000#32

/-- 60_exceptions.md R212: acknowledging an error by STATUS bit 2 or by a new command; ERR_INFO is cleared
only by acceptance, and an uncleared error does not block the next command. -/
def Obligations.ErrorAcknowledgement : Prop :=
  ∀ (s : State) (rest : List Input) (v : Word), s.busy = false →
    (s.inputs = .access (.write .bits32 0x008#17 v) :: rest → v.getLsbD 2 = true →
      ∃ t, step s = .next t ∧ t.err = false ∧ t.errCode = 0 ∧ t.errInfo = s.errInfo ∧ t.busy = false) ∧
      (s.inputs = .access (.write .bits32 0x004#17 v) :: rest →
        ∃ t, step s = .next t ∧ t.busy = true ∧ t.cmd = v ∧ t.done = false ∧ t.err = false ∧ t.errCode = 0 ∧
          t.errInfo = 0)

/-- 60_exceptions.md R220: the interrupt output is the level IE and (DONE or ERR): its only source is the end
of a command; it is cleared by the STATUS bit that is set, by a new command or by IE = 0, and 0 after reset. -/
def Obligations.InterruptLevel : Prop :=
  State.reset.irq = false ∧
    ∀ s : State, (s.irq = true ↔ s.ie = true ∧ (s.done = true ∨ s.err = true)) ∧
      (∀ v, (memWrite s 0x004#17 v).irq = false) ∧
      (∀ v : Word, (s.done = true → v.getLsbD 1 = true) → (s.err = true → v.getLsbD 2 = true) →
        (memWrite s 0x008#17 v).irq = false) ∧
      (∀ v : Word, v.getLsbD 0 = false → (memWrite s 0x010#17 v).irq = false) ∧
      (∀ i t, s.ie = true → exec i s = .next t → t.irq = true) ∧
      ∀ t, step s = .next t → s.done = false → s.err = false → t.done = true ∨ t.err = true →
        s.busy = true ∧ t.busy = false

/-! ### Reset (70_reset_and_hazards.md) -/

/-- 70_reset_and_hazards.md R240: reset at any time sets every register to its reset value and makes every
array UNSPECIFIED (a new draw of the model, log 16); CODE_VALID and CODE_LEN are 0. -/
def Obligations.ResetInputResetsEverything : Prop :=
  ∀ (s : State) (rest : List Input), s.inputs = .reset :: rest →
    ∃ t, step s = .next t ∧ t.cmd = 0 ∧ t.busy = false ∧ t.done = false ∧ t.err = false ∧ t.cmdOvr = false ∧
      t.wrIgn = false ∧ t.errCode = 0 ∧ t.errInfo = 0 ∧ t.ie = false ∧ t.irq = false ∧ t.textLen = 0 ∧
      t.payloadLen = 0 ∧ t.bitLen = 0 ∧ t.outLen = 0 ∧ t.treeCount = 0 ∧ t.root = 0 ∧
      (∀ i, t.freq.peek i = none ∧ t.node.peek i = none ∧ t.nodeFreq.peek i = none ∧
        Cells.peek t.textIn i = none ∧ Cells.peek t.payload i = none ∧ Cells.peek t.bitbuf i = none ∧
        Cells.peek t.textOut i = none) ∧
      t.codeImg = none ∧ (∀ sym, codeEntry t sym = { valid := false, len := 0 }) ∧ t.inputs = rest ∧
      t.ramDraw = s.draws ∧ t.outDraw = s.draws ∧ t.draws = s.draws + 1

/-- 70_reset_and_hazards.md R242: the commands that are fully defined right after reset, and BUILD, which
reads the UNSPECIFIED FREQ array (the model's fault, 93 U1). -/
def Obligations.CommandsRightAfterReset : Prop :=
  (∃ t, exec .nop State.reset = .next t ∧ t.done = true) ∧
    (∃ t, exec .gen State.reset = .next t ∧ t.done = true ∧
      ∀ sym, codeEntry t sym = { valid := false, len := 0 } ∧ ∀ j, j < 256 → readCodeBit t sym j = .ok false) ∧
    (∃ t, exec .pack State.reset = .next t ∧ t.done = true ∧ t.payloadLen = 1 ∧ Cells.peek t.payload 0 = some 0) ∧
    (∃ t, exec .unpack State.reset = .next t ∧ t.err = true ∧ t.errCode = 7 ∧ t.errInfo = 0xFFFFFFFF#32) ∧
    (∃ t, exec .decode State.reset = .next t ∧ t.done = true ∧ t.outLen = 0) ∧
    exec .build State.reset = .fault (.unwritten .freq 0)

/-! ### BUILD (40_tree_builder.md) -/

/-- 40_tree_builder.md R113: EMPTY_INPUT when every FREQ[s] = 0, and FREQ_OVERFLOW naming the symbol whose
addition first made the total exceed 2^32 − 1; nothing else changes. Otherwise every node's frequency is at
most the total. -/
def Obligations.BuildErrors : Prop :=
  ∀ (s : State) (f : Nat → Word), FreqGiven s f →
    ((∀ i, i < 256 → f i = 0) →
        exec .build s = .next { s with busy := false, done := false, err := true, errCode := 2, errInfo := 0 }) ∧
      (∀ k, k < 256 → freqSum f k ≤ 0xFFFFFFFF → 0xFFFFFFFF < freqSum f (k + 1) →
        exec .build s = .next
          { s with busy := false, done := false, err := true, errCode := 3, errInfo := BitVec.ofNat 32 k }) ∧
      ∀ t, freqSum f 256 ≤ 0xFFFFFFFF → exec .build s = .next t → t.done = true →
        ∀ j w, j < t.treeCount.toNat → t.nodeFreq.peek j = some w → w.toNat ≤ freqSum f 256

/-- 40_tree_builder.md R112 and R116: BUILD succeeds on every table that is not empty and whose total fits;
its N leaves stand at 0 .. N − 1 in symbol order, ROOT = 2N − 2, TREE_COUNT = 2N − 1, the root's frequency is
the total, the other entries of NODE and NODE_FREQ and everything else keep their values. -/
def Obligations.BuildResult : Prop :=
  ∀ (s : State) (f : Nat → Word), FreqGiven s f → presentSymbols f ≠ [] → freqSum f 256 ≤ 0xFFFFFFFF →
    ∃ nd nf,
      exec .build s = .next
        { s with
          busy := false, done := true, node := nd, nodeFreq := nf
          root := BitVec.ofNat 32 (2 * (presentSymbols f).length - 2)
          treeCount := BitVec.ofNat 32 (2 * (presentSymbols f).length - 1) } ∧
      (∀ k sym, (presentSymbols f)[k]? = some sym →
        nd.peek k = some (0x80000000#32 ||| BitVec.ofNat 32 sym) ∧ nf.peek k = some (f sym)) ∧
      nf.peek (2 * (presentSymbols f).length - 2) = some (BitVec.ofNat 32 (freqSum f 256)) ∧
      (∀ j, j < 2 * (presentSymbols f).length - 1 → (nd.peek j).isSome ∧ (nf.peek j).isSome) ∧
      ∀ j, 2 * (presentSymbols f).length - 1 ≤ j → nd.peek j = s.node.peek j ∧ nf.peek j = s.nodeFreq.peek j

/-- 40_tree_builder.md R114 and R115: merge m takes the two nodes of the pool with the least keys (frequency,
then index); the first is LEFT, the second RIGHT, the new node's frequency is their sum, which does not
wrap. -/
def Obligations.BuildMergesTheTwoLeastKeys : Prop :=
  ∀ (s t : State) (f : Nat → Word) (n : Nat), FreqGiven s f → n = (presentSymbols f).length →
    exec .build s = .next t → t.done = true → ∀ m, m + 1 < n →
    ∃ a b, ∃ fa fb : Word, a ≠ b ∧ inPool t.node n m a ∧ inPool t.node n m b ∧
      t.nodeFreq.peek a = some fa ∧ t.nodeFreq.peek b = some fb ∧
      t.node.peek (n + m) = some (BitVec.ofNat 32 b <<< 16 ||| BitVec.ofNat 32 a) ∧
      t.nodeFreq.peek (n + m) = some (fa + fb) ∧ fa.toNat + fb.toNat ≤ 0xFFFFFFFF ∧
      (fa.toNat < fb.toNat ∨ fa = fb ∧ a < b) ∧
      ∀ c fc, inPool t.node n m c → t.nodeFreq.peek c = some fc → c ≠ a → c ≠ b →
        fb.toNat < fc.toNat ∨ fb = fc ∧ b < c

/-- 40_tree_builder.md R120: every tree BUILD writes passes TreeWF; its leaves are the symbols that occur. -/
def Obligations.BuiltTreePassesTreeWF : Prop :=
  ∀ (s t : State) (f : Nat → Word), FreqGiven s f → exec .build s = .next t → t.done = true →
    ∃ T, treeWF t = .ok T ∧ TreeHeld t T ∧
      (∀ i, i < t.treeCount.toNat ↔ i ∈ T.indices) ∧
      ∀ sym : Byte, sym ∈ T.symbols ↔ f sym.toNat ≠ 0

/-- 40_tree_builder.md R121: BUILD's result is a function of FREQ alone. -/
def Obligations.BuildDependsOnFreqOnly : Prop :=
  ∀ s s' t : State, (∀ i, i < 256 → s.freq.peek i = s'.freq.peek i) → exec .build s = .next t →
    t.done = true →
    ∃ t', exec .build s' = .next t' ∧ t'.done = true ∧ t'.treeCount = t.treeCount ∧ t'.root = t.root ∧
      ∀ i, i < t.treeCount.toNat → t'.node.peek i = t.node.peek i ∧ t'.nodeFreq.peek i = t.nodeFreq.peek i

/-! ### TreeWF and GEN (40_tree_builder.md R118, 41_code_gen.md) -/

/-- 40_tree_builder.md R118 and R119: TreeWF accepts exactly the strict trees with distinct leaf symbols, and
answers the tree. -/
def Obligations.TreeWFAcceptsExactlyTheStrictTrees : Prop :=
  ∀ (s : State) (T : CodeTree), treeWF s = .ok T ↔ TreeHeld s T

/-- 40_tree_builder.md R119: a tree that passes TreeWF is strict and full, has L ≤ 256 leaves and 2L − 1 nodes, and depth
at most L − 1. -/
def Obligations.AcceptedTreesAreFullAndShallow : Prop :=
  ∀ (s : State) (T : CodeTree), treeWF s = .ok T →
    T.indices.Nodup ∧ T.symbols.Nodup ∧ T.symbols.length ≤ 256 ∧ T.indices.length = 2 * T.symbols.length - 1 ∧
      T.indices.length ≤ s.treeCount.toNat ∧
      ∀ path sub, T.descend path = some sub → path.length ≤ T.symbols.length - 1

/-- 40_tree_builder.md R118, 41_code_gen.md R137: what BAD_TREE names for the count, the root's word, the left child
and, after a left leaf, the right child, in the order of the walk; GEN then changes nothing but STATUS and
ERR_INFO. GenNamesTheFirstOffence below says it for the whole tree. -/
def Obligations.GenNamesTheOffendingNode : Prop :=
  ∀ (s : State) (bad : Word → Prop), s.treeCount ≠ 0 →
    (∀ x, bad x ↔
      exec .gen s = .next { s with busy := false, done := false, err := true, errCode := 4, errInfo := x }) →
    (511 < s.treeCount.toNat → bad s.treeCount) ∧
      (s.treeCount.toNat ≤ 511 → s.treeCount.toNat ≤ s.root.toNat → bad s.root) ∧
      ∀ w, s.treeCount.toNat ≤ 511 → s.root.toNat < s.treeCount.toNat → s.node.peek s.root.toNat = some w →
        (ReservedBitSet w → bad s.root) ∧
          ∀ l r : Nat, l < 512 → r < 512 → w = (BitVec.ofNat 32 r <<< 16 ||| BitVec.ofNat 32 l) →
            (s.treeCount.toNat ≤ l ∨ l = s.root.toNat → bad (BitVec.ofNat 32 l)) ∧
              (∀ wl, l < s.treeCount.toNat → l ≠ s.root.toNat → s.node.peek l = some wl → ReservedBitSet wl →
                bad (BitVec.ofNat 32 l)) ∧
              ∀ sym : Byte, l < s.treeCount.toNat → l ≠ s.root.toNat →
                s.node.peek l = some (0x80000000#32 ||| sym.setWidth 32) →
                (s.treeCount.toNat ≤ r ∨ r = s.root.toNat ∨ r = l → bad (BitVec.ofNat 32 r)) ∧
                  (∀ wr, r < s.treeCount.toNat → r ≠ s.root.toNat → r ≠ l → s.node.peek r = some wr →
                    ReservedBitSet wr → bad (BitVec.ofNat 32 r)) ∧
                  (r < s.treeCount.toNat → r ≠ s.root.toNat → r ≠ l →
                    s.node.peek r = some (0x80000000#32 ||| sym.setWidth 32) → bad (BitVec.ofNat 32 r))

/-- 40_tree_builder.md R118: over NODE entries that have been written, a stored structure that is no strict
tree ends GEN, and DECODE within BIT_CAP, with BAD_TREE and the same info. -/
def Obligations.EveryOtherTreeIsBad : Prop :=
  ∀ s : State, s.treeCount ≠ 0 → (∀ i, i < 511 → (s.node.peek i).isSome) → (¬∃ T, TreeHeld s T) →
    ∃ x, exec .gen s = .next { s with busy := false, done := false, err := true, errCode := 4, errInfo := x } ∧
      (s.bitLen.toNat ≤ 131072 →
        exec .decode s = .next { s with busy := false, done := false, err := true, errCode := 4, errInfo := x })

/-- 41_code_gen.md R131, R132, R134: on a tree that passes TreeWF, GEN gives every leaf's symbol its path as
code, its length and its zero-padded image, every other symbol no code, and writes nothing else. -/
def Obligations.GenGivesEveryLeafItsPath : Prop :=
  ∀ (s : State) (T : CodeTree), TreeHeld s T →
    ∃ t, exec .gen s = .next t ∧
      t = { s with busy := false, done := true, codeTab := t.codeTab, codeImg := t.codeImg } ∧
      (∀ path sym, T.leadsTo path sym →
        path.length ≤ 255 ∧ codeEntry t sym = { valid := true, len := BitVec.ofNat 8 path.length } ∧
          codeBits t sym = path ∧ ∀ j, j < 256 → readCodeBit t sym j = .ok (path.getD j false)) ∧
      ∀ sym, sym ∉ T.symbols →
        codeEntry t sym = { valid := false, len := 0 } ∧ ∀ j, j < 256 → readCodeBit t sym j = .ok false

/-- 41_code_gen.md R137: with no tree GEN succeeds and leaves every symbol without a code. -/
def Obligations.GenWithoutATree : Prop :=
  ∀ s : State, s.treeCount = 0 →
    ∃ t, exec .gen s = .next t ∧
      t = { s with busy := false, done := true, codeTab := t.codeTab, codeImg := t.codeImg } ∧
      ∀ sym, codeEntry t sym = { valid := false, len := 0 } ∧ ∀ j, j < 256 → readCodeBit t sym j = .ok false

/-- 41_code_gen.md R136: GEN's result depends on TREE_COUNT, ROOT and the reachable NODE words alone. -/
def Obligations.GenDependsOnTheReachableNodesOnly : Prop :=
  ∀ (s s' : State) (T : CodeTree), TreeHeld s T → s'.treeCount = s.treeCount → s'.root = s.root →
    (∀ i ∈ T.indices, s'.node.peek i = s.node.peek i) →
    ∃ t t', exec .gen s = .next t ∧ exec .gen s' = .next t' ∧ t'.codeTab = t.codeTab ∧ t'.codeImg = t.codeImg

/-- 41_code_gen.md R135: after GEN no code is a prefix of another, and with two or more leaves every code has
a length of at least 1. -/
def Obligations.GeneratedCodesArePrefixFree : Prop :=
  ∀ s t : State, exec .gen s = .next t → t.done = true →
    PrefixFree t ∧
      ∀ T, TreeHeld s T → T.isInner = true → ∀ sym, (codeEntry t sym).valid = true → (codeEntry t sym).len ≠ 0

/-! ### PACK (42_bit_packer.md) -/

/-- 42_bit_packer.md R147, R150, R151: PACK writes the header L mod 8 and the bits of the text's codes in order,
8 a byte MSB-first and zero-padded, PAYLOAD_LEN = 1 + D, and nothing else. -/
def Obligations.PackResult : Prop :=
  ∀ (s : State) (text : List Byte) (bits : List Bool) (d : Nat), TextGiven s text → TextCoded s text →
    bits = packedBits s text → d = (bits.length + 7) / 8 → 1 + d ≤ 16384 →
    ∃ pl,
      exec .pack s = .next
        { s with busy := false, done := true, payload := pl, payloadLen := BitVec.ofNat 32 (1 + d) } ∧
      Cells.peek pl 0 = some (BitVec.ofNat 8 (bits.length % 8)) ∧
      (∀ g, g < d → ∃ b : Byte, Cells.peek pl (1 + g) = some b ∧
        ∀ t, t < 8 → b.getLsbD (7 - t) = bits.getD (8 * g + t) false) ∧
      ∀ k, d < k → Cells.peek pl k = Cells.peek s.payload k

/-- 42_bit_packer.md R149: MISSING_CODE at the least index whose symbol has no code; nothing is written. -/
def Obligations.PackMissingCode : Prop :=
  ∀ (s : State) (before : List Byte) (sym : Byte), s.textLen.toNat ≤ 16384 → before.length < s.textLen.toNat →
    Cells.holds s.textIn 0 (before ++ [sym]) → (∀ c ∈ before, (codeEntry s c).valid = true) →
    (codeEntry s sym).valid = false →
    exec .pack s = .next
      { s with busy := false, done := false, err := true, errCode := 5, errInfo := BitVec.ofNat 32 before.length }

/-- 42_bit_packer.md R146, R153: BAD_LENGTH above TEXT_CAP, and PAYLOAD_OVERFLOW with L when the payload would
not fit; nothing is written. -/
def Obligations.PackLimits : Prop :=
  (∀ s : State, 16384 < s.textLen.toNat →
      exec .pack s = .next
        { s with busy := false, done := false, err := true, errCode := 8, errInfo := s.textLen }) ∧
    ∀ (s : State) (text : List Byte) (len : Nat), TextGiven s text →
      (∀ c ∈ text, (codeEntry s c).valid = true) →
      len = (text.map (fun c => (codeEntry s c).len.toNat)).sum → 16384 < 1 + (len + 7) / 8 →
      exec .pack s = .next
        { s with busy := false, done := false, err := true, errCode := 6, errInfo := BitVec.ofNat 32 len }

/-- 42_bit_packer.md R152: a text over a symbol with the empty code packs to the one byte 0. -/
def Obligations.PackOfZeroLengthCodes : Prop :=
  ∀ (s : State) (text : List Byte), TextGiven s text →
    (∀ c ∈ text, codeEntry s c = { valid := true, len := 0 }) →
    ∃ pl, exec .pack s = .next { s with busy := false, done := true, payload := pl, payloadLen := 1 } ∧
      Cells.peek pl 0 = some 0 ∧ ∀ k, 0 < k → Cells.peek pl k = Cells.peek s.payload k

/-! ### UNPACK (43_bit_unpacker.md) -/

/-- 43_bit_unpacker.md R162, R163, R165: the bits of the data bytes, the header 0 meaning 8 valid bits in the
last one; the padding is written as 0 and nothing else is written. -/
def Obligations.UnpackResult : Prop :=
  ∀ (s : State) (header : Byte) (data : List Byte) (n : Nat), s.payloadLen.toNat = 1 + data.length →
    1 + data.length ≤ 16384 → data ≠ [] → Cells.holds s.payload 0 (header :: data) → header.toNat ≤ 7 →
    n = 8 * (data.length - 1) + (if header = 0 then 8 else header.toNat) →
    ∃ bb,
      exec .unpack s = .next { s with busy := false, done := true, bitbuf := bb, bitLen := BitVec.ofNat 32 n } ∧
      (∀ i, i < n → ∃ b, data[i / 8]? = some b ∧ storedBit bb i = some (b.getLsbD (7 - i % 8))) ∧
      (∀ i, n ≤ i → i < 8 * data.length → storedBit bb i = some false) ∧
      ∀ m, data.length ≤ m → Cells.peek bb m = Cells.peek s.bitbuf m

/-- 43_bit_unpacker.md R161, R164: a payload without data bytes and with header 0 unpacks to the empty bit
string; every malformed payload is rejected and nothing is written. -/
def Obligations.UnpackOfEmptyAndMalformedPayloads : Prop :=
  ∀ s : State,
    (s.payloadLen = 1 → Cells.peek s.payload 0 = some 0 →
        exec .unpack s = .next { s with busy := false, done := true, bitLen := 0 }) ∧
      (s.payloadLen = 0 →
        exec .unpack s = .next
          { s with busy := false, done := false, err := true, errCode := 7, errInfo := 0xFFFFFFFF#32 }) ∧
      (16384 < s.payloadLen.toNat →
        exec .unpack s = .next
          { s with busy := false, done := false, err := true, errCode := 8, errInfo := s.payloadLen }) ∧
      ∀ header : Byte, 1 ≤ s.payloadLen.toNat → s.payloadLen.toNat ≤ 16384 →
        Cells.peek s.payload 0 = some header →
        7 < header.toNat ∨ s.payloadLen = 1 ∧ header ≠ 0 →
        exec .unpack s = .next
          { s with busy := false, done := false, err := true, errCode := 7, errInfo := header.setWidth 32 }

/-- 43_bit_unpacker.md R167: UNPACK after a successful PACK gives back exactly the packed bit string. -/
def Obligations.UnpackInvertsPack : Prop :=
  ∀ (s t : State) (text : List Byte), TextGiven s text → TextCoded s text → exec .pack s = .next t →
    t.done = true →
    ∃ u, exec .unpack (t.accept (encode .unpack)) = .next u ∧ u.done = true ∧ u.err = false ∧
      u.bitLen.toNat = (packedBits s text).length ∧
      ∀ i, i < (packedBits s text).length → storedBit u.bitbuf i = (packedBits s text)[i]?

/-! ### DECODE (44_tree_decoder.md) -/

/-- 44_tree_decoder.md R177: with no tree the empty bit string decodes to the empty text, any other is
BAD_TREE; BAD_LENGTH comes first (60_exceptions.md R208). -/
def Obligations.DecodeWithoutATree : Prop :=
  ∀ s : State,
    (s.treeCount = 0 → s.bitLen = 0 →
        exec .decode s = .next { s with busy := false, done := true, outLen := 0 }) ∧
      (s.treeCount = 0 → s.bitLen ≠ 0 → s.bitLen.toNat ≤ 131072 →
        exec .decode s = .next { s with busy := false, done := false, err := true, errCode := 4, errInfo := 0 }) ∧
      (131072 < s.bitLen.toNat →
        exec .decode s = .next
          { s with busy := false, done := false, err := true, errCode := 8, errInfo := s.bitLen })

/-- 44_tree_decoder.md R179: a single-leaf tree decodes to NODE_FREQ[ROOT] copies of its symbol and consumes
no bits. -/
def Obligations.DecodeOfASingleLeaf : Prop :=
  ∀ (s : State) (i : Nat) (sym : Byte), TreeHeld s (.leaf i sym) →
    (s.bitLen ≠ 0 → s.bitLen.toNat ≤ 131072 →
        exec .decode s = .next { s with busy := false, done := false, err := true, errCode := 9, errInfo := 0 }) ∧
      ∀ c : Word, s.bitLen = 0 → s.nodeFreq.peek i = some c →
        (16384 < c.toNat →
            exec .decode s = .next
              { s with busy := false, done := false, err := true, errCode := 10, errInfo := c }) ∧
          (c.toNat ≤ 16384 →
            ∃ out, exec .decode s = .next { s with busy := false, done := true, textOut := out, outLen := c } ∧
              (∀ k, k < c.toNat → Cells.peek out k = some sym) ∧
              ∀ k, c.toNat ≤ k → Cells.peek out k = Cells.peek s.textOut k)

/-- 44_tree_decoder.md R176, R178, R180: when the bit string is the concatenation of root-to-leaf paths, DECODE
emits those leaves' symbols in order and writes nothing else. -/
def Obligations.DecodeEmitsTheLeavesOfThePaths : Prop :=
  ∀ (s : State) (T : CodeTree) (steps : List (Byte × List Bool)) (bits : List Bool), TreeHeld s T →
    T.isInner = true → (∀ p ∈ steps, T.leadsTo p.2 p.1) → bits = steps.flatMap (fun p => p.2) →
    s.bitLen.toNat = bits.length → bits.length ≤ 131072 →
    (∀ i, i < bits.length → storedBit s.bitbuf i = bits[i]?) → steps.length ≤ 16384 →
    ∃ out,
      exec .decode s = .next
        { s with busy := false, done := true, textOut := out, outLen := BitVec.ofNat 32 steps.length } ∧
      Cells.holds out 0 (steps.map (fun p => p.1)) ∧
      ∀ k, steps.length ≤ k → Cells.peek out k = Cells.peek s.textOut k

/-- 44_tree_decoder.md R176, R181: bits that end away from the root are CORRUPT_PAYLOAD with BIT_LEN, and the
symbol that would be the 16385th is OUT_OVERFLOW with the index of its last bit; OUT_LEN is then 0 and
TEXT_OUT UNSPECIFIED (a new draw of the model, log 6). -/
def Obligations.DecodeWalkErrors : Prop :=
  ∀ (s : State) (T : CodeTree) (steps : List (Byte × List Bool)) (bits : List Bool), TreeHeld s T →
    T.isInner = true → (∀ p ∈ steps, T.leadsTo p.2 p.1) → s.bitLen.toNat ≤ 131072 →
    (∀ i, i < bits.length → storedBit s.bitbuf i = bits[i]?) →
    (∀ tail sub, bits = steps.flatMap (fun p => p.2) ++ tail → s.bitLen.toNat = bits.length →
        steps.length ≤ 16384 → tail ≠ [] → T.descend tail = some sub → sub.isInner = true →
        exec .decode s = .next
          { s with
            busy := false, done := false, err := true, errCode := 9, errInfo := s.bitLen
            outLen := 0, textOut := [], outDraw := s.draws, draws := s.draws + 1 }) ∧
      (bits = steps.flatMap (fun p => p.2) → bits.length ≤ s.bitLen.toNat → steps.length = 16385 →
        exec .decode s = .next
          { s with
            busy := false, done := false, err := true, errCode := 10
            errInfo := BitVec.ofNat 32 (bits.length - 1)
            outLen := 0, textOut := [], outDraw := s.draws, draws := s.draws + 1 })

/-! ### Headline results -/

/-- 44_tree_decoder.md R184: the round trip. BUILD, GEN, PACK, UNPACK and DECODE, each accepted in turn, give
the text back whenever the payload fits; also when the container image is saved after PACK and restored, in any
other state `u`, before UNPACK (`u` = `s₃` is the case without a restore). -/
def Obligations.RoundTrip : Prop :=
  ∀ (s : State) (text : List Byte), text ≠ [] → TextGiven s text →
    FreqGiven s (fun i => BitVec.ofNat 32 (text.count (BitVec.ofNat 8 i))) →
    ∃ s₁ s₂ s₃, exec .build (s.accept (encode .build)) = .next s₁ ∧ s₁.done = true ∧ s₁.err = false ∧
      exec .gen (s₁.accept (encode .gen)) = .next s₂ ∧ s₂.done = true ∧ s₂.err = false ∧
      exec .pack (s₂.accept (encode .pack)) = .next s₃ ∧ (s₃.done = true ∨ s₃.err = true ∧ s₃.errCode = 6) ∧
      (s₃.done = true → ∀ u, SameContainer s₃ u →
        ∃ s₄ s₅, exec .unpack (u.accept (encode .unpack)) = .next s₄ ∧ s₄.done = true ∧ s₄.err = false ∧
          exec .decode (s₄.accept (encode .decode)) = .next s₅ ∧ s₅.done = true ∧ s₅.err = false ∧
          s₅.outLen.toNat = text.length ∧ Cells.holds s₅.textOut 0 text)

/-- The invariant of the block (10_state.md R25, R45, 41_code_gen.md R132, R134) is kept by every step, from
every state that has it. -/
def Obligations.EveryStepKeepsTheInvariant : Prop :=
  ∀ s t : State, s.Inv → step s = .next t → t.Inv

/-- The code table stays prefix-free over every step (41_code_gen.md R130: "no code is a prefix of another"). -/
def Obligations.EveryStepKeepsTheCodesPrefixFree : Prop :=
  ∀ s t : State, PrefixFree s → step s = .next t → PrefixFree t

/-- The block right after reset has the invariant, and its code table is prefix-free. -/
def Obligations.ResetHasTheInvariant : Prop := State.reset.Inv ∧ PrefixFree State.reset

/-! ### Beside the statements above -/

/-- 40_tree_builder.md R118, the whole walk: GEN ends with BAD_TREE and info x exactly when TREE_COUNT is above 511
and x is TREE_COUNT, or x is the first offence of the pre-order, left-before-right walk from ROOT, however deep;
DECODE does the same within BIT_CAP (44_tree_decoder.md R176). -/
def Obligations.GenNamesTheFirstOffence : Prop :=
  ∀ (s : State) (x : Word), s.treeCount ≠ 0 →
    (511 < s.treeCount.toNat ∧ x = s.treeCount ∨
        s.treeCount.toNat ≤ 511 ∧ FirstOffence s s.root.toNat [] [] x.toNat ↔
      exec .gen s = .next { s with busy := false, done := false, err := true, errCode := 4, errInfo := x }) ∧
    (s.bitLen.toNat ≤ 131072 →
      (511 < s.treeCount.toNat ∧ x = s.treeCount ∨
          s.treeCount.toNat ≤ 511 ∧ FirstOffence s s.root.toNat [] [] x.toNat ↔
        exec .decode s = .next { s with busy := false, done := false, err := true, errCode := 4, errInfo := x }))

/-- 45_control.md R190, 70_reset_and_hazards.md R241: while BUSY = 0 the engine's turn, and a step with nothing left
to come, leave the block as it is (log 19); a POLL is then one read of STATUS, BUSY reading 0, and is taken off
the schedule (30_encoding.md R97, log 8). -/
def Obligations.StepWhileIdle : Prop :=
  ∀ s : State, s.busy = false →
    (s.inputs = [] → step s = .next s) ∧
      (∀ rest, s.inputs = .engine :: rest → step s = .next { s with inputs := rest }) ∧
      ∀ rest, s.inputs = .poll :: rest →
        ∃ d : Word,
          step s = .next { s with inputs := rest, responses := { busError := false, data := d } :: s.responses } ∧
          d.getLsbD 0 = false ∧ d.getLsbD 1 = s.done ∧ d.getLsbD 2 = s.err ∧ d.getLsbD 3 = s.cmdOvr ∧
          d.getLsbD 4 = s.wrIgn ∧ d.extractLsb' 5 3 = 0 ∧ d.extractLsb' 8 4 = s.errCode ∧ d.extractLsb' 12 20 = 0
end

