-- ==== Sys2Proof/Laws/Bits.lean ====
section
/-! SUPPORT. Byte order, bit order and NODE words: what each helper of Machine/Ops.lean gives back. -/

namespace Sys2Proof.Machine

/-! ### Words and bytes (20_memory.md R66) -/

theorem wordOf_byteOf (v : Word) : wordOf (byteOf v 0) (byteOf v 1) (byteOf v 2) (byteOf v 3) = v := by
  apply BitVec.eq_of_getLsbD_eq
  intro i hi
  simp only [wordOf, byteOf, BitVec.getLsbD_append, BitVec.getLsbD_extractLsb']
  repeat' split
  all_goals (rw [decide_eq_true (by omega), Bool.true_and]; congr 1; omega)

theorem byteOf_wordOf (b0 b1 b2 b3 : Byte) :
    byteOf (wordOf b0 b1 b2 b3) 0 = b0 ∧ byteOf (wordOf b0 b1 b2 b3) 1 = b1 ∧
      byteOf (wordOf b0 b1 b2 b3) 2 = b2 ∧ byteOf (wordOf b0 b1 b2 b3) 3 = b3 := by
  refine ⟨?_, ?_, ?_, ?_⟩ <;>
    (apply BitVec.eq_of_getLsbD_eq; intro i hi
     simp only [wordOf, byteOf, BitVec.getLsbD_append, BitVec.getLsbD_extractLsb']
     rw [decide_eq_true hi, Bool.true_and]
     repeat' split
     all_goals first
       | (exfalso; omega)
       | (congr 1; omega))

@[simp] theorem length_bytesOf (v : Word) : (bytesOf v).length = 4 := rfl

/-! ### Bit strings in bytes (20_memory.md R67) -/

theorem byteOfBits_eight (f : Nat → Bool) (bs : List Bool) (h : ∀ t, t < 8 → bs.getD t false = f t) (t : Nat)
    (ht : t < 8) : bitOf (byteOfBits bs) t = f t := by
  have key : ∀ b0 b1 b2 b3 b4 b5 b6 b7 : Bool, ∀ t : Fin 8,
      bitOf (byteOfBits [b0, b1, b2, b3, b4, b5, b6, b7]) t = [b0, b1, b2, b3, b4, b5, b6, b7].getD t false := by
    decide
  have hb : byteOfBits bs = byteOfBits [f 0, f 1, f 2, f 3, f 4, f 5, f 6, f 7] := by
    simp only [byteOfBits, List.range, List.range.loop, List.foldl_cons, List.foldl_nil,
      h 0 (by decide), h 1 (by decide), h 2 (by decide), h 3 (by decide), h 4 (by decide), h 5 (by decide),
      h 6 (by decide), h 7 (by decide)]
    rfl
  rw [hb, key _ _ _ _ _ _ _ _ ⟨t, ht⟩]
  match t, ht with
  | 0, _ | 1, _ | 2, _ | 3, _ | 4, _ | 5, _ | 6, _ | 7, _ => rfl

/-- Bit t of the packed byte is bit t of the string, and 0 past its end (42_bit_packer.md R151). -/
theorem bitOf_byteOfBits (bs : List Bool) (t : Nat) (ht : t < 8) :
    bitOf (byteOfBits bs) t = bs.getD t false :=
  byteOfBits_eight (fun t => bs.getD t false) bs (fun _ _ => rfl) t ht

theorem byteOfBits_nil : byteOfBits [] = 0 := by decide

@[simp] theorem length_packBytes (d : Nat) (bs : List Bool) : (packBytes d bs).length = d := by
  induction d generalizing bs with
  | zero => rfl
  | succ d ih => simp [packBytes, ih]

theorem packBytes_getElem? (d : Nat) (bs : List Bool) (g : Nat) (hg : g < d) :
    (packBytes d bs)[g]? = some (byteOfBits (bs.drop (8 * g))) := by
  induction d generalizing bs g with
  | zero => omega
  | succ d ih =>
    cases g with
    | zero => rfl
    | succ g =>
      rw [packBytes, List.getElem?_cons_succ, ih _ _ (by omega), List.drop_drop]
      congr 3
      omega

/-- The bits of the packed bytes are the string, zero-padded (42_bit_packer.md R151). -/
theorem bitOf_packBytes (d : Nat) (bs : List Bool) (i : Nat) (hi : i < 8 * d) :
    ((packBytes d bs)[i / 8]?).map (fun b => bitOf b (i % 8)) = some (bs.getD i false) := by
  rw [packBytes_getElem? d bs (i / 8) (by omega), Option.map_some, bitOf_byteOfBits _ _ (by omega)]
  simp only [List.getD_eq_getElem?_getD, List.getElem?_drop]
  rw [show 8 * (i / 8) + i % 8 = i by omega]

/-- A byte is determined by its bits. -/
theorem byte_ext (a b : Byte) (h : ∀ i, i < 8 → bitOf a i = bitOf b i) : a = b := by
  apply BitVec.eq_of_getLsbD_eq
  intro i hi
  have := h (7 - i) (by omega)
  simpa [bitOf, show 7 - (7 - i) = i by omega] using this

/-! ### NODE words (10_state.md R35) -/

@[simp] theorem isLeafWord_leafWord (s : Byte) : isLeafWord (leafWord s) = true := by
  simp [isLeafWord, leafWord]

@[simp] theorem symField_leafWord (s : Byte) : symField (leafWord s) = s := by
  apply BitVec.eq_of_getLsbD_eq
  intro i hi
  have h0 : (0x80000000#32).getLsbD i = false := by
    have : ∀ j : Fin 8, (0x80000000#32).getLsbD j = false := by decide
    exact this ⟨i, hi⟩
  simp [symField, leafWord, BitVec.getLsbD_setWidth, hi, h0]
  omega

@[simp] theorem leafReservedClear_leafWord (s : Byte) : leafReservedClear (leafWord s) = true := by
  have : (leafWord s).extractLsb' 8 23 = 0#23 := by
    apply BitVec.eq_of_getLsbD_eq
    intro i hi
    have h0 : (0x80000000#32).getLsbD (8 + i) = false := by
      have : ∀ j : Fin 23, (0x80000000#32).getLsbD (8 + j) = false := by decide
      exact this ⟨i, hi⟩
    simp [leafWord, BitVec.getLsbD_extractLsb', BitVec.getLsbD_setWidth, h0]
  simp [leafReservedClear, this]

/-- A leaf word with its reserved bits 0 is the leaf word of its symbol. -/
theorem eq_leafWord (w : Word) (hl : isLeafWord w = true) (hr : leafReservedClear w = true) :
    w = leafWord (symField w) := by
  simp only [leafReservedClear, beq_iff_eq] at hr
  apply BitVec.eq_of_getLsbD_eq
  intro i hi
  simp only [leafWord, symField, BitVec.getLsbD_or, BitVec.getLsbD_setWidth, BitVec.getLsbD_extractLsb']
  rcases Nat.lt_or_ge i 8 with h8 | h8
  · have h0 : (0x80000000#32).getLsbD i = false := by
      have : ∀ j : Fin 8, (0x80000000#32).getLsbD j = false := by decide
      exact this ⟨i, h8⟩
    rw [h0, decide_eq_true hi, decide_eq_true h8]; simp
  · rcases Nat.lt_or_ge i 31 with h31 | h31
    · have h0 : (0x80000000#32).getLsbD i = false := by
        have : ∀ j : Fin 31, (0x80000000#32).getLsbD j = false := by decide
        exact this ⟨i, h31⟩
      have hz := congrArg (fun v => v.getLsbD (i - 8)) hr
      simp only [BitVec.getLsbD_extractLsb', BitVec.getLsbD_zero] at hz
      rw [decide_eq_true (by omega), Bool.true_and, show 8 + (i - 8) = i by omega] at hz
      simp [h0, hz, Nat.not_lt.2 h8]
    · have : i = 31 := by omega
      subst this
      simpa [isLeafWord] using hl

theorem innerWord_getLsbD (l r i : Nat) (hl : l < 512) (hr : r < 512) :
    (innerWord l r).getLsbD i = (if i < 9 then l.testBit i else if 16 ≤ i ∧ i < 25 then r.testBit (i - 16) else false) := by
  have hlb : ∀ j, 9 ≤ j → l.testBit j = false := fun j hj =>
    Nat.testBit_lt_two_pow (Nat.lt_of_lt_of_le hl (Nat.pow_le_pow_right (n := 2) (by decide) hj))
  have hrb : ∀ j, 9 ≤ j → r.testBit j = false := fun j hj =>
    Nat.testBit_lt_two_pow (Nat.lt_of_lt_of_le hr (Nat.pow_le_pow_right (n := 2) (by decide) hj))
  simp only [innerWord, BitVec.getLsbD_or, BitVec.getLsbD_shiftLeft, BitVec.getLsbD_ofNat]
  by_cases h9 : i < 9
  · simp [h9, show i < 32 by omega, show i < 16 by omega]
  · rw [if_neg h9, hlb i (by omega), Bool.and_false, Bool.or_false]
    by_cases h16 : 16 ≤ i ∧ i < 25
    · simp [h16, show i < 32 by omega, show ¬i < 16 by omega, show i - 16 < 32 by omega]
    · rw [if_neg h16]
      rcases Nat.lt_or_ge i 16 with h | h
      · simp [h]
      · simp [hrb (i - 16) (by omega)]

@[simp] theorem isLeafWord_innerWord (l r : Nat) (hl : l < 512) (hr : r < 512) :
    isLeafWord (innerWord l r) = false := by
  rw [isLeafWord, innerWord_getLsbD l r 31 hl hr]; rfl

theorem nat_of_nine_bits (w : Word) (n k : Nat) (hn : n < 512)
    (h : ∀ i, i < 9 → w.getLsbD (k + i) = n.testBit i) : (w.extractLsb' k 9).toNat = n := by
  apply Nat.eq_of_testBit_eq
  intro i
  rw [BitVec.testBit_toNat, BitVec.getLsbD_extractLsb']
  rcases Nat.lt_or_ge i 9 with hi | hi
  · simp [hi, h i hi]
  · rw [decide_eq_false (Nat.not_lt.2 hi), Bool.false_and]
    exact (Nat.testBit_lt_two_pow (Nat.lt_of_lt_of_le hn (Nat.pow_le_pow_right (n := 2) (by decide) hi))).symm

@[simp] theorem leftField_innerWord (l r : Nat) (hl : l < 512) (hr : r < 512) :
    leftField (innerWord l r) = l :=
  nat_of_nine_bits _ _ 0 hl (fun i hi => by rw [Nat.zero_add, innerWord_getLsbD l r i hl hr, if_pos hi])

@[simp] theorem rightField_innerWord (l r : Nat) (hl : l < 512) (hr : r < 512) :
    rightField (innerWord l r) = r :=
  nat_of_nine_bits _ _ 16 hr (fun i hi => by
    rw [innerWord_getLsbD l r (16 + i) hl hr, if_neg (by omega), if_pos (by omega), Nat.add_sub_cancel_left])

@[simp] theorem innerReservedClear_innerWord (l r : Nat) (hl : l < 512) (hr : r < 512) :
    innerReservedClear (innerWord l r) = true := by
  have h₁ : (innerWord l r).extractLsb' 25 6 = 0#6 := by
    apply BitVec.eq_of_getLsbD_eq
    intro i hi
    rw [BitVec.getLsbD_extractLsb', innerWord_getLsbD l r _ hl hr]
    simp [show ¬25 + i < 9 by omega]
  have h₂ : (innerWord l r).extractLsb' 9 7 = 0#7 := by
    apply BitVec.eq_of_getLsbD_eq
    intro i hi
    rw [BitVec.getLsbD_extractLsb', innerWord_getLsbD l r _ hl hr]
    simp [show ¬9 + i < 9 by omega]
    omega
  simp [innerReservedClear, h₁, h₂]

/-- An internal word with its reserved bits 0 is the internal word of its two fields. -/
theorem eq_innerWord (w : Word) (hl : isLeafWord w = false) (hr : innerReservedClear w = true) :
    w = innerWord (leftField w) (rightField w) := by
  have hlt : leftField w < 512 := by
    have : (w.extractLsb' 0 9).toNat < 2 ^ 9 := BitVec.isLt _
    simpa [leftField] using this
  have hrt : rightField w < 512 := by
    have : (w.extractLsb' 16 9).toNat < 2 ^ 9 := BitVec.isLt _
    simpa [rightField] using this
  simp only [innerReservedClear, Bool.and_eq_true, beq_iff_eq] at hr
  apply BitVec.eq_of_getLsbD_eq
  intro i hi
  rw [innerWord_getLsbD _ _ i hlt hrt]
  have hz₁ := fun j (hj : j < 6) => congrArg (fun v => v.getLsbD j) hr.1
  have hz₂ := fun j (hj : j < 7) => congrArg (fun v => v.getLsbD j) hr.2
  simp only [BitVec.getLsbD_extractLsb', BitVec.getLsbD_zero] at hz₁ hz₂
  split
  · next h => rw [leftField, BitVec.testBit_toNat, BitVec.getLsbD_extractLsb']; simp [h]
  · next h =>
    split
    · next h' =>
      rw [rightField, BitVec.testBit_toNat, BitVec.getLsbD_extractLsb']
      simp [show i - 16 < 9 by omega, show 16 + (i - 16) = i by omega]
    · next h' =>
      rcases Nat.lt_or_ge i 16 with h16 | h16
      · have := hz₂ (i - 9) (by omega)
        rwa [decide_eq_true (by omega), Bool.true_and, show 9 + (i - 9) = i by omega] at this
      · rcases Nat.lt_or_ge i 31 with h31 | h31
        · have := hz₁ (i - 25) (by omega)
          rwa [decide_eq_true (by omega), Bool.true_and, show 25 + (i - 25) = i by omega] at this
        · have : i = 31 := by omega
          subst this
          simpa [isLeafWord] using hl

theorem leftField_lt (w : Word) : leftField w < 512 := by
  have : (w.extractLsb' 0 9).toNat < 2 ^ 9 := BitVec.isLt _
  simpa [leftField] using this

theorem rightField_lt (w : Word) : rightField w < 512 := by
  have : (w.extractLsb' 16 9).toNat < 2 ^ 9 := BitVec.isLt _
  simpa [rightField] using this

end Sys2Proof.Machine
end

