-- ==== Sys2Proof/Laws/Cells.lean ====
section
/-! SUPPORT. What reading and writing storage cells does (Machine/Ops.lean), and that writing keeps the
canonical form. -/

namespace Sys2Proof.Machine

variable {α : Type}

@[simp] theorem Cells.peek_nil (i : Nat) : Cells.peek ([] : Cells α) i = none := rfl

theorem Cells.peek_append (m m' : Cells α) (i : Nat) :
    Cells.peek (m ++ m') i = (Cells.peek m i).or (Cells.peek m' i) := by
  induction m with
  | nil => rfl
  | cons c m ih =>
    obtain ⟨k, v⟩ := c
    by_cases h : k = i <;> simp [Cells.peek, h, ih]

theorem Cells.peek_filter (m : Cells α) (p : Nat → Bool) (i : Nat) :
    Cells.peek (m.filter (fun c => p c.1)) i = if p i then Cells.peek m i else none := by
  induction m with
  | nil => simp
  | cons c m ih =>
    obtain ⟨k, v⟩ := c
    by_cases hk : p k <;> by_cases h : k = i
    · subst h; simp [List.filter, Cells.peek, hk]
    · simp [List.filter, Cells.peek, hk, h, ih]
    · subst h; simp [List.filter, ih, hk]
    · simp [List.filter, Cells.peek, hk, h, ih]

theorem Cells.peek_run (base : Nat) (vs : List α) (i : Nat) :
    Cells.peek (Cells.run base vs) i = if base ≤ i then vs[i - base]? else none := by
  induction vs generalizing base with
  | nil => simp [Cells.run]
  | cons v vs ih =>
    rw [Cells.run, Cells.peek, ih]
    split
    · subst_vars; simp
    · rcases Nat.lt_or_ge i base with h | h
      · simp [Nat.not_le.2 h, show ¬base + 1 ≤ i by omega]
      · have : i - base = (i - (base + 1)) + 1 := by omega
        simp [h, show base + 1 ≤ i by omega, this]

/-- Read after write: inside the run the written value, outside it the old one (20_memory.md R64, R65). -/
theorem Cells.peek_poke (m : Cells α) (base : Nat) (vs : List α) (i : Nat) :
    (m.poke base vs).peek i = if base ≤ i ∧ i < base + vs.length then vs[i - base]? else m.peek i := by
  have h₁ := Cells.peek_filter m (fun k => decide (k < base)) i
  have h₂ := Cells.peek_filter m (fun k => decide (base + vs.length ≤ k)) i
  rw [Cells.poke, Cells.peek_append, Cells.peek_append, h₁, h₂, Cells.peek_run]
  rcases Nat.lt_or_ge i base with h | h
  · simp [h, show ¬base ≤ i by omega, show ¬base + vs.length ≤ i by omega]
  · rcases Nat.lt_or_ge i (base + vs.length) with h' | h'
    · have hk : i - base < vs.length := by omega
      simp [h, h', Nat.not_lt.2 h, List.getElem?_eq_getElem hk]
    · simp [h, h', Nat.not_lt.2 h, Nat.not_lt.2 h', List.getElem?_eq_none (show vs.length ≤ i - base by omega)]

theorem Cells.peek_poke_inside (m : Cells α) (base : Nat) (vs : List α) (k : Nat) (h : k < vs.length) :
    (m.poke base vs).peek (base + k) = some vs[k] := by
  rw [Cells.peek_poke, if_pos ⟨by omega, by omega⟩, Nat.add_sub_cancel_left, List.getElem?_eq_getElem h]

theorem Cells.peek_poke_outside (m : Cells α) (base : Nat) (vs : List α) (i : Nat)
    (h : i < base ∨ base + vs.length ≤ i) : (m.poke base vs).peek i = m.peek i := by
  rw [Cells.peek_poke, if_neg (by omega)]

@[simp] theorem Cells.peek_poke_one (m : Cells α) (base : Nat) (v : α) (i : Nat) :
    (m.poke base [v]).peek i = if i = base then some v else m.peek i := by
  by_cases h : i = base
  · subst h; simp [Cells.peek_poke]
  · rw [Cells.peek_poke_outside _ _ _ _ (by simp; omega), if_neg h]

/-! ### The canonical form -/

theorem Cells.within_cons (n lo k : Nat) (v : α) (m : Cells α) :
    Cells.within n lo ((k, v) :: m) = true ↔ lo ≤ k ∧ k < n ∧ Cells.within n (k + 1) m = true := by
  simp [Cells.within, and_assoc]

theorem Cells.within_mono {n n' lo lo' : Nat} {m : Cells α} (hn : n ≤ n') (hlo : lo' ≤ lo)
    (h : Cells.within n lo m = true) : Cells.within n' lo' m = true := by
  induction m generalizing lo lo' with
  | nil => rfl
  | cons c m ih =>
    obtain ⟨k, v⟩ := c
    rw [Cells.within_cons] at h ⊢
    exact ⟨by omega, by omega, ih (Nat.le_refl _) h.2.2⟩

/-- Every listed index lies between the bounds. -/
theorem Cells.bounds_of_within {n lo : Nat} {m : Cells α} (h : Cells.within n lo m = true) :
    ∀ c ∈ m, lo ≤ c.1 ∧ c.1 < n := by
  induction m generalizing lo with
  | nil => simp
  | cons c m ih =>
    obtain ⟨k, v⟩ := c
    rw [Cells.within_cons] at h
    intro c hc
    rcases List.mem_cons.1 hc with rfl | hc
    · exact ⟨h.1, h.2.1⟩
    · have := ih h.2.2 c hc
      omega

theorem Cells.peek_of_bounds {m : Cells α} {i : Nat} (h : ∀ c ∈ m, c.1 ≠ i) : m.peek i = none := by
  induction m with
  | nil => rfl
  | cons c m ih =>
    obtain ⟨k, v⟩ := c
    rw [Cells.peek, if_neg (h _ (List.mem_cons_self ..)), ih (fun c hc => h c (List.mem_cons_of_mem _ hc))]

theorem Cells.within_filter {n lo : Nat} {m : Cells α} (p : Nat × α → Bool)
    (h : Cells.within n lo m = true) : Cells.within n lo (m.filter p) = true := by
  induction m generalizing lo with
  | nil => rfl
  | cons c m ih =>
    obtain ⟨k, v⟩ := c
    rw [Cells.within_cons] at h
    by_cases hp : p (k, v)
    · rw [List.filter_cons_of_pos hp, Cells.within_cons]
      exact ⟨h.1, h.2.1, ih h.2.2⟩
    · rw [List.filter_cons_of_neg hp]
      exact Cells.within_mono (Nat.le_refl _) (by omega) (ih h.2.2)

/-- Two canonical pieces in order join to a canonical whole. -/
theorem Cells.within_append {n mid lo : Nat} {m m' : Cells α} (hlo : lo ≤ mid) (hmid : mid ≤ n)
    (h : Cells.within mid lo m = true) (h' : Cells.within n mid m' = true) :
    Cells.within n lo (m ++ m') = true := by
  induction m generalizing lo with
  | nil => exact Cells.within_mono (Nat.le_refl _) hlo h'
  | cons c m ih =>
    obtain ⟨k, v⟩ := c
    rw [Cells.within_cons] at h
    rw [List.cons_append, Cells.within_cons]
    exact ⟨h.1, by omega, ih (by omega) h.2.2⟩

theorem Cells.within_run (base : Nat) (vs : List α) :
    Cells.within (base + vs.length) base (Cells.run base vs) = true := by
  induction vs generalizing base with
  | nil => rfl
  | cons v vs ih =>
    rw [Cells.run, Cells.within_cons]
    refine ⟨Nat.le_refl _, by simp, ?_⟩
    have := ih (base + 1)
    rwa [show base + 1 + vs.length = base + (v :: vs).length by simp; omega] at this

theorem Cells.within_of_bounds {n lo n' lo' : Nat} {m : Cells α} (h : Cells.within n lo m = true)
    (hb : ∀ c ∈ m, lo' ≤ c.1 ∧ c.1 < n') : Cells.within n' lo' m = true := by
  induction m generalizing lo lo' with
  | nil => rfl
  | cons c m ih =>
    obtain ⟨k, v⟩ := c
    rw [Cells.within_cons] at h ⊢
    have hk := hb _ (List.mem_cons_self ..)
    refine ⟨hk.1, hk.2, ih h.2.2 (fun c hc => ?_)⟩
    exact ⟨(Cells.bounds_of_within h.2.2 c hc).1, (hb c (List.mem_cons_of_mem _ hc)).2⟩

/-- Writing a run inside the array keeps the canonical form. -/
theorem Cells.wf_poke {n base : Nat} {m : Cells α} {vs : List α} (h : Cells.wf n m = true)
    (hb : base + vs.length ≤ n) : Cells.wf n (m.poke base vs) = true := by
  have hlow : Cells.within base 0 (m.filter (fun c => decide (c.1 < base))) = true :=
    Cells.within_of_bounds (Cells.within_filter _ h) (by simp)
  have hhigh : Cells.within n (base + vs.length)
      (m.filter (fun c => decide (base + vs.length ≤ c.1))) = true := by
    refine Cells.within_of_bounds (Cells.within_filter _ h) (fun c hc => ?_)
    have := Cells.bounds_of_within h c (List.mem_of_mem_filter hc)
    simp only [List.mem_filter, decide_eq_true_eq] at hc
    omega
  exact Cells.within_append (Nat.zero_le _) hb
    (Cells.within_append (Nat.zero_le _) (by omega) hlow (Cells.within_run base vs)) hhigh

theorem Memory.wf_poke {n base : Nat} {m : Memory} {vs : List Byte} (h : Memory.wf n m = true)
    (hb : base + vs.length ≤ n) : Memory.wf n (Cells.poke m base vs) = true := Cells.wf_poke h hb

theorem Cells.wf_nil (n : Nat) : Cells.wf n ([] : Cells α) = true := rfl

/-- Outside the array nothing is listed. -/
theorem Cells.peek_beyond {n i : Nat} {m : Cells α} (h : Cells.wf n m = true) (hi : n ≤ i) :
    m.peek i = none :=
  Cells.peek_of_bounds (fun c hc => by have := Cells.bounds_of_within h c hc; omega)

/-- Canonical arrays with the same elements are the same data. -/
theorem Cells.ext_of_within {n lo : Nat} {m m' : Cells α} (h : Cells.within n lo m = true)
    (h' : Cells.within n lo m' = true) (heq : ∀ i, m.peek i = m'.peek i) : m = m' := by
  induction m generalizing lo m' with
  | nil =>
    cases m' with
    | nil => rfl
    | cons c m' => simpa [Cells.peek] using heq c.1
  | cons c m ih =>
    obtain ⟨k, v⟩ := c
    cases m' with
    | nil => simpa [Cells.peek] using heq k
    | cons c' m' =>
      obtain ⟨k', v'⟩ := c'
      rw [Cells.within_cons] at h h'
      have none_below : ∀ {j lo : Nat} {x : Cells α}, Cells.within n lo x = true → j < lo → x.peek j = none :=
        fun hx hj => Cells.peek_of_bounds (fun c hc => by have := Cells.bounds_of_within hx c hc; omega)
      have hk : k = k' := by
        rcases Nat.lt_trichotomy k k' with hlt | rfl | hgt
        · have := heq k
          simp [Cells.peek, none_below h'.2.2 (show k < k' + 1 by omega), show k' ≠ k by omega] at this
        · rfl
        · have := heq k'
          simp [Cells.peek, none_below h.2.2 (show k' < k + 1 by omega), show k ≠ k' by omega] at this
      subst hk
      have hv := heq k
      simp only [Cells.peek, if_pos, Option.some.injEq] at hv
      subst hv
      refine congrArg _ (ih h.2.2 h'.2.2 (fun i => ?_))
      by_cases hi : i < k + 1
      · rw [none_below h.2.2 hi, none_below h'.2.2 hi]
      · have := heq i
        simpa [Cells.peek, show k ≠ i by omega] using this

end Sys2Proof.Machine
end

