-- ==== Sys2Proof/Laws/Gather.lean ====
section
/-! SUPPORT. What `gather` and the element reads can answer (Machine/Ops.lean, Machine/Operands.lean). -/

namespace Sys2Proof.Machine

variable {α β : Type}

/-- `gather` succeeds exactly when every item does, and answers the results in order. -/
theorem gather_ok_iff (f : β → Except Stop α) (xs : List β) (ys : List α) :
    gather f xs = .ok ys ↔ List.Forall₂ (fun x y => f x = .ok y) xs ys := by
  induction xs generalizing ys with
  | nil => simp [gather, eq_comm]
  | cons x xs ih =>
    rw [gather]
    cases hx : f x with
    | error e => exact ⟨(by intro h; cases h), by rintro ⟨⟩; simp_all⟩
    | ok y =>
      cases hg : gather f xs with
      | error e =>
        have : ∀ ys', ¬List.Forall₂ (fun x y => f x = .ok y) xs ys' := fun ys' h' => by
          rw [← ih ys', hg] at h'; cases h'
        exact ⟨(by intro h; cases h), by rintro (_ | ⟨_, h₂⟩); exact absurd h₂ (this _)⟩
      | ok zs =>
        have hz : List.Forall₂ (fun x y => f x = .ok y) xs zs := (ih zs).1 hg
        constructor
        · rintro ⟨⟩; exact .cons hx hz
        · intro h'
          cases h' with
          | cons h₁ h₂ =>
            rw [hx] at h₁
            cases h₁
            rw [← ih, hg] at h₂
            cases h₂
            rfl

/-- When each item's answer is known, so is the whole. -/
theorem gather_eq_map (f : β → Except Stop α) (g : β → α) (xs : List β) (h : ∀ x ∈ xs, f x = .ok (g x)) :
    gather f xs = .ok (xs.map g) := by
  rw [gather_ok_iff]
  induction xs with
  | nil => exact .nil
  | cons x xs ih =>
    exact .cons (h x (List.mem_cons_self ..)) (ih (fun y hy => h y (List.mem_cons_of_mem _ hy)))

/-- `gather` stops with the error of the first item that stops. -/
theorem gather_error (f : β → Except Stop α) (xs : List β) (e : Stop) (h : gather f xs = .error e) :
    ∃ pre x post, xs = pre ++ x :: post ∧ (∀ y ∈ pre, ∃ z, f y = .ok z) ∧ f x = .error e := by
  induction xs with
  | nil => cases h
  | cons x xs ih =>
    rw [gather] at h
    cases hx : f x with
    | error e' => rw [hx] at h; cases h; exact ⟨[], x, xs, rfl, by simp, hx⟩
    | ok y =>
      rw [hx] at h
      cases hg : gather f xs with
      | ok zs => rw [hg] at h; cases h
      | error e' =>
        rw [hg] at h
        cases h
        obtain ⟨pre, x', post, rfl, hpre, he⟩ := ih hg
        refine ⟨x :: pre, x', post, rfl, fun z hz => ?_, he⟩
        rcases List.mem_cons.1 hz with rfl | hz
        · exact ⟨y, hx⟩
        · exact hpre z hz

/-- Over indices 0, 1, …, `gather` stops at the least index that stops. -/
theorem gather_range_error (f : Nat → Except Stop α) (n : Nat) (e : Stop) (h : gather f (List.range n) = .error e) :
    ∃ k, k < n ∧ (∀ j, j < k → ∃ z, f j = .ok z) ∧ f k = .error e := by
  obtain ⟨pre, x, post, hs, hpre, he⟩ := gather_error f _ e h
  have hlen : pre.length < n := by
    have := congrArg List.length hs
    simp only [List.length_range, List.length_append, List.length_cons] at this
    omega
  have hx : x = pre.length := by
    have := congrArg (fun l => l[pre.length]?) hs
    simpa [hlen] using this.symm
  refine ⟨x, hx ▸ hlen, fun j hj => hpre j ?_, he⟩
  have hj' : j < pre.length := hx ▸ hj
  have := congrArg (fun l => l[j]?) hs
  rw [List.getElem?_append_left hj', List.getElem?_range (Nat.lt_trans hj' hlen)] at this
  exact List.mem_of_getElem? this.symm

/-- When a first item stops and those before it do not, `gather` stops with its error. -/
theorem gather_stops (f : β → Except Stop α) (pre post : List β) (x : β) (e : Stop)
    (hpre : ∀ y ∈ pre, ∃ z, f y = .ok z) (hx : f x = .error e) : gather f (pre ++ x :: post) = .error e := by
  induction pre with
  | nil => simp [gather, hx]
  | cons y pre ih =>
    obtain ⟨z, hz⟩ := hpre y (List.mem_cons_self ..)
    rw [List.cons_append, gather, hz, ih (fun w hw => hpre w (List.mem_cons_of_mem _ hw))]

theorem element_ok_iff (a : ArrayName) (m : Cells α) (i : Nat) (v : α) :
    element a m i = .ok v ↔ m.peek i = some v := by
  unfold element; cases m.peek i <;> simp

theorem element_error_iff (a : ArrayName) (m : Cells α) (i : Nat) (e : Stop) :
    element a m i = .error e ↔ m.peek i = none ∧ e = .fault (.unwritten a i) := by
  unfold element; cases m.peek i <;> simp [eq_comm]

theorem readCodeBit_error (s : State) (sym : Byte) (j : Nat) (e : Stop) (h : readCodeBit s sym j = .error e) :
    s.codeImg = none ∧ ∃ k, e = .fault (.unwritten .code k) := by
  unfold readCodeBit at h
  cases hi : s.codeImg with
  | none => rw [hi] at h; cases h; exact ⟨rfl, _, rfl⟩
  | some img => rw [hi] at h; cases h

/-- CODE[s] when the images have been written. -/
theorem readCode_of_image (s : State) (sym : Byte) (img : Memory) (h : s.codeImg = some img) :
    readCode s sym = .ok ((List.range (codeEntry s sym).len.toNat).map (imageBit img sym)) :=
  gather_eq_map _ _ _ (fun j _ => by simp [readCodeBit, h])

/-- A zero-length code reads no image bit (42_bit_packer.md R152). -/
theorem readCode_of_empty (s : State) (sym : Byte) (h : (codeEntry s sym).len = 0) : readCode s sym = .ok [] := by
  simp [readCode, h, gather]

end Sys2Proof.Machine
end

