-- ==== Sys2Proof/Laws/State.lean ====
section
/-! SUPPORT. One lemma per field per update of State: what the update leaves in that field. -/

namespace Sys2Proof.Machine

variable (s : State)

/-! ### State.accept -/

@[simp] theorem State.accept_cmd (v : Word) : (s.accept v).cmd = v := rfl
@[simp] theorem State.accept_busy (v : Word) : (s.accept v).busy = true := rfl
@[simp] theorem State.accept_done (v : Word) : (s.accept v).done = false := rfl
@[simp] theorem State.accept_err (v : Word) : (s.accept v).err = false := rfl
@[simp] theorem State.accept_cmdOvr (v : Word) : (s.accept v).cmdOvr = s.cmdOvr := rfl
@[simp] theorem State.accept_wrIgn (v : Word) : (s.accept v).wrIgn = s.wrIgn := rfl
@[simp] theorem State.accept_errCode (v : Word) : (s.accept v).errCode = 0 := rfl
@[simp] theorem State.accept_errInfo (v : Word) : (s.accept v).errInfo = 0 := rfl
@[simp] theorem State.accept_ie (v : Word) : (s.accept v).ie = s.ie := rfl
@[simp] theorem State.accept_textLen (v : Word) : (s.accept v).textLen = s.textLen := rfl
@[simp] theorem State.accept_payloadLen (v : Word) : (s.accept v).payloadLen = s.payloadLen := rfl
@[simp] theorem State.accept_bitLen (v : Word) : (s.accept v).bitLen = s.bitLen := rfl
@[simp] theorem State.accept_outLen (v : Word) : (s.accept v).outLen = s.outLen := rfl
@[simp] theorem State.accept_treeCount (v : Word) : (s.accept v).treeCount = s.treeCount := rfl
@[simp] theorem State.accept_root (v : Word) : (s.accept v).root = s.root := rfl
@[simp] theorem State.accept_freq (v : Word) : (s.accept v).freq = s.freq := rfl
@[simp] theorem State.accept_node (v : Word) : (s.accept v).node = s.node := rfl
@[simp] theorem State.accept_nodeFreq (v : Word) : (s.accept v).nodeFreq = s.nodeFreq := rfl
@[simp] theorem State.accept_codeTab (v : Word) : (s.accept v).codeTab = s.codeTab := rfl
@[simp] theorem State.accept_codeImg (v : Word) : (s.accept v).codeImg = s.codeImg := rfl
@[simp] theorem State.accept_textIn (v : Word) : (s.accept v).textIn = s.textIn := rfl
@[simp] theorem State.accept_payload (v : Word) : (s.accept v).payload = s.payload := rfl
@[simp] theorem State.accept_bitbuf (v : Word) : (s.accept v).bitbuf = s.bitbuf := rfl
@[simp] theorem State.accept_textOut (v : Word) : (s.accept v).textOut = s.textOut := rfl
@[simp] theorem State.accept_inputs (v : Word) : (s.accept v).inputs = s.inputs := rfl
@[simp] theorem State.accept_responses (v : Word) : (s.accept v).responses = s.responses := rfl
@[simp] theorem State.accept_draws (v : Word) : (s.accept v).draws = s.draws := rfl
@[simp] theorem State.accept_ramDraw (v : Word) : (s.accept v).ramDraw = s.ramDraw := rfl
@[simp] theorem State.accept_outDraw (v : Word) : (s.accept v).outDraw = s.outDraw := rfl

/-! ### State.succeed -/

@[simp] theorem State.succeed_cmd : (s.succeed).cmd = s.cmd := rfl
@[simp] theorem State.succeed_busy : (s.succeed).busy = false := rfl
@[simp] theorem State.succeed_done : (s.succeed).done = true := rfl
@[simp] theorem State.succeed_err : (s.succeed).err = s.err := rfl
@[simp] theorem State.succeed_cmdOvr : (s.succeed).cmdOvr = s.cmdOvr := rfl
@[simp] theorem State.succeed_wrIgn : (s.succeed).wrIgn = s.wrIgn := rfl
@[simp] theorem State.succeed_errCode : (s.succeed).errCode = s.errCode := rfl
@[simp] theorem State.succeed_errInfo : (s.succeed).errInfo = s.errInfo := rfl
@[simp] theorem State.succeed_ie : (s.succeed).ie = s.ie := rfl
@[simp] theorem State.succeed_textLen : (s.succeed).textLen = s.textLen := rfl
@[simp] theorem State.succeed_payloadLen : (s.succeed).payloadLen = s.payloadLen := rfl
@[simp] theorem State.succeed_bitLen : (s.succeed).bitLen = s.bitLen := rfl
@[simp] theorem State.succeed_outLen : (s.succeed).outLen = s.outLen := rfl
@[simp] theorem State.succeed_treeCount : (s.succeed).treeCount = s.treeCount := rfl
@[simp] theorem State.succeed_root : (s.succeed).root = s.root := rfl
@[simp] theorem State.succeed_freq : (s.succeed).freq = s.freq := rfl
@[simp] theorem State.succeed_node : (s.succeed).node = s.node := rfl
@[simp] theorem State.succeed_nodeFreq : (s.succeed).nodeFreq = s.nodeFreq := rfl
@[simp] theorem State.succeed_codeTab : (s.succeed).codeTab = s.codeTab := rfl
@[simp] theorem State.succeed_codeImg : (s.succeed).codeImg = s.codeImg := rfl
@[simp] theorem State.succeed_textIn : (s.succeed).textIn = s.textIn := rfl
@[simp] theorem State.succeed_payload : (s.succeed).payload = s.payload := rfl
@[simp] theorem State.succeed_bitbuf : (s.succeed).bitbuf = s.bitbuf := rfl
@[simp] theorem State.succeed_textOut : (s.succeed).textOut = s.textOut := rfl
@[simp] theorem State.succeed_inputs : (s.succeed).inputs = s.inputs := rfl
@[simp] theorem State.succeed_responses : (s.succeed).responses = s.responses := rfl
@[simp] theorem State.succeed_draws : (s.succeed).draws = s.draws := rfl
@[simp] theorem State.succeed_ramDraw : (s.succeed).ramDraw = s.ramDraw := rfl
@[simp] theorem State.succeed_outDraw : (s.succeed).outDraw = s.outDraw := rfl

/-! ### State.raise -/

@[simp] theorem State.raise_cmd (e : ErrorKind) (info : Word) : (s.raise e info).cmd = s.cmd := rfl
@[simp] theorem State.raise_busy (e : ErrorKind) (info : Word) : (s.raise e info).busy = false := rfl
@[simp] theorem State.raise_done (e : ErrorKind) (info : Word) : (s.raise e info).done = false := rfl
@[simp] theorem State.raise_err (e : ErrorKind) (info : Word) : (s.raise e info).err = true := rfl
@[simp] theorem State.raise_cmdOvr (e : ErrorKind) (info : Word) : (s.raise e info).cmdOvr = s.cmdOvr := rfl
@[simp] theorem State.raise_wrIgn (e : ErrorKind) (info : Word) : (s.raise e info).wrIgn = s.wrIgn := rfl
@[simp] theorem State.raise_errCode (e : ErrorKind) (info : Word) : (s.raise e info).errCode = errorCode e := rfl
@[simp] theorem State.raise_errInfo (e : ErrorKind) (info : Word) : (s.raise e info).errInfo = info := rfl
@[simp] theorem State.raise_ie (e : ErrorKind) (info : Word) : (s.raise e info).ie = s.ie := rfl
@[simp] theorem State.raise_textLen (e : ErrorKind) (info : Word) : (s.raise e info).textLen = s.textLen := rfl
@[simp] theorem State.raise_payloadLen (e : ErrorKind) (info : Word) : (s.raise e info).payloadLen = s.payloadLen := rfl
@[simp] theorem State.raise_bitLen (e : ErrorKind) (info : Word) : (s.raise e info).bitLen = s.bitLen := rfl
@[simp] theorem State.raise_outLen (e : ErrorKind) (info : Word) : (s.raise e info).outLen = s.outLen := rfl
@[simp] theorem State.raise_treeCount (e : ErrorKind) (info : Word) : (s.raise e info).treeCount = s.treeCount := rfl
@[simp] theorem State.raise_root (e : ErrorKind) (info : Word) : (s.raise e info).root = s.root := rfl
@[simp] theorem State.raise_freq (e : ErrorKind) (info : Word) : (s.raise e info).freq = s.freq := rfl
@[simp] theorem State.raise_node (e : ErrorKind) (info : Word) : (s.raise e info).node = s.node := rfl
@[simp] theorem State.raise_nodeFreq (e : ErrorKind) (info : Word) : (s.raise e info).nodeFreq = s.nodeFreq := rfl
@[simp] theorem State.raise_codeTab (e : ErrorKind) (info : Word) : (s.raise e info).codeTab = s.codeTab := rfl
@[simp] theorem State.raise_codeImg (e : ErrorKind) (info : Word) : (s.raise e info).codeImg = s.codeImg := rfl
@[simp] theorem State.raise_textIn (e : ErrorKind) (info : Word) : (s.raise e info).textIn = s.textIn := rfl
@[simp] theorem State.raise_payload (e : ErrorKind) (info : Word) : (s.raise e info).payload = s.payload := rfl
@[simp] theorem State.raise_bitbuf (e : ErrorKind) (info : Word) : (s.raise e info).bitbuf = s.bitbuf := rfl
@[simp] theorem State.raise_textOut (e : ErrorKind) (info : Word) : (s.raise e info).textOut = s.textOut := rfl
@[simp] theorem State.raise_inputs (e : ErrorKind) (info : Word) : (s.raise e info).inputs = s.inputs := rfl
@[simp] theorem State.raise_responses (e : ErrorKind) (info : Word) : (s.raise e info).responses = s.responses := rfl
@[simp] theorem State.raise_draws (e : ErrorKind) (info : Word) : (s.raise e info).draws = s.draws := rfl
@[simp] theorem State.raise_ramDraw (e : ErrorKind) (info : Word) : (s.raise e info).ramDraw = s.ramDraw := rfl
@[simp] theorem State.raise_outDraw (e : ErrorKind) (info : Word) : (s.raise e info).outDraw = s.outDraw := rfl

/-! ### State.loseTextOut -/

@[simp] theorem State.loseTextOut_cmd : (s.loseTextOut).cmd = s.cmd := rfl
@[simp] theorem State.loseTextOut_busy : (s.loseTextOut).busy = s.busy := rfl
@[simp] theorem State.loseTextOut_done : (s.loseTextOut).done = s.done := rfl
@[simp] theorem State.loseTextOut_err : (s.loseTextOut).err = s.err := rfl
@[simp] theorem State.loseTextOut_cmdOvr : (s.loseTextOut).cmdOvr = s.cmdOvr := rfl
@[simp] theorem State.loseTextOut_wrIgn : (s.loseTextOut).wrIgn = s.wrIgn := rfl
@[simp] theorem State.loseTextOut_errCode : (s.loseTextOut).errCode = s.errCode := rfl
@[simp] theorem State.loseTextOut_errInfo : (s.loseTextOut).errInfo = s.errInfo := rfl
@[simp] theorem State.loseTextOut_ie : (s.loseTextOut).ie = s.ie := rfl
@[simp] theorem State.loseTextOut_textLen : (s.loseTextOut).textLen = s.textLen := rfl
@[simp] theorem State.loseTextOut_payloadLen : (s.loseTextOut).payloadLen = s.payloadLen := rfl
@[simp] theorem State.loseTextOut_bitLen : (s.loseTextOut).bitLen = s.bitLen := rfl
@[simp] theorem State.loseTextOut_outLen : (s.loseTextOut).outLen = 0 := rfl
@[simp] theorem State.loseTextOut_treeCount : (s.loseTextOut).treeCount = s.treeCount := rfl
@[simp] theorem State.loseTextOut_root : (s.loseTextOut).root = s.root := rfl
@[simp] theorem State.loseTextOut_freq : (s.loseTextOut).freq = s.freq := rfl
@[simp] theorem State.loseTextOut_node : (s.loseTextOut).node = s.node := rfl
@[simp] theorem State.loseTextOut_nodeFreq : (s.loseTextOut).nodeFreq = s.nodeFreq := rfl
@[simp] theorem State.loseTextOut_codeTab : (s.loseTextOut).codeTab = s.codeTab := rfl
@[simp] theorem State.loseTextOut_codeImg : (s.loseTextOut).codeImg = s.codeImg := rfl
@[simp] theorem State.loseTextOut_textIn : (s.loseTextOut).textIn = s.textIn := rfl
@[simp] theorem State.loseTextOut_payload : (s.loseTextOut).payload = s.payload := rfl
@[simp] theorem State.loseTextOut_bitbuf : (s.loseTextOut).bitbuf = s.bitbuf := rfl
@[simp] theorem State.loseTextOut_textOut : (s.loseTextOut).textOut = [] := rfl
@[simp] theorem State.loseTextOut_inputs : (s.loseTextOut).inputs = s.inputs := rfl
@[simp] theorem State.loseTextOut_responses : (s.loseTextOut).responses = s.responses := rfl
@[simp] theorem State.loseTextOut_draws : (s.loseTextOut).draws = s.draws + 1 := rfl
@[simp] theorem State.loseTextOut_ramDraw : (s.loseTextOut).ramDraw = s.ramDraw := rfl
@[simp] theorem State.loseTextOut_outDraw : (s.loseTextOut).outDraw = s.draws := rfl

/-! ### State.ackStatus -/

@[simp] theorem State.ackStatus_cmd (v : Word) : (s.ackStatus v).cmd = s.cmd := rfl
@[simp] theorem State.ackStatus_busy (v : Word) : (s.ackStatus v).busy = s.busy := rfl
@[simp] theorem State.ackStatus_done (v : Word) : (s.ackStatus v).done = (s.done && !v.getLsbD 1) := rfl
@[simp] theorem State.ackStatus_err (v : Word) : (s.ackStatus v).err = (s.err && !v.getLsbD 2) := rfl
@[simp] theorem State.ackStatus_cmdOvr (v : Word) : (s.ackStatus v).cmdOvr = (s.cmdOvr && !v.getLsbD 3) := rfl
@[simp] theorem State.ackStatus_wrIgn (v : Word) : (s.ackStatus v).wrIgn = (s.wrIgn && !v.getLsbD 4) := rfl
@[simp] theorem State.ackStatus_errCode (v : Word) : (s.ackStatus v).errCode = if v.getLsbD 2 then 0 else s.errCode := rfl
@[simp] theorem State.ackStatus_errInfo (v : Word) : (s.ackStatus v).errInfo = s.errInfo := rfl
@[simp] theorem State.ackStatus_ie (v : Word) : (s.ackStatus v).ie = s.ie := rfl
@[simp] theorem State.ackStatus_textLen (v : Word) : (s.ackStatus v).textLen = s.textLen := rfl
@[simp] theorem State.ackStatus_payloadLen (v : Word) : (s.ackStatus v).payloadLen = s.payloadLen := rfl
@[simp] theorem State.ackStatus_bitLen (v : Word) : (s.ackStatus v).bitLen = s.bitLen := rfl
@[simp] theorem State.ackStatus_outLen (v : Word) : (s.ackStatus v).outLen = s.outLen := rfl
@[simp] theorem State.ackStatus_treeCount (v : Word) : (s.ackStatus v).treeCount = s.treeCount := rfl
@[simp] theorem State.ackStatus_root (v : Word) : (s.ackStatus v).root = s.root := rfl
@[simp] theorem State.ackStatus_freq (v : Word) : (s.ackStatus v).freq = s.freq := rfl
@[simp] theorem State.ackStatus_node (v : Word) : (s.ackStatus v).node = s.node := rfl
@[simp] theorem State.ackStatus_nodeFreq (v : Word) : (s.ackStatus v).nodeFreq = s.nodeFreq := rfl
@[simp] theorem State.ackStatus_codeTab (v : Word) : (s.ackStatus v).codeTab = s.codeTab := rfl
@[simp] theorem State.ackStatus_codeImg (v : Word) : (s.ackStatus v).codeImg = s.codeImg := rfl
@[simp] theorem State.ackStatus_textIn (v : Word) : (s.ackStatus v).textIn = s.textIn := rfl
@[simp] theorem State.ackStatus_payload (v : Word) : (s.ackStatus v).payload = s.payload := rfl
@[simp] theorem State.ackStatus_bitbuf (v : Word) : (s.ackStatus v).bitbuf = s.bitbuf := rfl
@[simp] theorem State.ackStatus_textOut (v : Word) : (s.ackStatus v).textOut = s.textOut := rfl
@[simp] theorem State.ackStatus_inputs (v : Word) : (s.ackStatus v).inputs = s.inputs := rfl
@[simp] theorem State.ackStatus_responses (v : Word) : (s.ackStatus v).responses = s.responses := rfl
@[simp] theorem State.ackStatus_draws (v : Word) : (s.ackStatus v).draws = s.draws := rfl
@[simp] theorem State.ackStatus_ramDraw (v : Word) : (s.ackStatus v).ramDraw = s.ramDraw := rfl
@[simp] theorem State.ackStatus_outDraw (v : Word) : (s.ackStatus v).outDraw = s.outDraw := rfl

/-! ### State.withInputs -/

@[simp] theorem State.withInputs_cmd (rest : List Input) : (s.withInputs rest).cmd = s.cmd := rfl
@[simp] theorem State.withInputs_busy (rest : List Input) : (s.withInputs rest).busy = s.busy := rfl
@[simp] theorem State.withInputs_done (rest : List Input) : (s.withInputs rest).done = s.done := rfl
@[simp] theorem State.withInputs_err (rest : List Input) : (s.withInputs rest).err = s.err := rfl
@[simp] theorem State.withInputs_cmdOvr (rest : List Input) : (s.withInputs rest).cmdOvr = s.cmdOvr := rfl
@[simp] theorem State.withInputs_wrIgn (rest : List Input) : (s.withInputs rest).wrIgn = s.wrIgn := rfl
@[simp] theorem State.withInputs_errCode (rest : List Input) : (s.withInputs rest).errCode = s.errCode := rfl
@[simp] theorem State.withInputs_errInfo (rest : List Input) : (s.withInputs rest).errInfo = s.errInfo := rfl
@[simp] theorem State.withInputs_ie (rest : List Input) : (s.withInputs rest).ie = s.ie := rfl
@[simp] theorem State.withInputs_textLen (rest : List Input) : (s.withInputs rest).textLen = s.textLen := rfl
@[simp] theorem State.withInputs_payloadLen (rest : List Input) : (s.withInputs rest).payloadLen = s.payloadLen := rfl
@[simp] theorem State.withInputs_bitLen (rest : List Input) : (s.withInputs rest).bitLen = s.bitLen := rfl
@[simp] theorem State.withInputs_outLen (rest : List Input) : (s.withInputs rest).outLen = s.outLen := rfl
@[simp] theorem State.withInputs_treeCount (rest : List Input) : (s.withInputs rest).treeCount = s.treeCount := rfl
@[simp] theorem State.withInputs_root (rest : List Input) : (s.withInputs rest).root = s.root := rfl
@[simp] theorem State.withInputs_freq (rest : List Input) : (s.withInputs rest).freq = s.freq := rfl
@[simp] theorem State.withInputs_node (rest : List Input) : (s.withInputs rest).node = s.node := rfl
@[simp] theorem State.withInputs_nodeFreq (rest : List Input) : (s.withInputs rest).nodeFreq = s.nodeFreq := rfl
@[simp] theorem State.withInputs_codeTab (rest : List Input) : (s.withInputs rest).codeTab = s.codeTab := rfl
@[simp] theorem State.withInputs_codeImg (rest : List Input) : (s.withInputs rest).codeImg = s.codeImg := rfl
@[simp] theorem State.withInputs_textIn (rest : List Input) : (s.withInputs rest).textIn = s.textIn := rfl
@[simp] theorem State.withInputs_payload (rest : List Input) : (s.withInputs rest).payload = s.payload := rfl
@[simp] theorem State.withInputs_bitbuf (rest : List Input) : (s.withInputs rest).bitbuf = s.bitbuf := rfl
@[simp] theorem State.withInputs_textOut (rest : List Input) : (s.withInputs rest).textOut = s.textOut := rfl
@[simp] theorem State.withInputs_inputs (rest : List Input) : (s.withInputs rest).inputs = rest := rfl
@[simp] theorem State.withInputs_responses (rest : List Input) : (s.withInputs rest).responses = s.responses := rfl
@[simp] theorem State.withInputs_draws (rest : List Input) : (s.withInputs rest).draws = s.draws := rfl
@[simp] theorem State.withInputs_ramDraw (rest : List Input) : (s.withInputs rest).ramDraw = s.ramDraw := rfl
@[simp] theorem State.withInputs_outDraw (rest : List Input) : (s.withInputs rest).outDraw = s.outDraw := rfl

/-! ### State.respond -/

@[simp] theorem State.respond_cmd (r : Response) : (s.respond r).cmd = s.cmd := rfl
@[simp] theorem State.respond_busy (r : Response) : (s.respond r).busy = s.busy := rfl
@[simp] theorem State.respond_done (r : Response) : (s.respond r).done = s.done := rfl
@[simp] theorem State.respond_err (r : Response) : (s.respond r).err = s.err := rfl
@[simp] theorem State.respond_cmdOvr (r : Response) : (s.respond r).cmdOvr = s.cmdOvr := rfl
@[simp] theorem State.respond_wrIgn (r : Response) : (s.respond r).wrIgn = s.wrIgn := rfl
@[simp] theorem State.respond_errCode (r : Response) : (s.respond r).errCode = s.errCode := rfl
@[simp] theorem State.respond_errInfo (r : Response) : (s.respond r).errInfo = s.errInfo := rfl
@[simp] theorem State.respond_ie (r : Response) : (s.respond r).ie = s.ie := rfl
@[simp] theorem State.respond_textLen (r : Response) : (s.respond r).textLen = s.textLen := rfl
@[simp] theorem State.respond_payloadLen (r : Response) : (s.respond r).payloadLen = s.payloadLen := rfl
@[simp] theorem State.respond_bitLen (r : Response) : (s.respond r).bitLen = s.bitLen := rfl
@[simp] theorem State.respond_outLen (r : Response) : (s.respond r).outLen = s.outLen := rfl
@[simp] theorem State.respond_treeCount (r : Response) : (s.respond r).treeCount = s.treeCount := rfl
@[simp] theorem State.respond_root (r : Response) : (s.respond r).root = s.root := rfl
@[simp] theorem State.respond_freq (r : Response) : (s.respond r).freq = s.freq := rfl
@[simp] theorem State.respond_node (r : Response) : (s.respond r).node = s.node := rfl
@[simp] theorem State.respond_nodeFreq (r : Response) : (s.respond r).nodeFreq = s.nodeFreq := rfl
@[simp] theorem State.respond_codeTab (r : Response) : (s.respond r).codeTab = s.codeTab := rfl
@[simp] theorem State.respond_codeImg (r : Response) : (s.respond r).codeImg = s.codeImg := rfl
@[simp] theorem State.respond_textIn (r : Response) : (s.respond r).textIn = s.textIn := rfl
@[simp] theorem State.respond_payload (r : Response) : (s.respond r).payload = s.payload := rfl
@[simp] theorem State.respond_bitbuf (r : Response) : (s.respond r).bitbuf = s.bitbuf := rfl
@[simp] theorem State.respond_textOut (r : Response) : (s.respond r).textOut = s.textOut := rfl
@[simp] theorem State.respond_inputs (r : Response) : (s.respond r).inputs = s.inputs := rfl
@[simp] theorem State.respond_responses (r : Response) : (s.respond r).responses = r :: s.responses := rfl
@[simp] theorem State.respond_draws (r : Response) : (s.respond r).draws = s.draws := rfl
@[simp] theorem State.respond_ramDraw (r : Response) : (s.respond r).ramDraw = s.ramDraw := rfl
@[simp] theorem State.respond_outDraw (r : Response) : (s.respond r).outDraw = s.outDraw := rfl

/-! ### State.drawn -/

@[simp] theorem State.drawn_cmd : (s.drawn).cmd = s.cmd := rfl
@[simp] theorem State.drawn_busy : (s.drawn).busy = s.busy := rfl
@[simp] theorem State.drawn_done : (s.drawn).done = s.done := rfl
@[simp] theorem State.drawn_err : (s.drawn).err = s.err := rfl
@[simp] theorem State.drawn_cmdOvr : (s.drawn).cmdOvr = s.cmdOvr := rfl
@[simp] theorem State.drawn_wrIgn : (s.drawn).wrIgn = s.wrIgn := rfl
@[simp] theorem State.drawn_errCode : (s.drawn).errCode = s.errCode := rfl
@[simp] theorem State.drawn_errInfo : (s.drawn).errInfo = s.errInfo := rfl
@[simp] theorem State.drawn_ie : (s.drawn).ie = s.ie := rfl
@[simp] theorem State.drawn_textLen : (s.drawn).textLen = s.textLen := rfl
@[simp] theorem State.drawn_payloadLen : (s.drawn).payloadLen = s.payloadLen := rfl
@[simp] theorem State.drawn_bitLen : (s.drawn).bitLen = s.bitLen := rfl
@[simp] theorem State.drawn_outLen : (s.drawn).outLen = s.outLen := rfl
@[simp] theorem State.drawn_treeCount : (s.drawn).treeCount = s.treeCount := rfl
@[simp] theorem State.drawn_root : (s.drawn).root = s.root := rfl
@[simp] theorem State.drawn_freq : (s.drawn).freq = s.freq := rfl
@[simp] theorem State.drawn_node : (s.drawn).node = s.node := rfl
@[simp] theorem State.drawn_nodeFreq : (s.drawn).nodeFreq = s.nodeFreq := rfl
@[simp] theorem State.drawn_codeTab : (s.drawn).codeTab = s.codeTab := rfl
@[simp] theorem State.drawn_codeImg : (s.drawn).codeImg = s.codeImg := rfl
@[simp] theorem State.drawn_textIn : (s.drawn).textIn = s.textIn := rfl
@[simp] theorem State.drawn_payload : (s.drawn).payload = s.payload := rfl
@[simp] theorem State.drawn_bitbuf : (s.drawn).bitbuf = s.bitbuf := rfl
@[simp] theorem State.drawn_textOut : (s.drawn).textOut = s.textOut := rfl
@[simp] theorem State.drawn_inputs : (s.drawn).inputs = s.inputs := rfl
@[simp] theorem State.drawn_responses : (s.drawn).responses = s.responses := rfl
@[simp] theorem State.drawn_draws : (s.drawn).draws = s.draws + 1 := rfl
@[simp] theorem State.drawn_ramDraw : (s.drawn).ramDraw = s.ramDraw := rfl
@[simp] theorem State.drawn_outDraw : (s.drawn).outDraw = s.outDraw := rfl

/-! ### State.writeTree -/

@[simp] theorem State.writeTree_cmd (t : BuiltTree) : (s.writeTree t).cmd = s.cmd := rfl
@[simp] theorem State.writeTree_busy (t : BuiltTree) : (s.writeTree t).busy = s.busy := rfl
@[simp] theorem State.writeTree_done (t : BuiltTree) : (s.writeTree t).done = s.done := rfl
@[simp] theorem State.writeTree_err (t : BuiltTree) : (s.writeTree t).err = s.err := rfl
@[simp] theorem State.writeTree_cmdOvr (t : BuiltTree) : (s.writeTree t).cmdOvr = s.cmdOvr := rfl
@[simp] theorem State.writeTree_wrIgn (t : BuiltTree) : (s.writeTree t).wrIgn = s.wrIgn := rfl
@[simp] theorem State.writeTree_errCode (t : BuiltTree) : (s.writeTree t).errCode = s.errCode := rfl
@[simp] theorem State.writeTree_errInfo (t : BuiltTree) : (s.writeTree t).errInfo = s.errInfo := rfl
@[simp] theorem State.writeTree_ie (t : BuiltTree) : (s.writeTree t).ie = s.ie := rfl
@[simp] theorem State.writeTree_textLen (t : BuiltTree) : (s.writeTree t).textLen = s.textLen := rfl
@[simp] theorem State.writeTree_payloadLen (t : BuiltTree) : (s.writeTree t).payloadLen = s.payloadLen := rfl
@[simp] theorem State.writeTree_bitLen (t : BuiltTree) : (s.writeTree t).bitLen = s.bitLen := rfl
@[simp] theorem State.writeTree_outLen (t : BuiltTree) : (s.writeTree t).outLen = s.outLen := rfl
@[simp] theorem State.writeTree_treeCount (t : BuiltTree) : (s.writeTree t).treeCount = t.count := rfl
@[simp] theorem State.writeTree_root (t : BuiltTree) : (s.writeTree t).root = t.root := rfl
@[simp] theorem State.writeTree_freq (t : BuiltTree) : (s.writeTree t).freq = s.freq := rfl
@[simp] theorem State.writeTree_node (t : BuiltTree) : (s.writeTree t).node = s.node.poke 0 t.words := rfl
@[simp] theorem State.writeTree_nodeFreq (t : BuiltTree) : (s.writeTree t).nodeFreq = s.nodeFreq.poke 0 t.freqs := rfl
@[simp] theorem State.writeTree_codeTab (t : BuiltTree) : (s.writeTree t).codeTab = s.codeTab := rfl
@[simp] theorem State.writeTree_codeImg (t : BuiltTree) : (s.writeTree t).codeImg = s.codeImg := rfl
@[simp] theorem State.writeTree_textIn (t : BuiltTree) : (s.writeTree t).textIn = s.textIn := rfl
@[simp] theorem State.writeTree_payload (t : BuiltTree) : (s.writeTree t).payload = s.payload := rfl
@[simp] theorem State.writeTree_bitbuf (t : BuiltTree) : (s.writeTree t).bitbuf = s.bitbuf := rfl
@[simp] theorem State.writeTree_textOut (t : BuiltTree) : (s.writeTree t).textOut = s.textOut := rfl
@[simp] theorem State.writeTree_inputs (t : BuiltTree) : (s.writeTree t).inputs = s.inputs := rfl
@[simp] theorem State.writeTree_responses (t : BuiltTree) : (s.writeTree t).responses = s.responses := rfl
@[simp] theorem State.writeTree_draws (t : BuiltTree) : (s.writeTree t).draws = s.draws := rfl
@[simp] theorem State.writeTree_ramDraw (t : BuiltTree) : (s.writeTree t).ramDraw = s.ramDraw := rfl
@[simp] theorem State.writeTree_outDraw (t : BuiltTree) : (s.writeTree t).outDraw = s.outDraw := rfl

/-! ### State.writeCodes -/

@[simp] theorem State.writeCodes_cmd (codes : List (Byte × List Bool)) : (s.writeCodes codes).cmd = s.cmd := rfl
@[simp] theorem State.writeCodes_busy (codes : List (Byte × List Bool)) : (s.writeCodes codes).busy = s.busy := rfl
@[simp] theorem State.writeCodes_done (codes : List (Byte × List Bool)) : (s.writeCodes codes).done = s.done := rfl
@[simp] theorem State.writeCodes_err (codes : List (Byte × List Bool)) : (s.writeCodes codes).err = s.err := rfl
@[simp] theorem State.writeCodes_cmdOvr (codes : List (Byte × List Bool)) : (s.writeCodes codes).cmdOvr = s.cmdOvr := rfl
@[simp] theorem State.writeCodes_wrIgn (codes : List (Byte × List Bool)) : (s.writeCodes codes).wrIgn = s.wrIgn := rfl
@[simp] theorem State.writeCodes_errCode (codes : List (Byte × List Bool)) : (s.writeCodes codes).errCode = s.errCode := rfl
@[simp] theorem State.writeCodes_errInfo (codes : List (Byte × List Bool)) : (s.writeCodes codes).errInfo = s.errInfo := rfl
@[simp] theorem State.writeCodes_ie (codes : List (Byte × List Bool)) : (s.writeCodes codes).ie = s.ie := rfl
@[simp] theorem State.writeCodes_textLen (codes : List (Byte × List Bool)) : (s.writeCodes codes).textLen = s.textLen := rfl
@[simp] theorem State.writeCodes_payloadLen (codes : List (Byte × List Bool)) : (s.writeCodes codes).payloadLen = s.payloadLen := rfl
@[simp] theorem State.writeCodes_bitLen (codes : List (Byte × List Bool)) : (s.writeCodes codes).bitLen = s.bitLen := rfl
@[simp] theorem State.writeCodes_outLen (codes : List (Byte × List Bool)) : (s.writeCodes codes).outLen = s.outLen := rfl
@[simp] theorem State.writeCodes_treeCount (codes : List (Byte × List Bool)) : (s.writeCodes codes).treeCount = s.treeCount := rfl
@[simp] theorem State.writeCodes_root (codes : List (Byte × List Bool)) : (s.writeCodes codes).root = s.root := rfl
@[simp] theorem State.writeCodes_freq (codes : List (Byte × List Bool)) : (s.writeCodes codes).freq = s.freq := rfl
@[simp] theorem State.writeCodes_node (codes : List (Byte × List Bool)) : (s.writeCodes codes).node = s.node := rfl
@[simp] theorem State.writeCodes_nodeFreq (codes : List (Byte × List Bool)) : (s.writeCodes codes).nodeFreq = s.nodeFreq := rfl
@[simp] theorem State.writeCodes_codeTab (codes : List (Byte × List Bool)) : (s.writeCodes codes).codeTab = codeTable codes := rfl
@[simp] theorem State.writeCodes_codeImg (codes : List (Byte × List Bool)) : (s.writeCodes codes).codeImg = some (codeImages codes) := rfl
@[simp] theorem State.writeCodes_textIn (codes : List (Byte × List Bool)) : (s.writeCodes codes).textIn = s.textIn := rfl
@[simp] theorem State.writeCodes_payload (codes : List (Byte × List Bool)) : (s.writeCodes codes).payload = s.payload := rfl
@[simp] theorem State.writeCodes_bitbuf (codes : List (Byte × List Bool)) : (s.writeCodes codes).bitbuf = s.bitbuf := rfl
@[simp] theorem State.writeCodes_textOut (codes : List (Byte × List Bool)) : (s.writeCodes codes).textOut = s.textOut := rfl
@[simp] theorem State.writeCodes_inputs (codes : List (Byte × List Bool)) : (s.writeCodes codes).inputs = s.inputs := rfl
@[simp] theorem State.writeCodes_responses (codes : List (Byte × List Bool)) : (s.writeCodes codes).responses = s.responses := rfl
@[simp] theorem State.writeCodes_draws (codes : List (Byte × List Bool)) : (s.writeCodes codes).draws = s.draws := rfl
@[simp] theorem State.writeCodes_ramDraw (codes : List (Byte × List Bool)) : (s.writeCodes codes).ramDraw = s.ramDraw := rfl
@[simp] theorem State.writeCodes_outDraw (codes : List (Byte × List Bool)) : (s.writeCodes codes).outDraw = s.outDraw := rfl

/-! ### State.writePayload -/

@[simp] theorem State.writePayload_cmd (bytes : List Byte) : (s.writePayload bytes).cmd = s.cmd := rfl
@[simp] theorem State.writePayload_busy (bytes : List Byte) : (s.writePayload bytes).busy = s.busy := rfl
@[simp] theorem State.writePayload_done (bytes : List Byte) : (s.writePayload bytes).done = s.done := rfl
@[simp] theorem State.writePayload_err (bytes : List Byte) : (s.writePayload bytes).err = s.err := rfl
@[simp] theorem State.writePayload_cmdOvr (bytes : List Byte) : (s.writePayload bytes).cmdOvr = s.cmdOvr := rfl
@[simp] theorem State.writePayload_wrIgn (bytes : List Byte) : (s.writePayload bytes).wrIgn = s.wrIgn := rfl
@[simp] theorem State.writePayload_errCode (bytes : List Byte) : (s.writePayload bytes).errCode = s.errCode := rfl
@[simp] theorem State.writePayload_errInfo (bytes : List Byte) : (s.writePayload bytes).errInfo = s.errInfo := rfl
@[simp] theorem State.writePayload_ie (bytes : List Byte) : (s.writePayload bytes).ie = s.ie := rfl
@[simp] theorem State.writePayload_textLen (bytes : List Byte) : (s.writePayload bytes).textLen = s.textLen := rfl
@[simp] theorem State.writePayload_payloadLen (bytes : List Byte) : (s.writePayload bytes).payloadLen = BitVec.ofNat 32 bytes.length := rfl
@[simp] theorem State.writePayload_bitLen (bytes : List Byte) : (s.writePayload bytes).bitLen = s.bitLen := rfl
@[simp] theorem State.writePayload_outLen (bytes : List Byte) : (s.writePayload bytes).outLen = s.outLen := rfl
@[simp] theorem State.writePayload_treeCount (bytes : List Byte) : (s.writePayload bytes).treeCount = s.treeCount := rfl
@[simp] theorem State.writePayload_root (bytes : List Byte) : (s.writePayload bytes).root = s.root := rfl
@[simp] theorem State.writePayload_freq (bytes : List Byte) : (s.writePayload bytes).freq = s.freq := rfl
@[simp] theorem State.writePayload_node (bytes : List Byte) : (s.writePayload bytes).node = s.node := rfl
@[simp] theorem State.writePayload_nodeFreq (bytes : List Byte) : (s.writePayload bytes).nodeFreq = s.nodeFreq := rfl
@[simp] theorem State.writePayload_codeTab (bytes : List Byte) : (s.writePayload bytes).codeTab = s.codeTab := rfl
@[simp] theorem State.writePayload_codeImg (bytes : List Byte) : (s.writePayload bytes).codeImg = s.codeImg := rfl
@[simp] theorem State.writePayload_textIn (bytes : List Byte) : (s.writePayload bytes).textIn = s.textIn := rfl
@[simp] theorem State.writePayload_payload (bytes : List Byte) : (s.writePayload bytes).payload = Cells.poke s.payload 0 bytes := rfl
@[simp] theorem State.writePayload_bitbuf (bytes : List Byte) : (s.writePayload bytes).bitbuf = s.bitbuf := rfl
@[simp] theorem State.writePayload_textOut (bytes : List Byte) : (s.writePayload bytes).textOut = s.textOut := rfl
@[simp] theorem State.writePayload_inputs (bytes : List Byte) : (s.writePayload bytes).inputs = s.inputs := rfl
@[simp] theorem State.writePayload_responses (bytes : List Byte) : (s.writePayload bytes).responses = s.responses := rfl
@[simp] theorem State.writePayload_draws (bytes : List Byte) : (s.writePayload bytes).draws = s.draws := rfl
@[simp] theorem State.writePayload_ramDraw (bytes : List Byte) : (s.writePayload bytes).ramDraw = s.ramDraw := rfl
@[simp] theorem State.writePayload_outDraw (bytes : List Byte) : (s.writePayload bytes).outDraw = s.outDraw := rfl

/-! ### State.writeBits -/

@[simp] theorem State.writeBits_cmd (bytes : List Byte) (len : Nat) : (s.writeBits bytes len).cmd = s.cmd := rfl
@[simp] theorem State.writeBits_busy (bytes : List Byte) (len : Nat) : (s.writeBits bytes len).busy = s.busy := rfl
@[simp] theorem State.writeBits_done (bytes : List Byte) (len : Nat) : (s.writeBits bytes len).done = s.done := rfl
@[simp] theorem State.writeBits_err (bytes : List Byte) (len : Nat) : (s.writeBits bytes len).err = s.err := rfl
@[simp] theorem State.writeBits_cmdOvr (bytes : List Byte) (len : Nat) : (s.writeBits bytes len).cmdOvr = s.cmdOvr := rfl
@[simp] theorem State.writeBits_wrIgn (bytes : List Byte) (len : Nat) : (s.writeBits bytes len).wrIgn = s.wrIgn := rfl
@[simp] theorem State.writeBits_errCode (bytes : List Byte) (len : Nat) : (s.writeBits bytes len).errCode = s.errCode := rfl
@[simp] theorem State.writeBits_errInfo (bytes : List Byte) (len : Nat) : (s.writeBits bytes len).errInfo = s.errInfo := rfl
@[simp] theorem State.writeBits_ie (bytes : List Byte) (len : Nat) : (s.writeBits bytes len).ie = s.ie := rfl
@[simp] theorem State.writeBits_textLen (bytes : List Byte) (len : Nat) : (s.writeBits bytes len).textLen = s.textLen := rfl
@[simp] theorem State.writeBits_payloadLen (bytes : List Byte) (len : Nat) : (s.writeBits bytes len).payloadLen = s.payloadLen := rfl
@[simp] theorem State.writeBits_bitLen (bytes : List Byte) (len : Nat) : (s.writeBits bytes len).bitLen = BitVec.ofNat 32 len := rfl
@[simp] theorem State.writeBits_outLen (bytes : List Byte) (len : Nat) : (s.writeBits bytes len).outLen = s.outLen := rfl
@[simp] theorem State.writeBits_treeCount (bytes : List Byte) (len : Nat) : (s.writeBits bytes len).treeCount = s.treeCount := rfl
@[simp] theorem State.writeBits_root (bytes : List Byte) (len : Nat) : (s.writeBits bytes len).root = s.root := rfl
@[simp] theorem State.writeBits_freq (bytes : List Byte) (len : Nat) : (s.writeBits bytes len).freq = s.freq := rfl
@[simp] theorem State.writeBits_node (bytes : List Byte) (len : Nat) : (s.writeBits bytes len).node = s.node := rfl
@[simp] theorem State.writeBits_nodeFreq (bytes : List Byte) (len : Nat) : (s.writeBits bytes len).nodeFreq = s.nodeFreq := rfl
@[simp] theorem State.writeBits_codeTab (bytes : List Byte) (len : Nat) : (s.writeBits bytes len).codeTab = s.codeTab := rfl
@[simp] theorem State.writeBits_codeImg (bytes : List Byte) (len : Nat) : (s.writeBits bytes len).codeImg = s.codeImg := rfl
@[simp] theorem State.writeBits_textIn (bytes : List Byte) (len : Nat) : (s.writeBits bytes len).textIn = s.textIn := rfl
@[simp] theorem State.writeBits_payload (bytes : List Byte) (len : Nat) : (s.writeBits bytes len).payload = s.payload := rfl
@[simp] theorem State.writeBits_bitbuf (bytes : List Byte) (len : Nat) : (s.writeBits bytes len).bitbuf = Cells.poke s.bitbuf 0 bytes := rfl
@[simp] theorem State.writeBits_textOut (bytes : List Byte) (len : Nat) : (s.writeBits bytes len).textOut = s.textOut := rfl
@[simp] theorem State.writeBits_inputs (bytes : List Byte) (len : Nat) : (s.writeBits bytes len).inputs = s.inputs := rfl
@[simp] theorem State.writeBits_responses (bytes : List Byte) (len : Nat) : (s.writeBits bytes len).responses = s.responses := rfl
@[simp] theorem State.writeBits_draws (bytes : List Byte) (len : Nat) : (s.writeBits bytes len).draws = s.draws := rfl
@[simp] theorem State.writeBits_ramDraw (bytes : List Byte) (len : Nat) : (s.writeBits bytes len).ramDraw = s.ramDraw := rfl
@[simp] theorem State.writeBits_outDraw (bytes : List Byte) (len : Nat) : (s.writeBits bytes len).outDraw = s.outDraw := rfl

/-! ### State.writeText -/

@[simp] theorem State.writeText_cmd (text : List Byte) : (s.writeText text).cmd = s.cmd := rfl
@[simp] theorem State.writeText_busy (text : List Byte) : (s.writeText text).busy = s.busy := rfl
@[simp] theorem State.writeText_done (text : List Byte) : (s.writeText text).done = s.done := rfl
@[simp] theorem State.writeText_err (text : List Byte) : (s.writeText text).err = s.err := rfl
@[simp] theorem State.writeText_cmdOvr (text : List Byte) : (s.writeText text).cmdOvr = s.cmdOvr := rfl
@[simp] theorem State.writeText_wrIgn (text : List Byte) : (s.writeText text).wrIgn = s.wrIgn := rfl
@[simp] theorem State.writeText_errCode (text : List Byte) : (s.writeText text).errCode = s.errCode := rfl
@[simp] theorem State.writeText_errInfo (text : List Byte) : (s.writeText text).errInfo = s.errInfo := rfl
@[simp] theorem State.writeText_ie (text : List Byte) : (s.writeText text).ie = s.ie := rfl
@[simp] theorem State.writeText_textLen (text : List Byte) : (s.writeText text).textLen = s.textLen := rfl
@[simp] theorem State.writeText_payloadLen (text : List Byte) : (s.writeText text).payloadLen = s.payloadLen := rfl
@[simp] theorem State.writeText_bitLen (text : List Byte) : (s.writeText text).bitLen = s.bitLen := rfl
@[simp] theorem State.writeText_outLen (text : List Byte) : (s.writeText text).outLen = BitVec.ofNat 32 text.length := rfl
@[simp] theorem State.writeText_treeCount (text : List Byte) : (s.writeText text).treeCount = s.treeCount := rfl
@[simp] theorem State.writeText_root (text : List Byte) : (s.writeText text).root = s.root := rfl
@[simp] theorem State.writeText_freq (text : List Byte) : (s.writeText text).freq = s.freq := rfl
@[simp] theorem State.writeText_node (text : List Byte) : (s.writeText text).node = s.node := rfl
@[simp] theorem State.writeText_nodeFreq (text : List Byte) : (s.writeText text).nodeFreq = s.nodeFreq := rfl
@[simp] theorem State.writeText_codeTab (text : List Byte) : (s.writeText text).codeTab = s.codeTab := rfl
@[simp] theorem State.writeText_codeImg (text : List Byte) : (s.writeText text).codeImg = s.codeImg := rfl
@[simp] theorem State.writeText_textIn (text : List Byte) : (s.writeText text).textIn = s.textIn := rfl
@[simp] theorem State.writeText_payload (text : List Byte) : (s.writeText text).payload = s.payload := rfl
@[simp] theorem State.writeText_bitbuf (text : List Byte) : (s.writeText text).bitbuf = s.bitbuf := rfl
@[simp] theorem State.writeText_textOut (text : List Byte) : (s.writeText text).textOut = Cells.poke s.textOut 0 text := rfl
@[simp] theorem State.writeText_inputs (text : List Byte) : (s.writeText text).inputs = s.inputs := rfl
@[simp] theorem State.writeText_responses (text : List Byte) : (s.writeText text).responses = s.responses := rfl
@[simp] theorem State.writeText_draws (text : List Byte) : (s.writeText text).draws = s.draws := rfl
@[simp] theorem State.writeText_ramDraw (text : List Byte) : (s.writeText text).ramDraw = s.ramDraw := rfl
@[simp] theorem State.writeText_outDraw (text : List Byte) : (s.writeText text).outDraw = s.outDraw := rfl

/-! ### State.resetInput -/

@[simp] theorem State.resetInput_cmd : (s.resetInput).cmd = 0 := rfl
@[simp] theorem State.resetInput_busy : (s.resetInput).busy = false := rfl
@[simp] theorem State.resetInput_done : (s.resetInput).done = false := rfl
@[simp] theorem State.resetInput_err : (s.resetInput).err = false := rfl
@[simp] theorem State.resetInput_cmdOvr : (s.resetInput).cmdOvr = false := rfl
@[simp] theorem State.resetInput_wrIgn : (s.resetInput).wrIgn = false := rfl
@[simp] theorem State.resetInput_errCode : (s.resetInput).errCode = 0 := rfl
@[simp] theorem State.resetInput_errInfo : (s.resetInput).errInfo = 0 := rfl
@[simp] theorem State.resetInput_ie : (s.resetInput).ie = false := rfl
@[simp] theorem State.resetInput_textLen : (s.resetInput).textLen = 0 := rfl
@[simp] theorem State.resetInput_payloadLen : (s.resetInput).payloadLen = 0 := rfl
@[simp] theorem State.resetInput_bitLen : (s.resetInput).bitLen = 0 := rfl
@[simp] theorem State.resetInput_outLen : (s.resetInput).outLen = 0 := rfl
@[simp] theorem State.resetInput_treeCount : (s.resetInput).treeCount = 0 := rfl
@[simp] theorem State.resetInput_root : (s.resetInput).root = 0 := rfl
@[simp] theorem State.resetInput_freq : (s.resetInput).freq = [] := rfl
@[simp] theorem State.resetInput_node : (s.resetInput).node = [] := rfl
@[simp] theorem State.resetInput_nodeFreq : (s.resetInput).nodeFreq = [] := rfl
@[simp] theorem State.resetInput_codeTab : (s.resetInput).codeTab = [] := rfl
@[simp] theorem State.resetInput_codeImg : (s.resetInput).codeImg = none := rfl
@[simp] theorem State.resetInput_textIn : (s.resetInput).textIn = [] := rfl
@[simp] theorem State.resetInput_payload : (s.resetInput).payload = [] := rfl
@[simp] theorem State.resetInput_bitbuf : (s.resetInput).bitbuf = [] := rfl
@[simp] theorem State.resetInput_textOut : (s.resetInput).textOut = [] := rfl
@[simp] theorem State.resetInput_inputs : (s.resetInput).inputs = s.inputs := rfl
@[simp] theorem State.resetInput_responses : (s.resetInput).responses = s.responses := rfl
@[simp] theorem State.resetInput_draws : (s.resetInput).draws = s.draws + 1 := rfl
@[simp] theorem State.resetInput_ramDraw : (s.resetInput).ramDraw = s.draws := rfl
@[simp] theorem State.resetInput_outDraw : (s.resetInput).outDraw = s.draws := rfl

end Sys2Proof.Machine
end

