-- ==== Sys2Proof/Laws/Commands.lean ====
section
/-! SUPPORT. Everything a command can end with: one inversion lemma for the shared end of a command and
one for each command's run. -/

namespace Sys2Proof.Machine

/-! ### The end of a command (45_control.md R193, 60_exceptions.md R210) -/

@[simp] theorem endCommand_ok (s s' : State) : endCommand s (.ok s') = .next s'.succeed := rfl
@[simp] theorem endCommand_raise (s : State) (e : ErrorKind) (info : Word) :
    endCommand s (.error (.raise e info)) = .next (s.raise e info) := rfl
@[simp] theorem endCommand_raiseWalk (s : State) (e : ErrorKind) (info : Word) :
    endCommand s (.error (.raiseWalk e info)) = .next (s.loseTextOut.raise e info) := rfl
@[simp] theorem endCommand_fault (s : State) (f : Fault) : endCommand s (.error (.fault f)) = .fault f := rfl

/-- A command that answers a next state ended with its writes, or with one of the two kinds of error. -/
theorem endCommand_next {s t : State} {r : Except Stop State} (h : endCommand s r = .next t) :
    (∃ s', r = .ok s' ∧ t = s'.succeed) ∨ (∃ e info, r = .error (.raise e info) ∧ t = s.raise e info) ∨
      ∃ e info, r = .error (.raiseWalk e info) ∧ t = s.loseTextOut.raise e info := by
  match r, h with
  | .ok s', h => cases h; exact .inl ⟨s', rfl, rfl⟩
  | .error (.raise e info), h => cases h; exact .inr (.inl ⟨e, info, rfl, rfl⟩)
  | .error (.raiseWalk e info), h => cases h; exact .inr (.inr ⟨e, info, rfl, rfl⟩)

theorem endCommand_fault_iff (s : State) (r : Except Stop State) (f : Fault) :
    endCommand s r = .fault f ↔ r = .error (.fault f) := by
  match r with
  | .ok s' => simp
  | .error (.raise e info) => simp
  | .error (.raiseWalk e info) => simp
  | .error (.fault g) => simp

theorem endCommand_not_refused (s : State) (r : Except Stop State) (x : Refusal) : endCommand s r ≠ .refused x := by
  match r with
  | .ok s' => simp
  | .error (.raise e info) => simp
  | .error (.raiseWalk e info) => simp
  | .error (.fault g) => simp

/-- The command's run before its end. -/
def runOf (i : Instr) (s : State) : Except Stop State :=
  match i with
  | .nop => .ok s
  | .build => buildRun s
  | .gen => genRun s
  | .pack => packRun s
  | .unpack => unpackRun s
  | .decode => decodeRun s

/-- Each meaning is the shared end of a command applied to its run. -/
theorem exec_eq (i : Instr) (s : State) : exec i s = endCommand s (runOf i s) := by cases i <;> rfl

/-! ### BUILD -/

theorem huffmanTree_ok {fs : List Word} {t : BuiltTree} (h : huffmanTree fs = .ok t) :
    presentFrom 0 fs ≠ [] ∧ checkTotal 0 (presentFrom 0 fs) = .ok () ∧
      t.words = (presentFrom 0 fs).map (fun p => leafWord p.1) ++
        (mergeLoop (presentFrom 0 fs).length (presentFrom 0 fs).length (leafKeys 0 (presentFrom 0 fs))).1.map
          (fun m => m.word) ∧
      t.freqs = (presentFrom 0 fs).map (fun p => p.2) ++
        (mergeLoop (presentFrom 0 fs).length (presentFrom 0 fs).length (leafKeys 0 (presentFrom 0 fs))).1.map
          (fun m => BitVec.ofNat 32 m.freq) ∧
      t.root = BitVec.ofNat 32 (((mergeLoop (presentFrom 0 fs).length (presentFrom 0 fs).length
        (leafKeys 0 (presentFrom 0 fs))).2.map (fun k => k.index)).headD 0) ∧
      t.count = BitVec.ofNat 32 (2 * (presentFrom 0 fs).length - 1) := by
  unfold huffmanTree at h
  simp only at h
  split at h
  · cases h
  · next hne =>
    split at h
    · cases h
    · next hc =>
      cases h
      exact ⟨by simpa using hne, hc, rfl, rfl, rfl, rfl⟩

/-- FREQ_OVERFLOW names the symbol whose addition first takes the total past 2^32 − 1 (40_tree_builder.md R113). -/
theorem checkTotal_error {total : Nat} {ps : List (Byte × Word)} {e : Stop} (ht : total ≤ Config.freqMax)
    (h : checkTotal total ps = .error e) :
    ∃ pre sym f post, ps = pre ++ (sym, f) :: post ∧
      total + (pre.map (fun p => p.2.toNat)).sum ≤ Config.freqMax ∧
      Config.freqMax < total + (pre.map (fun p => p.2.toNat)).sum + f.toNat ∧
      e = .raise .freqOverflow (sym.setWidth 32) := by
  induction ps generalizing total with
  | nil => cases h
  | cons p ps ih =>
    obtain ⟨sym, f⟩ := p
    unfold checkTotal at h
    split at h
    · next hlt => cases h; exact ⟨[], sym, f, ps, rfl, by simpa using ht, by simpa using hlt, rfl⟩
    · next hle =>
      obtain ⟨pre, sym', f', post, rfl, h₁, h₂, he⟩ := ih (Nat.not_lt.1 hle) h
      refine ⟨(sym, f) :: pre, sym', f', post, rfl, ?_, ?_, he⟩ <;>
        simp only [List.map_cons, List.sum_cons] <;> omega

theorem huffmanTree_error {fs : List Word} {e : Stop} (h : huffmanTree fs = .error e) :
    (presentFrom 0 fs = [] ∧ e = .raise .emptyInput 0) ∨
      ∃ pre sym f post, presentFrom 0 fs = pre ++ (sym, f) :: post ∧
        (pre.map (fun p => p.2.toNat)).sum ≤ Config.freqMax ∧
        Config.freqMax < (pre.map (fun p => p.2.toNat)).sum + f.toNat ∧
        e = .raise .freqOverflow (sym.setWidth 32) := by
  unfold huffmanTree at h
  simp only at h
  split at h
  · next hne => cases h; exact .inl ⟨by simpa using hne, rfl⟩
  · split at h
    · next hc =>
      cases h
      simpa only [Nat.zero_add] using Or.inr (checkTotal_error (Nat.zero_le _) hc)
    · cases h

theorem buildRun_ok {s s' : State} (h : buildRun s = .ok s') :
    ∃ fs t, gather (readFreq s) (List.range Config.nsym) = .ok fs ∧ huffmanTree fs = .ok t ∧
      s' = s.writeTree t := by
  unfold buildRun at h
  split at h
  · cases h
  · next fs hfs =>
    split at h
    · cases h
    · next t ht => cases h; exact ⟨fs, t, hfs, ht, rfl⟩

/-- BUILD ends early at a frequency that has not been written, or with the error of its frequencies. -/
theorem buildRun_error {s : State} {e : Stop} (h : buildRun s = .error e) :
    (∃ i, e = .fault (.unwritten .freq i) ∧ s.freq.peek i = none) ∨
      ∃ fs, gather (readFreq s) (List.range Config.nsym) = .ok fs ∧ huffmanTree fs = .error e := by
  unfold buildRun at h
  split at h
  · next hg =>
    cases h
    obtain ⟨_, i, _, _, _, he⟩ := gather_error _ _ _ hg
    obtain ⟨hn, he⟩ := (element_error_iff ..).1 he
    exact .inl ⟨i, he, hn⟩
  · next fs hfs =>
    split at h
    · next hh => cases h; exact .inr ⟨fs, hfs, hh⟩
    · cases h

/-! ### TreeWF and GEN -/

/-- TreeWF ends with BAD_TREE or at an element that has not been written (40_tree_builder.md R118). -/
theorem visit_error {s : State} {depth i : Nat} {seen : Seen} {e : Stop}
    (h : visit s depth i seen = .error e) :
    (∃ info, e = .raise .badTree info) ∨ ∃ j, e = .fault (.unwritten .node j) ∧ s.node.peek j = none := by
  induction depth generalizing i seen with
  | zero => cases h; exact .inl ⟨_, rfl⟩
  | succ depth ih =>
    unfold visit at h
    split at h
    · cases h; exact .inl ⟨_, rfl⟩
    split at h
    · cases h; exact .inl ⟨_, rfl⟩
    split at h
    · next hr =>
      cases h
      obtain ⟨hn, he⟩ := (element_error_iff ..).1 hr
      exact .inr ⟨_, he, hn⟩
    split at h
    · split at h
      · cases h; exact .inl ⟨_, rfl⟩
      · split at h
        · cases h; exact .inl ⟨_, rfl⟩
        · cases h
    split at h
    · cases h; exact .inl ⟨_, rfl⟩
    split at h
    · next hl => cases h; exact ih hl
    · split at h
      · next hr => cases h; exact ih hr
      · cases h

theorem treeWF_error {s : State} {e : Stop} (h : treeWF s = .error e) :
    (∃ info, e = .raise .badTree info) ∨ ∃ j, e = .fault (.unwritten .node j) ∧ s.node.peek j = none := by
  unfold treeWF at h
  split at h
  · cases h; exact .inl ⟨_, rfl⟩
  · split at h
    · next hv => cases h; exact visit_error hv
    · cases h

theorem genRun_ok {s s' : State} (h : genRun s = .ok s') :
    (s.treeCount = 0 ∧ s' = s.writeCodes []) ∨
      (s.treeCount ≠ 0 ∧ ∃ t, treeWF s = .ok t ∧ s' = s.writeCodes (t.codes [])) := by
  unfold genRun at h
  split at h
  · next h0 => cases h; exact .inl ⟨h0, rfl⟩
  · next h0 =>
    split at h
    · cases h
    · next t ht => cases h; exact .inr ⟨h0, t, ht, rfl⟩

theorem genRun_error {s : State} {e : Stop} (h : genRun s = .error e) :
    s.treeCount ≠ 0 ∧ treeWF s = .error e := by
  unfold genRun at h
  split at h
  · cases h
  · next h0 =>
    split at h
    · next ht => cases h; exact ⟨h0, ht⟩
    · cases h

/-! ### PACK -/

theorem packSymbol_ok_iff (s : State) (k : Nat) (sym : Byte) :
    packSymbol s k = .ok sym ↔ Cells.peek s.textIn k = some sym ∧ (codeEntry s sym).valid = true := by
  unfold packSymbol
  cases hr : readTextIn s k with
  | error e =>
    have := ((element_error_iff ..).1 hr).1
    simp [this]
  | ok y =>
    have hp : Cells.peek s.textIn k = some y := (element_ok_iff ..).1 hr
    simp only [hp, Option.some.injEq]
    constructor
    · intro h; split at h
      · next hv => cases h; exact ⟨rfl, hv⟩
      · cases h
    · rintro ⟨rfl, hv⟩; simp [hv]

theorem packSymbol_error {s : State} {k : Nat} {e : Stop} (h : packSymbol s k = .error e) :
    (e = .fault (.unwritten .textIn k) ∧ Cells.peek s.textIn k = none) ∨
      ∃ sym, Cells.peek s.textIn k = some sym ∧ (codeEntry s sym).valid = false ∧
        e = .raise .missingCode (BitVec.ofNat 32 k) := by
  unfold packSymbol at h
  split at h
  · next hr =>
    cases h
    obtain ⟨hn, he⟩ := (element_error_iff ..).1 hr
    exact .inl ⟨he, hn⟩
  · next y hr =>
    split at h
    · cases h
    · next hv =>
      cases h
      exact .inr ⟨y, (element_ok_iff ..).1 hr, by simpa using hv, rfl⟩

theorem packRun_ok {s s' : State} (h : packRun s = .ok s') :
    s.textLen.toNat ≤ Config.textCap ∧ ∃ text codes,
      gather (packSymbol s) (List.range s.textLen.toNat) = .ok text ∧
      1 + ceil8 (bitTotal s text) ≤ Config.payloadCap ∧ gather (readCode s) text = .ok codes ∧
      s' = s.writePayload (payloadOf codes.flatten (bitTotal s text)) := by
  unfold packRun at h
  split at h
  · cases h
  · next h0 =>
    refine ⟨Nat.not_lt.1 h0, ?_⟩
    split at h
    · cases h
    · next text ht =>
      simp only at h
      split at h
      · cases h
      · next h1 =>
        split at h
        · cases h
        · next codes hc => cases h; exact ⟨text, codes, ht, Nat.not_lt.1 h1, hc, rfl⟩

/-- PACK ends early where 42_bit_packer.md R146 says, with what holds there, or at an element that has not been
written. -/
theorem packRun_error {s : State} {e : Stop} (h : packRun s = .error e) :
    (Config.textCap < s.textLen.toNat ∧ e = .raise .badLength s.textLen) ∨
      s.textLen.toNat ≤ Config.textCap ∧
        ((∃ k, k < s.textLen.toNat ∧ (∀ j, j < k → ∃ sym, packSymbol s j = .ok sym) ∧ packSymbol s k = .error e) ∨
          ∃ text, gather (packSymbol s) (List.range s.textLen.toNat) = .ok text ∧
            ((Config.payloadCap < 1 + ceil8 (bitTotal s text) ∧
                e = .raise .payloadOverflow (BitVec.ofNat 32 (bitTotal s text))) ∨
              ∃ k, e = .fault (.unwritten .code k) ∧ s.codeImg = none)) := by
  unfold packRun at h
  split at h
  · next h0 => cases h; exact .inl ⟨h0, rfl⟩
  · next h0 =>
    refine .inr ⟨Nat.not_lt.1 h0, ?_⟩
    split at h
    · next hg => cases h; exact .inl (gather_range_error _ _ _ hg)
    · next text ht =>
      refine .inr ⟨text, ht, ?_⟩
      simp only at h
      split at h
      · next h1 => cases h; exact .inl ⟨h1, rfl⟩
      · split at h
        · next hg =>
          cases h
          obtain ⟨_, sym, _, _, _, he⟩ := gather_error _ _ _ hg
          obtain ⟨_, j, _, _, _, he⟩ := gather_error _ _ _ he
          obtain ⟨hn, k, he⟩ := readCodeBit_error _ _ _ _ he
          exact .inr ⟨k, he, hn⟩
        · cases h

/-! ### UNPACK -/

theorem unpackData_ok {s s' : State} {header : Byte} {d : Nat} (h : unpackData s header d = .ok s') :
    ∃ full last, gather (readPayload s) (List.range' 1 d) = .ok full ∧ readPayload s (d + 1) = .ok last ∧
      s' = s.writeBits (full ++ [keepPrefix (validBits header) last]) (8 * d + validBits header) := by
  unfold unpackData at h
  split at h
  · cases h
  · next full hf =>
    split at h
    · cases h
    · next last hl => cases h; exact ⟨full, last, hf, hl, rfl⟩

theorem unpackData_error {s : State} {header : Byte} {d : Nat} {e : Stop}
    (h : unpackData s header d = .error e) :
    ∃ k, e = .fault (.unwritten .payload k) ∧ Cells.peek s.payload k = none := by
  unfold unpackData at h
  split at h
  · next hg =>
    cases h
    obtain ⟨_, k, _, _, _, he⟩ := gather_error _ _ _ hg
    obtain ⟨hn, he⟩ := (element_error_iff ..).1 he
    exact ⟨k, he, hn⟩
  · split at h
    · next hr =>
      cases h
      obtain ⟨hn, he⟩ := (element_error_iff ..).1 hr
      exact ⟨_, he, hn⟩
    · cases h

theorem unpackRun_ok {s s' : State} (h : unpackRun s = .ok s') :
    s.payloadLen ≠ 0 ∧ s.payloadLen.toNat ≤ Config.payloadCap ∧ ∃ header : Byte,
      Cells.peek s.payload 0 = some header ∧ header.toNat ≤ 7 ∧
      ((s.payloadLen.toNat = 1 ∧ header = 0 ∧ s' = s.writeBits [] 0) ∨
        ∃ d, s.payloadLen.toNat = d + 2 ∧ unpackData s header d = .ok s') := by
  unfold unpackRun at h
  split at h
  · cases h
  · next h0 =>
    split at h
    · cases h
    · next h1 =>
      split at h
      · cases h
      · next header hr =>
        split at h
        · cases h
        · next h7 =>
          have hpos : s.payloadLen.toNat ≠ 0 := fun hz => h0 (BitVec.eq_of_toNat_eq (by simpa using hz))
          refine ⟨h0, Nat.not_lt.1 h1, header, (element_ok_iff ..).1 hr, Nat.not_lt.1 h7, ?_⟩
          split at h
          · next hd =>
            split at h
            · next hz => cases h; exact .inl ⟨by omega, hz, rfl⟩
            · cases h
          · next d hd => exact .inr ⟨d, by omega, h⟩

/-- UNPACK ends early where 43_bit_unpacker.md R161 says, with what holds there, or at an element that has not
been written. -/
theorem unpackRun_error {s : State} {e : Stop} (h : unpackRun s = .error e) :
    (s.payloadLen = 0 ∧ e = .raise .badPayload 0xFFFFFFFF) ∨
      (Config.payloadCap < s.payloadLen.toNat ∧ e = .raise .badLength s.payloadLen) ∨
      (∃ header : Byte, s.payloadLen ≠ 0 ∧ Cells.peek s.payload 0 = some header ∧
        (7 < header.toNat ∨ s.payloadLen = 1 ∧ header ≠ 0) ∧ e = .raise .badPayload (header.setWidth 32)) ∨
      ∃ k, e = .fault (.unwritten .payload k) ∧ Cells.peek s.payload k = none := by
  unfold unpackRun at h
  split at h
  · next h0 => cases h; exact .inl ⟨h0, rfl⟩
  · next h0 =>
    split at h
    · next h1 => cases h; exact .inr (.inl ⟨h1, rfl⟩)
    · split at h
      · next hr =>
        cases h
        obtain ⟨hn, he⟩ := (element_error_iff ..).1 hr
        exact .inr (.inr (.inr ⟨_, he, hn⟩))
      · next header hr =>
        have hp := (element_ok_iff ..).1 hr
        split at h
        · next h7 => cases h; exact .inr (.inr (.inl ⟨header, h0, hp, .inl h7, rfl⟩))
        · split at h
          · next hd =>
            split at h
            · cases h
            · next hz =>
              cases h
              have h1 : s.payloadLen = 1 := by
                have h0' : s.payloadLen.toNat ≠ 0 := fun hc => h0 (BitVec.eq_of_toNat_eq (by simpa using hc))
                exact BitVec.eq_of_toNat_eq (by simp only [BitVec.reduceToNat]; omega)
              exact .inr (.inr (.inl ⟨header, h0, hp, .inr ⟨h1, hz⟩, rfl⟩))
          · exact .inr (.inr (.inr (unpackData_error h)))

/-! ### DECODE -/

theorem readBit_ok_iff (s : State) (i : Nat) (b : Bool) :
    readBit s i = .ok b ↔ ∃ y, Cells.peek s.bitbuf (i / 8) = some y ∧ bitOf y (i % 8) = b := by
  unfold readBit
  cases hr : element .bitbuf s.bitbuf (i / 8) with
  | error e =>
    have := ((element_error_iff ..).1 hr).1
    simp [this]
  | ok y =>
    have := (element_ok_iff ..).1 hr
    simp [this]

theorem readBit_error {s : State} {i : Nat} {e : Stop} (h : readBit s i = .error e) :
    ∃ m, e = .fault (.unwritten .bitbuf m) ∧ Cells.peek s.bitbuf m = none := by
  unfold readBit at h
  split at h
  · cases h
  · next hr =>
    cases h
    obtain ⟨hn, he⟩ := (element_error_iff ..).1 hr
    exact ⟨_, he, hn⟩

/-- The walk fails by a walk error or at an element that has not been written (44_tree_decoder.md R181). -/
theorem decodeWalk_error {s : State} {left i cur k : Nat} {e : Stop}
    (h : decodeWalk s left i cur k = .error e) :
    e = .raiseWalk .corruptPayload s.bitLen ∨
      (∃ j, i ≤ j ∧ j < i + left ∧ e = .raiseWalk .outOverflow (BitVec.ofNat 32 j)) ∨
      (∃ j, e = .fault (.unwritten .node j) ∧ s.node.peek j = none) ∨
      ∃ j, e = .fault (.unwritten .bitbuf j) ∧ Cells.peek s.bitbuf j = none := by
  induction left generalizing i cur k with
  | zero =>
    unfold decodeWalk at h
    split at h
    · cases h
    · cases h; exact .inl rfl
  | succ left ih =>
    unfold decodeWalk at h
    split at h
    · next hr =>
      cases h
      obtain ⟨hn, he⟩ := (element_error_iff ..).1 hr
      exact .inr (.inr (.inl ⟨_, he, hn⟩))
    split at h
    · next hr => cases h; exact .inr (.inr (.inr (readBit_error hr)))
    simp only at h
    split at h
    · next hr =>
      cases h
      obtain ⟨hn, he⟩ := (element_error_iff ..).1 hr
      exact .inr (.inr (.inl ⟨_, he, hn⟩))
    split at h
    · split at h
      · cases h; exact .inr (.inl ⟨i, Nat.le_refl _, by omega, rfl⟩)
      · split at h
        · next hw =>
          cases h
          exact (ih hw).imp_right (Or.imp_left fun ⟨j, h₁, h₂, he⟩ => ⟨j, by omega, by omega, he⟩)
        · cases h
    · exact (ih h).imp_right (Or.imp_left fun ⟨j, h₁, h₂, he⟩ => ⟨j, by omega, by omega, he⟩)

/-- The walk never emits more than OUT_CAP symbols (44_tree_decoder.md R176). -/
theorem decodeWalk_length {s : State} {left i cur k : Nat} {text : List Byte}
    (h : decodeWalk s left i cur k = .ok text) (hk : k ≤ Config.outCap) : k + text.length ≤ Config.outCap := by
  induction left generalizing i cur k text with
  | zero =>
    unfold decodeWalk at h
    split at h
    · cases h; simpa using hk
    · cases h
  | succ left ih =>
    unfold decodeWalk at h
    split at h
    · cases h
    split at h
    · cases h
    simp only at h
    split at h
    · cases h
    split at h
    · split at h
      · cases h
      · next hne =>
        split at h
        · cases h
        · next rest hw =>
          cases h
          have := ih hw (by omega)
          simp only [List.length_cons]
          omega
    · exact ih h hk

theorem decodeSingle_ok {s s' : State} {sym : Byte} (h : decodeSingle s sym = .ok s') :
    s.bitLen = 0 ∧ ∃ c : Word, s.nodeFreq.peek s.root.toNat = some c ∧ c.toNat ≤ Config.outCap ∧
      s' = s.writeText (List.replicate c.toNat sym) := by
  unfold decodeSingle at h
  split at h
  · cases h
  · next h0 =>
    split at h
    · cases h
    · next c hc =>
      split at h
      · cases h
      · next h1 =>
        cases h
        exact ⟨by simpa using h0, c, (element_ok_iff ..).1 hc, Nat.not_lt.1 h1, rfl⟩

theorem decodeSingle_error {s : State} {sym : Byte} {e : Stop} (h : decodeSingle s sym = .error e) :
    (s.bitLen ≠ 0 ∧ e = .raise .corruptPayload 0) ∨
      s.bitLen = 0 ∧
        ((∃ c : Word, s.nodeFreq.peek s.root.toNat = some c ∧ Config.outCap < c.toNat ∧ e = .raise .outOverflow c) ∨
          ∃ j, e = .fault (.unwritten .nodeFreq j) ∧ s.nodeFreq.peek j = none) := by
  unfold decodeSingle at h
  split at h
  · next h0 => cases h; exact .inl ⟨h0, rfl⟩
  · next h0 =>
    refine .inr ⟨by simpa using h0, ?_⟩
    split at h
    · next hr =>
      cases h
      obtain ⟨hn, he⟩ := (element_error_iff ..).1 hr
      exact .inr ⟨_, he, hn⟩
    · next c hc =>
      split at h
      · next h1 => cases h; exact .inl ⟨c, (element_ok_iff ..).1 hc, h1, rfl⟩
      · cases h

/-- DECODE's success writes a text of at most OUT_CAP bytes and nothing else (44_tree_decoder.md R180). -/
theorem decodeRun_ok {s s' : State} (h : decodeRun s = .ok s') :
    s.bitLen.toNat ≤ Config.bitCap ∧ ∃ text : List Byte, text.length ≤ Config.outCap ∧ s' = s.writeText text := by
  unfold decodeRun at h
  split at h
  · cases h
  · next h0 =>
    refine ⟨Nat.not_lt.1 h0, ?_⟩
    split at h
    · split at h
      · cases h; exact ⟨[], by simp, rfl⟩
      · cases h
    · split at h
      · cases h
      · split at h
        · cases h
        · split at h
          · obtain ⟨_, c, _, hc, rfl⟩ := decodeSingle_ok h
            exact ⟨_, by simpa using hc, rfl⟩
          · split at h
            · cases h
            · next text hw =>
              cases h
              have := decodeWalk_length hw (Nat.zero_le _)
              exact ⟨text, by omega, rfl⟩

/-- DECODE ends early where 44_tree_decoder.md R176 says, with what holds there: before it has a tree, or with the
error of the single leaf or of the walk. -/
theorem decodeRun_error {s : State} {e : Stop} (h : decodeRun s = .error e) :
    (Config.bitCap < s.bitLen.toNat ∧ e = .raise .badLength s.bitLen) ∨
      s.bitLen.toNat ≤ Config.bitCap ∧
        ((s.treeCount = 0 ∧ s.bitLen ≠ 0 ∧ e = .raise .badTree 0) ∨
          (s.treeCount ≠ 0 ∧ treeWF s = .error e) ∨
          s.treeCount ≠ 0 ∧ ∃ t, treeWF s = .ok t ∧
            ((e = .fault (.unwritten .node s.root.toNat) ∧ s.node.peek s.root.toNat = none) ∨
              ∃ w, s.node.peek s.root.toNat = some w ∧
                ((isLeafWord w = true ∧ decodeSingle s (symField w) = .error e) ∨
                  isLeafWord w = false ∧ decodeWalk s s.bitLen.toNat 0 s.root.toNat 0 = .error e))) := by
  unfold decodeRun at h
  split at h
  · next h0 => cases h; exact .inl ⟨h0, rfl⟩
  · next h0 =>
    refine .inr ⟨Nat.not_lt.1 h0, ?_⟩
    split at h
    · next hc =>
      split at h
      · cases h
      · next hb => cases h; exact .inl ⟨hc, hb, rfl⟩
    · next hc =>
      split at h
      · next ht => cases h; exact .inr (.inl ⟨hc, ht⟩)
      · next t ht =>
        refine .inr (.inr ⟨hc, t, ht, ?_⟩)
        split at h
        · next hr =>
          cases h
          obtain ⟨hn, he⟩ := (element_error_iff ..).1 hr
          exact .inl ⟨he, hn⟩
        · next w hw =>
          refine .inr ⟨w, (element_ok_iff ..).1 hw, ?_⟩
          split at h
          · next hl => exact .inl ⟨hl, h⟩
          · next hl =>
            split at h
            · next he => cases h; exact .inr ⟨by simpa using hl, he⟩
            · cases h

end Sys2Proof.Machine
end

