-- ==== Sys2Proof/Laws/PerInstr.lean ====
section
/-! SUPPORT. Families of facts about each command as syntax, one lemma per constructor. -/

/-- A command's word has RSV = 0 and an assigned OP, and every command is well formed (30_encoding.md R90,
R91, R93). -/
def Sys2Proof.Laws.CommandWord.Statement (i : Sys2Proof.Instr) : Prop :=
  Sys2Proof.rsvField (Sys2Proof.encode i) = 0 ∧ Sys2Proof.opField (Sys2Proof.encode i) ≤ 5 ∧
    Sys2Proof.Instr.wellFormed i = true

theorem Sys2Proof.Laws.CommandWord.nop : Sys2Proof.Laws.CommandWord.Statement .nop := ⟨by decide, by decide, rfl⟩
theorem Sys2Proof.Laws.CommandWord.build : Sys2Proof.Laws.CommandWord.Statement .build := ⟨by decide, by decide, rfl⟩
theorem Sys2Proof.Laws.CommandWord.gen : Sys2Proof.Laws.CommandWord.Statement .gen := ⟨by decide, by decide, rfl⟩
theorem Sys2Proof.Laws.CommandWord.pack : Sys2Proof.Laws.CommandWord.Statement .pack := ⟨by decide, by decide, rfl⟩
theorem Sys2Proof.Laws.CommandWord.unpack : Sys2Proof.Laws.CommandWord.Statement .unpack := ⟨by decide, by decide, rfl⟩
theorem Sys2Proof.Laws.CommandWord.decode : Sys2Proof.Laws.CommandWord.Statement .decode := ⟨by decide, by decide, rfl⟩
end

