-- ==== Sys2Proof/Laws/Step.lean ====
section
/-! SUPPORT. What one step can do, what one host access can do, and where the elements of the arrays stand
in the window. -/

namespace Sys2Proof.Machine

/-! ### One step (45_control.md R190, R192; 20_memory.md R73) -/

/-- The engine ran at `s`: the command of CMD, or the illegal command. -/
theorem runCommand_cases (s : State) :
    (∃ i, decode s.cmd = .ok i ∧ runCommand s = exec i s) ∨
      ((∃ r, decode s.cmd = .error r) ∧ runCommand s = .next (s.raise .illegalCmd s.cmd)) := by
  unfold runCommand
  cases h : decode s.cmd with
  | ok i => exact .inl ⟨i, rfl, rfl⟩
  | error r => exact .inr ⟨⟨r, rfl⟩, rfl⟩

/-- Every step is one of these: the engine runs, idles, the host makes an access, or reset. -/
theorem step_cases (s : State) :
    (s.busy = true ∧ ((s.inputs = [] ∧ step s = runCommand s) ∨
        (∃ rest, s.inputs = .engine :: rest ∧ step s = runCommand (s.withInputs rest)) ∨
        ∃ rest, s.inputs = .poll :: rest ∧ step s = runCommand s)) ∨
      (s.busy = false ∧ ((s.inputs = [] ∧ step s = .next s) ∨
        (∃ rest, s.inputs = .engine :: rest ∧ step s = .next (s.withInputs rest)) ∨
        ∃ rest, s.inputs = .poll :: rest ∧ step s = .next (hostRead (s.withInputs rest) statusOffset))) ∨
      (∃ op rest, s.inputs = .access op :: rest ∧ step s = .next (portAccess (s.withInputs rest) op)) ∨
      ∃ rest, s.inputs = .reset :: rest ∧ step s = .next (s.withInputs rest).resetInput := by
  unfold step nextEvent engineTurn
  cases hin : s.inputs with
  | nil => cases hb : s.busy <;> simp
  | cons x rest => cases x <;> cases hb : s.busy <;> simp [hb]

/-! ### One host access (20_memory.md R62 to R72) -/

theorem portAccess_read (s : State) (off : Offset) (h : off.toNat % 4 = 0) :
    portAccess s (.read .bits32 off) = hostRead s off := by
  simp [portAccess, PortOp.wellFormed, Width.wellFormed, h]

theorem portAccess_write (s : State) (off : Offset) (v : Word) (h : off.toNat % 4 = 0) :
    portAccess s (.write .bits32 off v) = hostWrite s off v := by
  simp [portAccess, PortOp.wellFormed, Width.wellFormed, h]

/-- A host access answers the bus error, reads, or writes. -/
theorem portAccess_cases (s : State) (op : PortOp) :
    portAccess s op = s.respond { busError := true, data := 0 } ∨
      (∃ off : Offset, off.toNat % 4 = 0 ∧ op = .read .bits32 off ∧ portAccess s op = hostRead s off) ∨
      ∃ (off : Offset) (v : Word), off.toNat % 4 = 0 ∧ op = .write .bits32 off v ∧
        portAccess s op = hostWrite s off v := by
  cases op with
  | read w off =>
    cases w
    · exact .inl rfl
    · exact .inl rfl
    · by_cases h : off.toNat % 4 = 0
      · exact .inr (.inl ⟨off, h, rfl, portAccess_read s off h⟩)
      · exact .inl (by simp [portAccess, PortOp.wellFormed, Width.wellFormed, h])
  | write w off v =>
    cases w
    · exact .inl rfl
    · exact .inl rfl
    · by_cases h : off.toNat % 4 = 0
      · exact .inr (.inr ⟨off, v, h, rfl, portAccess_write s off v h⟩)
      · exact .inl (by simp [portAccess, PortOp.wellFormed, Width.wellFormed, h])

theorem hostRead_cases (s : State) (off : Offset) :
    (s.busy = true ∧ readableWhileBusy (locate off) = false ∧
        hostRead s off = (s.respond { busError := false, data := Config.busyRead s.draws }).drawn) ∨
      hostRead s off = s.respond { busError := false, data := memRead s off } := by
  unfold hostRead
  cases hb : s.busy <;> cases hr : readableWhileBusy (locate off) <;> simp

/-! ### The address map (20_memory.md R60) -/

theorem toNat_offset (a : Nat) (h : a < 2 ^ 17) : (BitVec.ofNat 17 a).toNat = a := by
  rw [BitVec.toNat_ofNat, Nat.mod_eq_of_lt h]

theorem locate_freq (i : Nat) (h : i < 256) : locate (BitVec.ofNat 17 (0x400 + 4 * i)) = .freq i := by
  unfold locate
  rw [toNat_offset _ (by omega)]
  simp [show ¬1024 + 4 * i < 1024 by omega, show 1024 + 4 * i < 2048 by omega]

theorem locate_node (i : Nat) (h : i < 511) : locate (BitVec.ofNat 17 (0x800 + 4 * i)) = .node i := by
  unfold locate
  rw [toNat_offset _ (by omega)]
  simp [show ¬2048 + 4 * i < 1024 by omega, show ¬2048 + 4 * i < 2048 by omega, show 2048 + 4 * i < 4092 by omega]

theorem locate_nodeFreq (i : Nat) (h : i < 511) :
    locate (BitVec.ofNat 17 (0x1000 + 4 * i)) = .nodeFreq i := by
  unfold locate
  rw [toNat_offset _ (by omega)]
  simp [show ¬4096 + 4 * i < 1024 by omega, show ¬4096 + 4 * i < 2048 by omega,
    show ¬4096 + 4 * i < 4092 by omega, show ¬4096 + 4 * i < 4096 by omega, show 4096 + 4 * i < 6140 by omega]

theorem locate_codeWord (i : Nat) (h : i < 256) :
    locate (BitVec.ofNat 17 (0x1800 + 4 * i)) = .codeWord i := by
  unfold locate
  rw [toNat_offset _ (by omega)]
  simp [show ¬6144 + 4 * i < 1024 by omega, show ¬6144 + 4 * i < 2048 by omega,
    show ¬6144 + 4 * i < 4092 by omega, show ¬6144 + 4 * i < 4096 by omega,
    show ¬6144 + 4 * i < 6140 by omega, show ¬6144 + 4 * i < 6144 by omega, show 6144 + 4 * i < 7168 by omega]

theorem locate_codeImg (m : Nat) (h : m < 2048) :
    locate (BitVec.ofNat 17 (0x2000 + 4 * m)) = .codeImg m := by
  unfold locate
  rw [toNat_offset _ (by omega)]
  simp [show ¬8192 + 4 * m < 1024 by omega, show ¬8192 + 4 * m < 2048 by omega,
    show ¬8192 + 4 * m < 4092 by omega, show ¬8192 + 4 * m < 4096 by omega,
    show ¬8192 + 4 * m < 6140 by omega, show ¬8192 + 4 * m < 6144 by omega,
    show ¬8192 + 4 * m < 7168 by omega, show ¬8192 + 4 * m < 8192 by omega, show 8192 + 4 * m < 16384 by omega]

/-- The four byte arrays lie in the upper half of the window, 16384 bytes each. -/
theorem locate_bytes (b m : Nat) (hb : b < 4) (hm : m < 4096) :
    locate (BitVec.ofNat 17 (0x10000 + 0x4000 * b + 4 * m)) =
      (if b = 0 then .textIn m else if b = 1 then .payload m else if b = 2 then .bitbuf m else .textOut m) := by
  unfold locate
  rw [toNat_offset _ (by omega)]
  obtain rfl | rfl | rfl | rfl : b = 0 ∨ b = 1 ∨ b = 2 ∨ b = 3 := by omega
  all_goals
    simp only [Nat.reduceMul, Nat.reduceAdd, Nat.reduceEqDiff, if_true, if_false]
    repeat rw [if_neg (by omega)]
    first
      | (rw [if_pos (by omega)]; congr 1; omega)
      | (congr 1; omega)

end Sys2Proof.Machine
end

