-- ==== Sys2Proof/Laws/Walk.lean ====
section
/-! SUPPORT. DECODE's walk as descents in the stored tree: what the bits it has read are when it ends with a
walk error (44_tree_decoder.md R176, R178, R181). -/

namespace Sys2Proof.Machine

@[simp] theorem CodeTree.descend_nil (T : CodeTree) : T.descend [] = some T := by cases T <;> rfl

theorem CodeTree.descend_append (T : CodeTree) (p q : List Bool) :
    T.descend (p ++ q) = (T.descend p).bind (fun sub => sub.descend q) := by
  induction p generalizing T with
  | nil => simp
  | cons b p ih =>
    cases T with
    | leaf i sym => simp [CodeTree.descend]
    | inner i l r => cases b <;> simp [CodeTree.descend, ih]

theorem CodeTree.storedIn_index_lt {s : State} {T : CodeTree} (h : T.storedIn s) :
    T.index < s.treeCount.toNat := by
  cases T <;> exact h.1

theorem CodeTree.storedIn_descend {s : State} {T sub : CodeTree} {p : List Bool} (h : T.storedIn s)
    (hp : T.descend p = some sub) : sub.storedIn s := by
  induction p generalizing T with
  | nil => rw [CodeTree.descend_nil] at hp; cases hp; exact h
  | cons b p ih =>
    cases T with
    | leaf i sym => cases hp
    | inner i l r =>
      cases b
      · exact ih h.2.2.1 hp
      · exact ih h.2.2.2 hp

/-- Reading the node of a stored inner vertex and choosing by one bit gives the index of the child the descent
takes. -/
theorem readNode_inner {s : State} {i : Nat} {l r : CodeTree} (hc : s.treeCount.toNat ≤ Config.maxNodes)
    (h : (CodeTree.inner i l r).storedIn s) :
    ∃ w, readNode s i = .ok w ∧ leftField w = l.index ∧ rightField w = r.index := by
  have hl : l.index < 512 := Nat.lt_trans (CodeTree.storedIn_index_lt h.2.2.1) (Nat.lt_succ_of_le hc)
  have hr : r.index < 512 := Nat.lt_trans (CodeTree.storedIn_index_lt h.2.2.2) (Nat.lt_succ_of_le hc)
  exact ⟨_, (element_ok_iff ..).2 h.2.1, leftField_innerWord _ _ hl hr, rightField_innerWord _ _ hl hr⟩

/-- The word of a stored vertex is a leaf's exactly when the vertex is a leaf. -/
theorem readNode_stored {s : State} {T : CodeTree} (hc : s.treeCount.toNat ≤ Config.maxNodes)
    (h : T.storedIn s) : ∃ w, readNode s T.index = .ok w ∧ isLeafWord w = !T.isInner := by
  cases T with
  | leaf i sym => exact ⟨_, (element_ok_iff ..).2 h.2, isLeafWord_leafWord sym⟩
  | inner i l r =>
    have hl : l.index < 512 := Nat.lt_trans (CodeTree.storedIn_index_lt h.2.2.1) (Nat.lt_succ_of_le hc)
    have hr : r.index < 512 := Nat.lt_trans (CodeTree.storedIn_index_lt h.2.2.2) (Nat.lt_succ_of_le hc)
    exact ⟨_, (element_ok_iff ..).2 h.2.1, isLeafWord_innerWord _ _ hl hr⟩

/-- The bits of the string from index `i` on are `bs`. -/
def bitsFrom (s : State) (i : Nat) (bs : List Bool) : Prop :=
  ∀ j, j < bs.length → storedBit s.bitbuf (i + j) = bs[j]?

theorem bitsFrom_cons {s : State} {i : Nat} {b : Bool} {bs : List Bool} (hb : readBit s i = .ok b)
    (h : bitsFrom s (i + 1) bs) : bitsFrom s i (b :: bs) := by
  intro j hj
  cases j with
  | zero =>
    obtain ⟨y, hy, rfl⟩ := (readBit_ok_iff ..).1 hb
    simp [storedBit, hy]
  | succ j =>
    have := h j (by simpa using hj)
    rw [List.getElem?_cons_succ, ← this, Nat.add_right_comm, Nat.add_assoc]

/-- A walk that stands at the vertex reached by `path` and stops: either the bits it still reads end it away from
the root, or one of them completes a symbol too many, or it meets an element that has not been written. -/
theorem decodeWalk_trace {s : State} {T : CodeTree} (hc : s.treeCount.toNat ≤ Config.maxNodes)
    (hroot : T.index = s.root.toNat) (hs : T.storedIn s) (hT : T.isInner = true) {left i k : Nat}
    {path : List Bool} {sub : CodeTree} {e : Stop} (hp : T.descend path = some sub) (hi : sub.isInner = true)
    (hk : k ≤ Config.outCap) (h : decodeWalk s left i sub.index k = .error e) :
    (e = .raiseWalk .corruptPayload s.bitLen ∧ ∃ (steps : List (Byte × List Bool)) (tail bs : List Bool) (at' : CodeTree),
        k + steps.length ≤ Config.outCap ∧ (∀ p ∈ steps, T.leadsTo p.2 p.1) ∧ tail ≠ [] ∧
        T.descend tail = some at' ∧ at'.isInner = true ∧ bs.length = left ∧
        path ++ bs = steps.flatMap (fun p => p.2) ++ tail ∧ bitsFrom s i bs) ∨
      (∃ (steps : List (Byte × List Bool)) (bs : List Bool) (j : Nat),
        e = .raiseWalk .outOverflow (BitVec.ofNat 32 j) ∧ j + 1 = i + bs.length ∧ bs.length ≤ left ∧
        k + steps.length = Config.outCap + 1 ∧ (∀ p ∈ steps, T.leadsTo p.2 p.1) ∧
        path ++ bs = steps.flatMap (fun p => p.2) ∧ bitsFrom s i bs) ∨
      ∃ f, e = .fault f := by
  induction left generalizing i k path sub with
  | zero =>
    unfold decodeWalk at h
    split at h
    · cases h
    · next hne =>
      cases h
      refine .inl ⟨rfl, [], path, [], sub, hk, by simp, ?_, hp, hi, rfl, by simp, fun j hj => absurd hj (by simp)⟩
      rintro rfl
      rw [CodeTree.descend_nil] at hp
      cases hp
      exact hne hroot
  | succ left ih =>
    cases sub with
    | leaf i' sym => cases hi
    | inner n l r =>
      have hsub := CodeTree.storedIn_descend hs hp
      obtain ⟨w, hw, hwl, hwr⟩ := readNode_inner hc hsub
      unfold decodeWalk at h
      rw [show (CodeTree.inner n l r).index = n from rfl, hw] at h
      simp only at h
      split at h
      · next hb =>
        cases h
        obtain ⟨m, he, _⟩ := readBit_error hb
        exact .inr (.inr ⟨_, he⟩)
      · next b hb =>
        obtain ⟨child, hchild, hdesc⟩ : ∃ child : CodeTree,
            (if b = true then rightField w else leftField w) = child.index ∧
              T.descend (path ++ [b]) = some child := by
          refine ⟨if b then r else l, by cases b <;> simp [hwl, hwr], ?_⟩
          rw [CodeTree.descend_append, hp]
          cases b <;> simp [CodeTree.descend]
        rw [hchild] at h
        obtain ⟨y, hy, hyl⟩ := readNode_stored hc (CodeTree.storedIn_descend hs hdesc)
        rw [hy] at h
        simp only at h
        split at h
        · next hleaf =>
          cases child with
          | inner m a c => rw [hyl] at hleaf; cases hleaf
          | leaf m sym =>
            have hlead : T.leadsTo (path ++ [b]) sym := ⟨m, hdesc⟩
            split at h
            · next hkc =>
              cases h
              refine .inr (.inl ⟨[(sym, path ++ [b])], [b], i, rfl, rfl, by simp, by simp [hkc], ?_, by simp,
                bitsFrom_cons hb (fun j hj => absurd hj (by simp))⟩)
              intro p hpm
              rw [List.mem_singleton.1 hpm]
              exact hlead
            · next hkc =>
              split at h
              · next hwalk =>
                cases h
                rw [← hroot] at hwalk
                have hcons : ∀ steps : List (Byte × List Bool), (∀ p ∈ steps, T.leadsTo p.2 p.1) →
                    ∀ p ∈ (sym, path ++ [b]) :: steps, T.leadsTo p.2 p.1 := by
                  intro steps hst p hpm
                  rcases List.mem_cons.1 hpm with rfl | hpm
                  · exact hlead
                  · exact hst p hpm
                rcases ih (path := []) (sub := T) T.descend_nil hT (by omega) hwalk with
                  ⟨he, steps, tail, bs, at', hn, hst, ht, hd, hin, hlen, heq, hbits⟩ |
                    ⟨steps, bs, j, he, hj, hlen, hn, hst, heq, hbits⟩ | hf
                · refine .inl ⟨he, (sym, path ++ [b]) :: steps, tail, b :: bs, at', ?_, hcons _ hst, ht, hd, hin,
                    by simp [hlen], ?_, bitsFrom_cons hb hbits⟩
                  · simp only [List.length_cons]; omega
                  · simp only [List.nil_append] at heq
                    simp [heq]
                · refine .inr (.inl ⟨(sym, path ++ [b]) :: steps, b :: bs, j, he, ?_, by simpa using hlen, ?_,
                    hcons _ hst, ?_, bitsFrom_cons hb hbits⟩)
                  · simp only [List.length_cons]; omega
                  · simp only [List.length_cons]; omega
                  · simp only [List.nil_append] at heq
                    simp [heq]
                · exact .inr (.inr hf)
              · cases h
        · next hleaf =>
          have hin' : child.isInner = true := by
            rw [hyl] at hleaf
            simpa using hleaf
          rcases ih hdesc hin' hk h with
            ⟨he, steps, tail, bs, at', hn, hst, ht, hd, hin, hlen, heq, hbits⟩ |
              ⟨steps, bs, j, he, hj, hlen, hn, hst, heq, hbits⟩ | hf
          · refine .inl ⟨he, steps, tail, b :: bs, at', hn, hst, ht, hd, hin, by simp [hlen], ?_,
              bitsFrom_cons hb hbits⟩
            simpa using heq
          · refine .inr (.inl ⟨steps, b :: bs, j, he, ?_, by simpa using hlen, hn, hst, ?_,
              bitsFrom_cons hb hbits⟩)
            · simp only [List.length_cons]; omega
            · simpa using heq
          · exact .inr (.inr hf)

end Sys2Proof.Machine
end

