-- ==== Sys2Proof/Machine/Script.lean ====
section
/-! DEFINITION. The host-script forms and pseudo-instructions (30_encoding.md R97, R98), as pieces of the
schedule State.inputs. -/

namespace Sys2Proof.Machine

/-- `WR <off>, <value>` (30_encoding.md R97). -/
def scriptWr (off : Nat) (v : Word) : List Input := [.access (.write .bits32 (BitVec.ofNat 17 off) v)]

/-- `RD <off>` (30_encoding.md R97): the value read is the newest response afterwards. -/
def scriptRd (off : Nat) : List Input := [.access (.read .bits32 (BitVec.ofNat 17 off))]

/-- `RUN <cmd>`: `WR CMD, <cmd>` then `POLL` (30_encoding.md R98). -/
def scriptRun (i : Instr) : List Input := scriptWr 0x004 (encode i) ++ [.poll]

/-- `ENCODE` (30_encoding.md R98). -/
def scriptEncode : List Input := scriptRun .build ++ scriptRun .gen ++ scriptRun .pack

/-- `DECOMPRESS` (30_encoding.md R98). -/
def scriptDecompress : List Input := scriptRun .unpack ++ scriptRun .decode

/-- `CLRSTAT` (30_encoding.md R98). -/
def scriptClrStat : List Input := scriptWr 0x008 0x1E#32

/-- `WRFREQ <s>, <n>` (30_encoding.md R98). -/
def scriptWrFreq (s : Nat) (n : Word) : List Input := scriptWr (0x400 + 4 * s) n

/-- `CLRFREQ` (30_encoding.md R98). -/
def scriptClrFreq : List Input := (List.range Config.nsym).flatMap (fun s => scriptWrFreq s 0)

/-- `WRBYTES <off>, "<text>"`: word by word, bytes past the text's end written as 0x00 (30_encoding.md R98). -/
def scriptWrBytes (off : Nat) (text : List Byte) : List Input :=
  (List.range ((text.length + 3) / 4)).flatMap (fun m =>
    scriptWr (off + 4 * m)
      (wordOf (text.getD (4 * m) 0) (text.getD (4 * m + 1) 0) (text.getD (4 * m + 2) 0)
        (text.getD (4 * m + 3) 0)))

end Sys2Proof.Machine
end

