-- ==== Sys2Proof/Tests/Slice0.lean ====
section
/-! SUPPORT. Tests with results taken from spec/ (each docstring names the vector or rule). The witnesses of
the statements stand in Sys2Proof/Tests/Witnesses.lean. -/

namespace Sys2Proof.Machine.Tests

open Sys2Proof Sys2Proof.Machine

/-! ### WellFormed -/

theorem test_wellFormed_read : (PortOp.read .bits32 0x01C#17).wellFormed = true := by decide
/-- 95 V-PORT-2: an 8-bit read. -/
theorem test_illFormed_width8 : (PortOp.read .bits8 0x000#17).wellFormed = false := by decide
theorem test_illFormed_width16 : (PortOp.write .bits16 0x000#17 1).wellFormed = false := by decide
/-- 95 V-PORT-2: a 32-bit read at 0x002. -/
theorem test_illFormed_read_alignment : (PortOp.read .bits32 0x002#17).wellFormed = false := by decide
theorem test_illFormed_write_alignment : (PortOp.write .bits32 0x003#17 1).wellFormed = false := by decide

/-! ### Decode: words written out from 30_encoding.md R90 and R93 -/

theorem test_decode_nop : decode 0b00000000000000000000000000000000#32 = .ok .nop := by decide
theorem test_decode_build : decode 0b00000000000000000000000000000001#32 = .ok .build := by decide
theorem test_decode_gen : decode 0b00000000000000000000000000000010#32 = .ok .gen := by decide
theorem test_decode_pack : decode 0b00000000000000000000000000000011#32 = .ok .pack := by decide
theorem test_decode_unpack : decode 0b00000000000000000000000000000100#32 = .ok .unpack := by decide
theorem test_decode_decode : decode 0b00000000000000000000000000000101#32 = .ok .decode := by decide
/-- 95 V-ILL-2. -/
theorem test_decode_unassigned : decode 0x00000006#32 = .error .unassignedOp := by decide
/-- 95 V-ILL-4. -/
theorem test_decode_reserved : decode 0x80000001#32 = .error .reservedBits := by decide
theorem test_decodeTableWord : decodeTableWord 32 5 = some .decode ∧ decodeTableWord 32 6 = none := by decide

/-! ### Small states -/

/-- What a step or a meaning leaves, if it answers a next state. -/
def left : Host.Outcome State Fault Refusal → Option State
  | .next t => some t
  | .fault _ => none
  | .refused _ => none

/-- All 256 frequencies written, 0 but for the listed ones. -/
def freqTable (l : List (Nat × Word)) : Cells Word :=
  (List.range 256).map (fun s => (s, (Cells.peek l s).getD 0))

/-- The tree of 95 V-BUILD-1. -/
def treeABC : State :=
  { State.reset with
    treeCount := 7
    root := 6
    node := Cells.run 0 [0x80000020#32, 0x80000041#32, 0x80000042#32, 0x80000043#32, 0x00010000#32,
      0x00040002#32, 0x00030005#32]
    nodeFreq := Cells.run 0 [1, 1, 1, 4, 2, 3, 7] }

/-- The codes of 95 V-GEN-1. -/
def codesABC : State :=
  { treeABC with
    codeTab := [(0x20, ⟨true, 3⟩), (0x41, ⟨true, 3⟩), (0x42, ⟨true, 2⟩), (0x43, ⟨true, 1⟩)]
    codeImg := some [(32 * 0x20, 0x40), (32 * 0x41, 0x60), (32 * 0x43, 0x80)] }

/-! ### One command (95_test_vectors.md) -/

/-- 95 V-NOP-1. -/
theorem test_nop : (left (step ({ State.reset with err := true, errCode := 5, errInfo := 2 }.withFetchWord 32 0))).map
    (fun t => (t.statusWord, t.errInfo, t.cmd)) = some (0x00000002, 0, 0) := by decide

/-- 95 V-ILL-1. -/
theorem test_illegal : (left (step (State.reset.withFetchWord 32 0x10))).map
    (fun t => (t.statusWord, t.errInfo, t.cmd)) = some (0x00000104, 0x10, 0x10) := by decide

/-- 95 V-BUILD-5: "abracadabra", a leaf before a merged node on a tie. -/
theorem test_build : (left (exec .build { State.reset with
      freq := freqTable [(0x61, 5), (0x62, 2), (0x63, 1), (0x64, 1), (0x72, 2)] })).map
    (fun t => (t.treeCount, t.root, t.node.drop 5, t.nodeFreq.drop 5)) =
      some (9, 8, [(5, 0x00030002), (6, 0x00040001), (7, 0x00060005), (8, 0x00070000)],
        [(5, 2), (6, 4), (7, 6), (8, 11)]) := by decide +kernel

/-- 95 V-BUILD-7. -/
theorem test_build_overflow : (left (exec .build { State.reset with
      freq := freqTable [(0x10, 0xFFFFFFFF), (0x20, 1)] })).map
    (fun t => (t.statusWord, t.errInfo, t.node)) = some (0x00000304, 0x20, []) := by decide +kernel

/-- 95 V-GEN-1. -/
theorem test_gen : (left (exec .gen treeABC)).map (fun t => (t.codeTab, t.codeImg)) =
    some (codesABC.codeTab, codesABC.codeImg) := by decide +kernel

/-- 95 V-GEN-6: symbol 0x61 in two leaves. -/
theorem test_gen_duplicate : (left (exec .gen { State.reset with
      treeCount := 3, root := 2, node := Cells.run 0 [0x80000061, 0x80000061, 0x00010000] })).map
    (fun t => (t.statusWord, t.errInfo)) = some (0x00000404, 1) := by decide

/-- 95 V-PACK-1. -/
theorem test_pack : (left (exec .pack { codesABC with
      textLen := 7, textIn := Cells.run 0 [0x41, 0x42, 0x43, 0x20, 0x43, 0x43, 0x43] })).map
    (fun t => (t.payload, t.payloadLen)) = some (Cells.run 0 [0x04, 0x65, 0x70], 3) := by decide +kernel

/-- 95 V-PACK-7. -/
theorem test_pack_missing : (left (exec .pack { codesABC with
      textLen := 3, textIn := Cells.run 0 [0x41, 0x42, 0x44] })).map
    (fun t => (t.statusWord, t.errInfo, t.payload)) = some (0x00000504, 2, []) := by decide

/-- 95 V-UNPACK-6: nonzero padding is ignored. -/
theorem test_unpack : (left (exec .unpack { State.reset with
      payloadLen := 3, payload := Cells.run 0 [0x06, 0xAF, 0xC3] })).map
    (fun t => (t.bitbuf, t.bitLen)) = some (Cells.run 0 [0xAF, 0xC0], 14) := by decide

/-- 95 V-UNPACK-4: header 0 with a data byte means 8 bits. -/
theorem test_unpack_full : (left (exec .unpack { State.reset with
      payloadLen := 2, payload := Cells.run 0 [0x00, 0x1B] })).map
    (fun t => (t.bitbuf, t.bitLen)) = some (Cells.run 0 [0x1B], 8) := by decide

/-- 95 V-DECODE-1. -/
theorem test_decode : (left (exec .decode { treeABC with
      bitLen := 12, bitbuf := Cells.run 0 [0x65, 0x70] })).map
    (fun t => (t.textOut, t.outLen)) =
      some (Cells.run 0 [0x41, 0x42, 0x43, 0x20, 0x43, 0x43, 0x43], 7) := by decide +kernel

/-- 95 V-DECODE-5: the walk ends away from the root. -/
theorem test_decode_corrupt : (left (exec .decode { treeABC with
      bitLen := 2, bitbuf := Cells.run 0 [0x65], outLen := 3, textOut := Cells.run 0 [1, 2, 3] })).map
    (fun t => (t.statusWord, t.errInfo, t.outLen, t.textOut)) = some (0x00000904, 2, 0, []) := by decide

/-! ### The host port (95_test_vectors.md) -/

/-- 95 V-PORT-5: byte order. -/
theorem test_port_bytes : (memWrite State.reset 0x10000#17 0x20434241#32).textIn =
    Cells.run 0 [0x41, 0x42, 0x43, 0x20] := by decide

/-- 95 V-PORT-4: reserved offsets read 0. -/
theorem test_port_reserved : [0x02C#17, 0xFFC#17, 0x17FC#17, 0x1C00#17, 0x8000#17].map (memRead treeABC) =
    [0, 0, 0, 0, 0] := by decide

/-- 95 V-GEN-1: CODE word of 0x41 and image word 0 of 0x20. -/
theorem test_port_code : (memRead codesABC 0x1904#17, memRead codesABC 0x2400#17) =
    (0x80000003#32, 0x00000040#32) := by decide

/-- 95 V-BUSY-1 (b): the second CMD write comes while the first command runs. -/
theorem test_busy_cmd : (left (step { State.reset with
      busy := true, cmd := 1, inputs := scriptWr 0x004 2 })).map (fun t => (t.statusWord, t.cmd)) =
    some (0x00000009, 1) := by decide

/-- 95 V-ACK-1. -/
theorem test_acknowledge : (left (step { State.reset with
      err := true, errCode := 5, errInfo := 2, inputs := scriptWr 0x008 4 })).map
    (fun t => (t.statusWord, t.errInfo)) = some (0x00000000, 2) := by decide

/-! ### The interface -/

theorem test_core_step : Sys2Proof.core.step = step := rfl

end Sys2Proof.Machine.Tests
end

