-- ==== Sys2Proof/Tests/Witnesses.lean ====
section
/-! SUPPORT. For every statement with hypotheses, a concrete state and operands that meet all of them, and
for statements with several clauses one for each clause at the ends of its range. -/

namespace Sys2Proof.Machine.Tests

open Sys2Proof Sys2Proof.Machine

/-! ### Pieces -/

/-- A busy block with a command and a schedule. -/
def busyWith (w : Word) (inputs : List Input) : State :=
  { State.reset with busy := true, cmd := w, inputs := inputs }

/-- An idle block with a schedule. -/
def idleWith (inputs : List Input) : State := { State.reset with inputs := inputs }

/-- The tree of `treeABC`. -/
def shapeABC : CodeTree :=
  .inner 6 (.inner 5 (.leaf 2 0x42) (.inner 4 (.leaf 0 0x20) (.leaf 1 0x41))) (.leaf 3 0x43)

theorem treeABC_held : TreeHeld treeABC shapeABC where
  count_le := by decide
  root_eq := by decide
  stored := ⟨by decide, by decide, ⟨by decide, by decide, ⟨by decide, by decide⟩,
    by decide, by decide, ⟨by decide, by decide⟩, by decide, by decide⟩, by decide, by decide⟩
  indices_nodup := by decide
  symbols_nodup := by decide

theorem treeABC_leads : shapeABC.leadsTo [false, true, true] 0x41 ∧ shapeABC.leadsTo [true] 0x43 :=
  ⟨⟨1, by decide⟩, ⟨3, by decide⟩⟩

/-- A tree of one leaf. -/
def oneLeaf : State := { State.reset with treeCount := 1, node := [(0, 0x80000041#32)], nodeFreq := [(0, 4)] }

theorem oneLeaf_held : TreeHeld oneLeaf (.leaf 0 0x41) where
  count_le := by decide
  root_eq := by decide
  stored := ⟨by decide, by decide⟩
  indices_nodup := by decide
  symbols_nodup := by decide

/-- Two leaves, codes 0 and 1. -/
def twoLeaves : State :=
  { State.reset with treeCount := 3, root := 2, node := Cells.run 0 [0x80000061#32, 0x80000062#32, 0x00010000#32] }

theorem twoLeaves_held : TreeHeld twoLeaves (.inner 2 (.leaf 0 0x61) (.leaf 1 0x62)) where
  count_le := by decide
  root_eq := by decide
  stored := ⟨by decide, by decide, ⟨by decide, by decide⟩, by decide, by decide⟩
  indices_nodup := by decide
  symbols_nodup := by decide

/-- Frequencies by symbol. -/
def freqsOf (l : List (Nat × Word)) (i : Nat) : Word := (Cells.peek l i).getD 0

theorem freqTable_given (s : State) (l : List (Nat × Word)) (h : s.freq = freqTable l) :
    FreqGiven s (freqsOf l) := by
  intro i hi
  have key : ∀ n i, i < n → Cells.peek ((List.range' 0 n).map (fun s => (s, freqsOf l s))) i = some (freqsOf l i) := by
    intro n
    induction n with
    | zero => intro i hi; omega
    | succ n ih =>
      intro i hi
      rw [List.range'_concat, List.map_append, Cells.peek_append]
      rcases Nat.lt_or_ge i n with hlt | hge
      · rw [ih i hlt]; rfl
      · obtain rfl : i = n := by omega
        rw [Cells.peek_of_bounds (by simp; omega)]
        simp [Cells.peek]
  rw [h, freqTable, List.range_eq_range']
  exact key 256 i hi

/-- A run of equal elements is written throughout. -/
theorem peek_replicate {α : Type} (n : Nat) (v : α) (i : Nat) (h : i < n) :
    Cells.peek (Cells.run 0 (List.replicate n v)) i = some v := by
  rw [Cells.peek_run, if_pos (Nat.zero_le _)]
  simp [h]

theorem getElem?_replicate_of_lt {α : Type} {n i : Nat} {v : α} (h : i < n) :
    (List.replicate n v)[i]? = some v := by
  simp [h]

theorem bitOf_zero (i : Nat) : bitOf 0 i = false := by
  unfold bitOf
  exact BitVec.getLsbD_zero

/-! ### Steps and the life of a command -/

theorem witness_StepRunsTheDecodedCommand :
    (busyWith 1 [.engine]).busy = true ∧ decode (busyWith 1 [.engine]).cmd = .ok .build ∧
      Instr.wellFormed .build = true ∧ (busyWith 1 [.engine]).inputs = .engine :: [] ∧
      (busyWith 1 []).inputs = [] ∧ (busyWith 1 [.poll]).inputs = .poll :: [] := by decide

theorem witness_StepWhileIdle :
    (idleWith []).busy = false ∧ (idleWith []).inputs = [] ∧ (idleWith [.engine]).inputs = .engine :: [] ∧
      (idleWith [.poll]).inputs = .poll :: [] := by decide

theorem witness_IllegalWordEndsWithIllegalCmd :
    (busyWith 0x10 [.engine]).busy = true ∧ (busyWith 0x10 [.engine]).inputs = .engine :: [] ∧
      (busyWith 0x10 [.engine]).cmd.toNat / 16 ≠ 0 ∧ 6 ≤ (busyWith 0x6 [.engine]).cmd.toNat % 16 ∧
      6 ≤ (busyWith 0xF [.engine]).cmd.toNat % 16 := by decide

theorem witness_CmdWriteIsAcceptedWhenIdle :
    (idleWith (scriptWr 4 1)).inputs = .access (.write .bits32 0x004#17 1) :: [] ∧
      (idleWith (scriptWr 4 1)).busy = false ∧
      (busyWith 1 (scriptWr 4 2)).inputs = .access (.write .bits32 0x004#17 2) :: [] ∧
      (busyWith 1 (scriptWr 4 2)).busy = true := by decide

theorem witness_NopIsAFullCommand :
    (idleWith [.access (.write .bits32 0x004#17 0#32), .engine]).busy = false ∧
      (idleWith [.access (.write .bits32 0x004#17 0#32), .engine]).inputs =
        .access (.write .bits32 0x004#17 0x00000000#32) :: .engine :: [] := by decide

theorem witness_EngineLeavesIdleOnlyByAcceptance :
    (∃ t, step (idleWith (scriptWr 4 1)) = .next t ∧ (idleWith (scriptWr 4 1)).busy = false ∧ t.busy = true) ∧
      (∃ t, step (busyWith 0 [.engine]) = .next t ∧ (busyWith 0 [.engine]).busy = true ∧ t.busy = false) ∧
      ∃ t, step (busyWith 0 [.reset]) = .next t ∧ t.busy = false :=
  ⟨⟨_, rfl, by decide, by decide⟩, ⟨_, rfl, by decide, by decide⟩, ⟨_, rfl, by decide⟩⟩

theorem witness_CommandEndsWithDoneOrErr :
    (busyWith 0 []).err = false ∧ exec .nop (busyWith 0 []) = .next (busyWith 0 []).succeed := ⟨by decide, rfl⟩

/-- An error that is precise: 95 V-UNPACK-11. A walk error: 95 V-DECODE-5. -/
theorem witness_ErrorsArePrecise :
    (∃ t, State.reset.err = false ∧ exec .unpack State.reset = .next t ∧ t.err = true) ∧
      ∃ t, treeABC.err = false ∧
        exec .decode { treeABC with bitLen := 2, bitbuf := [(0, 0x65)] } = .next t ∧ t.err = true :=
  ⟨⟨_, by decide, rfl, by decide⟩, ⟨_, by decide, rfl, by decide⟩⟩

/-- One error for each command that has one (NOP has none). -/
theorem witness_ErrorCodesOfEachCommand :
    (∃ t, exec .build { State.reset with freq := freqTable [] } = .next t ∧ t.err = true) ∧
      (∃ t, exec .gen { State.reset with treeCount := 512 } = .next t ∧ t.err = true) ∧
      (∃ t, exec .pack { State.reset with textLen := 16385 } = .next t ∧ t.err = true) ∧
      (∃ t, exec .unpack State.reset = .next t ∧ t.err = true) ∧
      ∃ t, exec .decode { State.reset with bitLen := 131073 } = .next t ∧ t.err = true := by
  refine ⟨?_, ⟨_, rfl, by decide⟩, ⟨_, rfl, by decide⟩, ⟨_, rfl, by decide⟩, ⟨_, rfl, by decide⟩⟩
  have h : (left (exec .build { State.reset with freq := freqTable [] })).map (fun t => t.err) = some true := by
    decide +kernel
  cases he : exec .build { State.reset with freq := freqTable [] } with
  | next t => rw [he] at h; exact ⟨t, rfl, by simpa [left] using h⟩
  | fault f => rw [he] at h; cases h
  | refused r => rw [he] at h; cases h

/-- The other codes: 5 (95 V-PACK-7), 7 (header 8), 4 and 10 and 9 of DECODE (no tree, a count of 16385, a single
leaf with bits, a walk that ends away from the root); 3 is `test_build_overflow`. -/
theorem witness_ErrorCodesOfEachCommand_codes :
    (∃ t, exec .pack { codesABC with textLen := 3, textIn := Cells.run 0 [0x41, 0x42, 0x44] } = .next t ∧
        t.errCode = 5) ∧
      (∃ t, exec .unpack { State.reset with payloadLen := 2, payload := [(0, 8)] } = .next t ∧ t.errCode = 7) ∧
      (∃ t, exec .decode { State.reset with bitLen := 1 } = .next t ∧ t.errCode = 4) ∧
      (∃ t, exec .decode { oneLeaf with nodeFreq := [(0, 16385)] } = .next t ∧ t.errCode = 10) ∧
      (∃ t, exec .decode { oneLeaf with bitLen := 1 } = .next t ∧ t.errCode = 9) ∧
      ∃ t, exec .decode { treeABC with bitLen := 2, bitbuf := [(0, 0x65)] } = .next t ∧ t.errCode = 9 :=
  ⟨⟨_, rfl, by decide⟩, ⟨_, rfl, by decide⟩, ⟨_, rfl, by decide⟩, ⟨_, rfl, by decide⟩, ⟨_, rfl, by decide⟩,
    ⟨_, rfl, by decide⟩⟩

theorem witness_CommandsWriteOnlyTheirOwnResults : ∃ t, exec .gen treeABC = .next t := ⟨_, rfl⟩

theorem witness_CodeTableChangesOnlyByGenOrReset :
    (∃ t, step { treeABC with busy := true, cmd := 2 } = .next t ∧ t.codeImg ≠ treeABC.codeImg) ∧
      (∃ t, step { treeABC with busy := true, cmd := 2, inputs := [.engine] } = .next t ∧
        t.codeImg ≠ treeABC.codeImg) ∧
      (∃ t, step { treeABC with busy := true, cmd := 2, inputs := [.poll] } = .next t ∧
        t.codeImg ≠ treeABC.codeImg) ∧
      ∃ t, step { codesABC with inputs := [.reset] } = .next t ∧ t.codeImg ≠ codesABC.codeImg :=
  ⟨⟨_, rfl, by simp [State.succeed, State.writeCodes, treeABC, State.reset]⟩,
    ⟨_, rfl, by simp [State.succeed, State.writeCodes, treeABC, State.reset]⟩,
    ⟨_, rfl, by simp [State.succeed, State.writeCodes, treeABC, State.reset]⟩,
    ⟨_, rfl, by simp [State.resetInput, codesABC, State.reset]⟩⟩

theorem witness_BuildStopsAtAnUnwrittenFrequency :
    (State.reset.freq.peek 0 = none ∧ ∀ j, j < 0 → (State.reset.freq.peek j).isSome) ∧
      ∃ s : State, s.freq.peek 255 = none ∧ ∀ j, j < 255 → (s.freq.peek j).isSome := by
  refine ⟨⟨rfl, fun j hj => absurd hj (Nat.not_lt_zero j)⟩, ?_⟩
  refine ⟨{ State.reset with freq := Cells.run 0 (List.replicate 255 1) }, ?_, fun j hj => ?_⟩
  · simp only [Cells.peek_run]; rfl
  · simp only; rw [peek_replicate _ _ _ hj]; rfl

/-- Everything a command reads has been written. -/
def allWritten : State :=
  { State.reset with
    freq := Cells.run 0 (List.replicate 256 1)
    node := Cells.run 0 (List.replicate 511 0)
    nodeFreq := Cells.run 0 (List.replicate 511 0)
    codeImg := some []
    textIn := Cells.run 0 (List.replicate 16384 0)
    payload := Cells.run 0 (List.replicate 16384 0)
    bitbuf := Cells.run 0 (List.replicate 16384 0) }

theorem witness_WrittenStorageNeverStops : AllWritten allWritten where
  freq i h := by simp only [allWritten]; rw [peek_replicate _ _ _ h]; rfl
  node i h := by simp only [allWritten]; rw [peek_replicate _ _ _ h]; rfl
  nodeFreq i h := by simp only [allWritten]; rw [peek_replicate _ _ _ h]; rfl
  code := rfl
  textIn i h := by simp only [allWritten]; rw [peek_replicate _ _ _ h]; rfl
  payload i h := by simp only [allWritten]; rw [peek_replicate _ _ _ h]; rfl
  bitbuf i h := by simp only [allWritten]; rw [peek_replicate _ _ _ h]; rfl

theorem witness_CommandsStopOnlyOnUnwrittenElements : exec .build State.reset = .fault (.unwritten .freq 0) := rfl

/-! ### Host port -/

theorem witness_MalformedAccessGetsABusError :
    Width.bits8 ≠ .bits32 ∧ (0x002#17 : Offset).toNat % 4 ≠ 0 ∧
      (idleWith [.access (.read .bits8 0x000#17)]).inputs = .access (.read .bits8 0x000#17) :: [] ∧
      (idleWith [.access (.write .bits32 0x002#17 1)]).inputs = .access (.write .bits32 0x002#17 1) :: [] := by
  decide

/-- The first and last offsets of each region of 20_memory.md R60 are multiples of 4 inside the window. -/
theorem witness_HostReadWhileIdle :
    (idleWith (scriptRd 0x400)).busy = false ∧
      (idleWith (scriptRd 0x400)).inputs = .access (.read .bits32 0x400#17) :: [] ∧
      (0x7FC#17 : Offset).toNat = 0x400 + 4 * 255 ∧ (0xFF8#17 : Offset).toNat = 0x800 + 4 * 510 ∧
      (0x17F8#17 : Offset).toNat = 0x1000 + 4 * 510 ∧ (0x1BFC#17 : Offset).toNat = 0x1800 + 4 * 255 ∧
      (0x3FFC#17 : Offset).toNat = 0x2000 + 32 * 255 + 4 * 7 ∧
      (0x13FFC#17 : Offset).toNat = 0x10000 + 4 * 4095 ∧ (0x17FFC#17 : Offset).toNat = 0x14000 + 4 * 4095 ∧
      (0x1BFFC#17 : Offset).toNat = 0x18000 + 4 * 4095 ∧ (0x1FFFC#17 : Offset).toNat = 0x1C000 + 4 * 4095 ∧
      Cells.peek treeABC.node 6 = some 0x00030005#32 ∧ codesABC.codeImg ≠ none ∧
      [0x02C#17, 0x3FC#17, 0xFFC#17, 0x17FC#17, 0x1C00#17, 0x1FFC#17, 0x4000#17, 0xFFFC#17].all
        (fun o : Offset => locate o == .reserved) = true := by decide

theorem witness_HostWriteWhileIdle :
    (idleWith (scriptWr 0x14 7)).busy = false ∧
      (idleWith (scriptWr 0x14 7)).inputs = .access (.write .bits32 0x014#17 7) :: [] ∧
      [(0x400#17, Loc.freq 0), (0x7FC#17, .freq 255), (0x800#17, .node 0), (0xFF8#17, .node 510),
        (0x1000#17, .nodeFreq 0), (0x17F8#17, .nodeFreq 510), (0x10000#17, .textIn 0),
        (0x13FFC#17, .textIn 4095), (0x14000#17, .payload 0), (0x17FFC#17, .payload 4095),
        (0x18000#17, .bitbuf 0), (0x1BFFC#17, .bitbuf 4095)].all
        (fun p : Offset × Loc => locate p.1 == p.2 && p.1.toNat % 4 == 0) = true := by decide

theorem witness_WriteLeavesEveryOtherOffset :
    (0x400#17 : Offset).toNat % 4 = 0 ∧ (0x404#17 : Offset).toNat % 4 = 0 ∧ (0x400#17 : Offset) ≠ 0x404#17 ∧
      (0x400#17 : Offset) ≠ 0x004#17 := by decide

theorem witness_ReadBackOfAWrite :
    [0x014#17, 0x028#17, 0x400#17, 0xFF8#17, 0x1000#17, 0x17F8#17, 0x10000#17, 0x1BFFC#17].all
      (fun o : Offset => o.toNat % 4 == 0) = true ∧ (0x400#17 : Offset).toNat = 0x400 ∧
      (0xFF8#17 : Offset).toNat < 0xFFC ∧ (0x17F8#17 : Offset).toNat < 0x17FC ∧
      (0x1BFFC#17 : Offset).toNat < 0x1C000 := by decide

theorem witness_BusyInterlock :
    (busyWith 1 (scriptWr 0x400 7)).busy = true ∧
      (busyWith 1 (scriptWr 0x400 7)).inputs = .access (.write .bits32 0x400#17 7) :: [] ∧
      (busyWith 1 (scriptWr 0x010 1)).inputs = .access (.write .bits32 0x010#17 1) :: [] ∧
      (busyWith 1 (scriptRd 0x000)).inputs = .access (.read .bits32 0x000#17) :: [] ∧
      (busyWith 1 (scriptRd 0x004)).inputs = .access (.read .bits32 0x004#17) :: [] ∧
      (busyWith 1 (scriptRd 0x008)).inputs = .access (.read .bits32 0x008#17) :: [] ∧
      (busyWith 1 (scriptRd 0x010)).inputs = .access (.read .bits32 0x010#17) :: [] ∧
      (busyWith 1 (scriptRd 0x00C)).inputs = .access (.read .bits32 0x00C#17) :: [] ∧
      (busyWith 1 (scriptRd 0x1FFFC)).inputs = .access (.read .bits32 0x1FFFC#17) :: [] := by decide

theorem witness_IrqEnableWrite :
    (busyWith 1 (scriptWr 0x010 1)).inputs = .access (.write .bits32 0x010#17 1) :: [] := by decide

theorem witness_ErrorAcknowledgement :
    (idleWith (scriptWr 0x008 4)).busy = false ∧
      (idleWith (scriptWr 0x008 4)).inputs = .access (.write .bits32 0x008#17 4) :: [] ∧
      (4#32 : Word).getLsbD 2 = true ∧
      (idleWith (scriptWr 0x004 0)).inputs = .access (.write .bits32 0x004#17 0) :: [] := by decide

theorem witness_InterruptLevel :
    ({ State.reset with done := true, ie := true } : State).err = false ∧ (2#32 : Word).getLsbD 1 = true ∧
      (4#32 : Word).getLsbD 2 = true ∧ (0#32 : Word).getLsbD 0 = false ∧
      (∃ t, exec .nop { State.reset with ie := true } = .next t) ∧
      ∃ t, step (busyWith 0 [.engine]) = .next t ∧ (busyWith 0 [.engine]).done = false ∧
        (busyWith 0 [.engine]).err = false ∧ t.done = true :=
  ⟨rfl, by decide, by decide, by decide, ⟨_, rfl⟩, _, rfl, rfl, rfl, rfl⟩

theorem witness_ResetInputResetsEverything : (busyWith 1 [.reset]).inputs = .reset :: [] := rfl

/-! ### BUILD -/

theorem witness_BuildErrors :
    FreqGiven { State.reset with freq := freqTable [] } (freqsOf []) ∧ (∀ i, i < 256 → freqsOf [] i = 0) ∧
      FreqGiven { State.reset with freq := freqTable [(0, 1), (255, 0xFFFFFFFF)] }
        (freqsOf [(0, 1), (255, 0xFFFFFFFF)]) ∧
      freqSum (freqsOf [(0, 1), (255, 0xFFFFFFFF)]) 255 ≤ 0xFFFFFFFF ∧
      0xFFFFFFFF < freqSum (freqsOf [(0, 1), (255, 0xFFFFFFFF)]) 256 :=
  ⟨freqTable_given _ _ rfl, fun _ _ => rfl, freqTable_given _ _ rfl, by decide +kernel, by decide +kernel⟩

/-- One symbol at the greatest frequency (95 V-BUILD-8), and two. -/
theorem witness_BuildResult :
    (FreqGiven { State.reset with freq := freqTable [(0x7F, 0xFFFFFFFF)] } (freqsOf [(0x7F, 0xFFFFFFFF)]) ∧
        presentSymbols (freqsOf [(0x7F, 0xFFFFFFFF)]) = [0x7F] ∧
        freqSum (freqsOf [(0x7F, 0xFFFFFFFF)]) 256 ≤ 0xFFFFFFFF) ∧
      FreqGiven { State.reset with freq := freqTable [(0, 1), (255, 2)] } (freqsOf [(0, 1), (255, 2)]) ∧
        presentSymbols (freqsOf [(0, 1), (255, 2)]) = [0, 255] ∧
        freqSum (freqsOf [(0, 1), (255, 2)]) 256 ≤ 0xFFFFFFFF :=
  ⟨⟨freqTable_given _ _ rfl, by decide +kernel, by decide +kernel⟩, freqTable_given _ _ rfl,
    by decide +kernel, by decide +kernel⟩

/-- The state of `witness_BuildResult` with two symbols: BUILD answers DONE and makes one merge. -/
theorem witness_BuildMergesTheTwoLeastKeys :
    ∃ t, FreqGiven { State.reset with freq := freqTable [(0, 1), (255, 2)] } (freqsOf [(0, 1), (255, 2)]) ∧
      2 = (presentSymbols (freqsOf [(0, 1), (255, 2)])).length ∧
      exec .build { State.reset with freq := freqTable [(0, 1), (255, 2)] } = .next t ∧ t.done = true ∧ 0 + 1 < 2 := by
  have h : (left (exec .build { State.reset with freq := freqTable [(0, 1), (255, 2)] })).map
      (fun t => t.done) = some true := by decide +kernel
  cases he : exec .build { State.reset with freq := freqTable [(0, 1), (255, 2)] } with
  | next t =>
    rw [he] at h
    exact ⟨t, freqTable_given _ _ rfl, by decide +kernel, rfl, by simpa [left] using h, by decide⟩
  | fault f => rw [he] at h; cases h
  | refused r => rw [he] at h; cases h

theorem witness_BuiltTreePassesTreeWF :
    ∃ t, FreqGiven { State.reset with freq := freqTable [(0, 1), (255, 2)] } (freqsOf [(0, 1), (255, 2)]) ∧
      exec .build { State.reset with freq := freqTable [(0, 1), (255, 2)] } = .next t ∧ t.done = true := by
  obtain ⟨t, h₁, _, h₂, h₃, _⟩ := witness_BuildMergesTheTwoLeastKeys
  exact ⟨t, h₁, h₂, h₃⟩

theorem witness_BuildErrors_frequencies :
    ∃ t, FreqGiven { State.reset with freq := freqTable [(0, 1), (255, 2)] } (freqsOf [(0, 1), (255, 2)]) ∧
      freqSum (freqsOf [(0, 1), (255, 2)]) 256 ≤ 0xFFFFFFFF ∧
      exec .build { State.reset with freq := freqTable [(0, 1), (255, 2)] } = .next t ∧ t.done = true := by
  obtain ⟨t, h₁, h₂, h₃⟩ := witness_BuiltTreePassesTreeWF
  exact ⟨t, h₁, by decide +kernel, h₂, h₃⟩

theorem witness_BuildDependsOnFreqOnly :
    ∃ s s' t : State, s ≠ s' ∧ (∀ i, i < 256 → s.freq.peek i = s'.freq.peek i) ∧ exec .build s = .next t ∧
      t.done = true := by
  obtain ⟨t, _, h₂, h₃⟩ := witness_BuiltTreePassesTreeWF
  refine ⟨{ State.reset with freq := freqTable [(0, 1), (255, 2)] },
    { State.reset with freq := freqTable [(0, 1), (255, 2)], root := 9 }, t, ?_, fun _ _ => rfl, h₂, h₃⟩
  exact fun h => by have := congrArg State.root h; exact absurd this (by decide)

/-! ### TreeWF and GEN -/

theorem witness_AcceptedTreesAreFullAndShallow : treeWF treeABC = .ok shapeABC := rfl

theorem witness_GenNamesTheOffendingNode :
    -- TREE_COUNT above 511, and ROOT at TREE_COUNT
    (511 < ({ State.reset with treeCount := 512 } : State).treeCount.toNat) ∧
      (({ twoLeaves with root := 3 } : State).treeCount.toNat ≤ ({ twoLeaves with root := 3 } : State).root.toNat) ∧
      -- reserved bits of a leaf and of an internal root
      ((0x80000161#32).getLsbD 31 = true ∧ (0x80000161#32).extractLsb' 8 23 ≠ 0) ∧
      ((0x00010200#32).getLsbD 31 = false ∧ (0x00010200#32).extractLsb' 9 7 ≠ 0) ∧
      ((0x02010000#32).getLsbD 31 = false ∧ (0x02010000#32).extractLsb' 25 6 ≠ 0) ∧
      -- an internal root in range with a good left leaf
      Cells.peek twoLeaves.node twoLeaves.root.toNat = some (BitVec.ofNat 32 1 <<< 16 ||| BitVec.ofNat 32 0) ∧
      Cells.peek twoLeaves.node 0 = some (0x80000000#32 ||| (0x61#8).setWidth 32) ∧
      twoLeaves.root.toNat < twoLeaves.treeCount.toNat := by decide

/-- The offence clauses: LEFT out of range or the root itself; RIGHT out of range, the root, LEFT again, or a
leaf with the same symbol. -/
theorem witness_GenNamesTheOffendingNode_clauses :
    [({ twoLeaves with node := twoLeaves.node.poke 2 [0x00010003#32] } : State),
      { twoLeaves with node := twoLeaves.node.poke 2 [0x00010002#32] },
      { twoLeaves with node := twoLeaves.node.poke 2 [0x00030000#32] },
      { twoLeaves with node := twoLeaves.node.poke 2 [0x00020000#32] },
      { twoLeaves with node := twoLeaves.node.poke 2 [0x00000000#32] },
      { twoLeaves with node := twoLeaves.node.poke 1 [0x80000061#32] }].map
      (fun s => (left (exec .gen s)).map (fun t => (t.statusWord, t.errInfo))) =
    [some (0x404, 3), some (0x404, 2), some (0x404, 3), some (0x404, 2), some (0x404, 0), some (0x404, 1)] := by
  decide

/-- Reserved bits in a child's word: 95 V-GEN-9 (the left leaf), an internal left child, the right leaf. -/
theorem witness_GenNamesTheOffendingNode_reserved :
    [({ twoLeaves with node := twoLeaves.node.poke 0 [0x80000161#32] } : State),
      { twoLeaves with node := twoLeaves.node.poke 0 [0x02000000#32] },
      { twoLeaves with node := twoLeaves.node.poke 1 [0x80000162#32] }].map
      (fun s => (left (exec .gen s)).map (fun t => (t.statusWord, t.errInfo))) =
    [some (0x404, 0), some (0x404, 0), some (0x404, 1)] := by
  decide

/-- An offence below an internal child: node 4 of the tree ABC has a reserved bit, after the good left leaf 2. -/
theorem witness_GenNamesTheFirstOffence :
    ∃ s : State, s.treeCount ≠ 0 ∧ s.treeCount.toNat ≤ 511 ∧ s.bitLen.toNat ≤ 131072 ∧
      FirstOffence s s.root.toNat [] [] 4 := by
  refine ⟨{ treeABC with node := treeABC.node.poke 4 [0x02010000#32] }, by decide, by decide, by decide, ?_⟩
  refine .inLeft 6 [] [] 5 3 4 (by decide) (by decide) (by decide) (by decide) (by decide) ?_
  refine .inRight 5 [6] [] (.leaf 2 0x42) 4 4 (by decide) (by decide) (by decide) (by decide) (by decide)
    ⟨by decide, by decide⟩ (by decide) (by decide) ?_
  exact .reservedBit 4 _ _ 0x02010000#32 (by decide) (.inr ⟨by decide, .inl (by decide)⟩)

theorem witness_EveryOtherTreeIsBad :
    ∃ s : State, s.treeCount ≠ 0 ∧ (∀ i, i < 511 → (s.node.peek i).isSome) ∧ (¬∃ T, TreeHeld s T) ∧
      s.bitLen.toNat ≤ 131072 := by
  refine ⟨{ allWritten with treeCount := 1, root := 5 }, by decide, fun i hi => ?_, ?_, by decide⟩
  · simp only [allWritten]; rw [peek_replicate _ _ _ hi]; rfl
  · rintro ⟨T, hT⟩
    have hr := hT.root_eq
    have hs := hT.stored
    cases T with
    | leaf i sym =>
      have h5 : i = 5 := hr
      have h1 : i < 1 := hs.1
      omega
    | inner i l r =>
      have h5 : i = 5 := hr
      have h1 : i < 1 := hs.1
      omega

theorem witness_GenGivesEveryLeafItsPath :
    TreeHeld treeABC shapeABC ∧ shapeABC.leadsTo [false, true, true] 0x41 ∧ (0x44 : Byte) ∉ shapeABC.symbols :=
  ⟨treeABC_held, treeABC_leads.1, by decide⟩

theorem witness_GenWithoutATree : State.reset.treeCount = 0 := rfl

theorem witness_GenDependsOnTheReachableNodesOnly :
    ∃ s' : State, s' ≠ treeABC ∧ TreeHeld treeABC shapeABC ∧ s'.treeCount = treeABC.treeCount ∧
      s'.root = treeABC.root ∧ ∀ i ∈ shapeABC.indices, s'.node.peek i = treeABC.node.peek i :=
  ⟨{ treeABC with ie := true }, fun h => absurd (congrArg State.ie h) (by decide), treeABC_held, rfl, rfl,
    fun _ _ => rfl⟩

theorem witness_GeneratedCodesArePrefixFree :
    ∃ t, exec .gen treeABC = .next t ∧ t.done = true ∧ TreeHeld treeABC shapeABC ∧ shapeABC.isInner = true :=
  ⟨_, rfl, rfl, treeABC_held, rfl⟩

/-! ### PACK and UNPACK -/

/-- "CB" with the codes of 95 V-GEN-1. -/
def packCB : State := { codesABC with textLen := 2, textIn := Cells.run 0 [0x43, 0x42] }

theorem packCB_given : TextGiven packCB [0x43, 0x42] :=
  ⟨by decide, by decide, by unfold Cells.holds; decide⟩

theorem packCB_coded : TextCoded packCB [0x43, 0x42] := ⟨by decide, fun h => absurd h (by decide)⟩

theorem witness_PackResult :
    TextGiven packCB [0x43, 0x42] ∧ TextCoded packCB [0x43, 0x42] ∧
      [true, false, false] = packedBits packCB [0x43, 0x42] ∧ 1 = ([true, false, false].length + 7) / 8 :=
  ⟨packCB_given, packCB_coded, by decide, by decide⟩

/-- The empty text right after reset (95 V-PACK-6). -/
theorem witness_PackResult_empty :
    TextGiven State.reset [] ∧ TextCoded State.reset [] ∧ [] = packedBits State.reset [] :=
  ⟨⟨rfl, Nat.zero_le _, fun k hk => absurd hk (Nat.not_lt_zero k)⟩, ⟨by simp, by simp⟩, rfl⟩

/-- 95 V-PACK-7: the third symbol, "D", has no code. -/
theorem witness_PackMissingCode :
    ∃ s : State, s.textLen.toNat ≤ 16384 ∧ [(0x41 : Byte), 0x42].length < s.textLen.toNat ∧
      Cells.holds s.textIn 0 ([0x41, 0x42] ++ [0x44]) ∧
      (∀ c ∈ [(0x41 : Byte), 0x42], (codeEntry s c).valid = true) ∧ (codeEntry s 0x44).valid = false :=
  ⟨{ codesABC with textLen := 3, textIn := Cells.run 0 [0x41, 0x42, 0x44] }, by decide, by decide,
    by unfold Cells.holds; decide, by decide, by decide⟩

/-- TEXT_LEN = 16385, and 514 symbols of 255 bits each: L = 131070. -/
theorem witness_PackLimits :
    16384 < ({ State.reset with textLen := 16385 } : State).textLen.toNat ∧
      ∃ s : State, TextGiven s (List.replicate 514 0) ∧
        (∀ c ∈ List.replicate 514 (0 : Byte), (codeEntry s c).valid = true) ∧
        131070 = ((List.replicate 514 (0 : Byte)).map (fun c => (codeEntry s c).len.toNat)).sum ∧
        16384 < 1 + (131070 + 7) / 8 := by
  refine ⟨by decide, { State.reset with
    codeTab := [(0, ⟨true, 255⟩)], textLen := 514, textIn := Cells.run 0 (List.replicate 514 0) }, ?_, ?_, ?_, by decide⟩
  · refine ⟨by rw [List.length_replicate]; decide, by rw [List.length_replicate]; decide, fun k hk => ?_⟩
    rw [List.length_replicate] at hk
    rw [Nat.zero_add]
    exact (peek_replicate _ _ _ hk).trans (getElem?_replicate_of_lt hk).symm
  · intro c hc
    rw [List.eq_of_mem_replicate hc]
    decide
  · rw [List.map_replicate, List.sum_replicate]
    decide

theorem witness_PackOfZeroLengthCodes :
    ∃ s : State, TextGiven s [0x41, 0x41] ∧
      ∀ c ∈ [(0x41 : Byte), 0x41], codeEntry s c = { valid := true, len := 0 } :=
  ⟨{ State.reset with codeTab := [(0x41, ⟨true, 0⟩)], textLen := 2, textIn := Cells.run 0 [0x41, 0x41] },
    ⟨by decide, by decide, by unfold Cells.holds; decide⟩, by decide⟩

/-- Header 0 with one data byte (8 bits), and header 7 (95 V-UNPACK-4, V-UNPACK-5). -/
theorem witness_UnpackResult :
    (∃ s : State, s.payloadLen.toNat = 1 + [(0x1B : Byte)].length ∧ Cells.holds s.payload 0 [0, 0x1B] ∧
        (0 : Byte).toNat ≤ 7 ∧ 8 = 8 * ([(0x1B : Byte)].length - 1) + (if (0 : Byte) = 0 then 8 else (0 : Byte).toNat)) ∧
      ∃ s : State, s.payloadLen.toNat = 1 + [(0xFF : Byte)].length ∧ Cells.holds s.payload 0 [7, 0xFF] ∧
        (7 : Byte).toNat ≤ 7 ∧ 7 = 8 * ([(0xFF : Byte)].length - 1) + (if (7 : Byte) = 0 then 8 else (7 : Byte).toNat) :=
  ⟨⟨{ State.reset with payloadLen := 2, payload := Cells.run 0 [0, 0x1B] }, by decide,
      by unfold Cells.holds; decide, by decide, by decide⟩,
    ⟨{ State.reset with payloadLen := 2, payload := Cells.run 0 [7, 0xFF] }, by decide,
      by unfold Cells.holds; decide, by decide, by decide⟩⟩

theorem witness_UnpackOfEmptyAndMalformedPayloads :
    (({ State.reset with payloadLen := 1, payload := [(0, 0)] } : State).payloadLen = 1 ∧
        Cells.peek ({ State.reset with payloadLen := 1, payload := [(0, 0)] } : State).payload 0 = some 0) ∧
      State.reset.payloadLen = 0 ∧ 16384 < ({ State.reset with payloadLen := 16385 } : State).payloadLen.toNat ∧
      (Cells.peek ({ State.reset with payloadLen := 2, payload := [(0, 8)] } : State).payload 0 = some 8 ∧
        7 < (8 : Byte).toNat) ∧
      (Cells.peek ({ State.reset with payloadLen := 1, payload := [(0, 3)] } : State).payload 0 = some 3 ∧
        (3 : Byte) ≠ 0) := by decide

theorem witness_UnpackInvertsPack :
    ∃ t, TextGiven packCB [0x43, 0x42] ∧ TextCoded packCB [0x43, 0x42] ∧ exec .pack packCB = .next t ∧
      t.done = true := ⟨_, packCB_given, packCB_coded, rfl, rfl⟩

/-! ### DECODE -/

theorem witness_DecodeWithoutATree :
    State.reset.treeCount = 0 ∧ State.reset.bitLen = 0 ∧
      ({ State.reset with bitLen := 131072 } : State).bitLen ≠ 0 ∧
      ({ State.reset with bitLen := 131072 } : State).bitLen.toNat ≤ 131072 ∧
      131072 < ({ State.reset with bitLen := 131073 } : State).bitLen.toNat := by decide

theorem oneLeaf_held_of (s : State) (h : s.treeCount = 1) (hr : s.root = 0) (hn : s.node = [(0, 0x80000041#32)]) :
    TreeHeld s (.leaf 0 0x41) where
  count_le := by rw [h]; decide
  root_eq := by rw [hr]; decide
  stored := ⟨by rw [h]; decide, by rw [hn]; decide⟩
  indices_nodup := by decide
  symbols_nodup := by decide

theorem witness_DecodeOfASingleLeaf :
    (TreeHeld { oneLeaf with bitLen := 1 } (.leaf 0 0x41) ∧ ({ oneLeaf with bitLen := 1 } : State).bitLen ≠ 0) ∧
      (TreeHeld oneLeaf (.leaf 0 0x41) ∧ oneLeaf.bitLen = 0 ∧ oneLeaf.nodeFreq.peek 0 = some 4 ∧
        (16384#32).toNat ≤ 16384) ∧
      TreeHeld { oneLeaf with nodeFreq := [(0, 16385)] } (.leaf 0 0x41) ∧ 16384 < (16385#32).toNat :=
  ⟨⟨oneLeaf_held_of _ rfl rfl rfl, by decide⟩, ⟨oneLeaf_held, rfl, by decide, by decide⟩,
    oneLeaf_held_of _ rfl rfl rfl, by decide⟩

theorem twoLeaves_held_of (s : State) (h : s.treeCount = 3) (hr : s.root = 2) (hn : s.node = twoLeaves.node) :
    TreeHeld s (.inner 2 (.leaf 0 0x61) (.leaf 1 0x62)) where
  count_le := by rw [h]; decide
  root_eq := by rw [hr]; decide
  stored := ⟨by rw [h]; decide, by rw [hn]; decide, ⟨by rw [h]; decide, by rw [hn]; decide⟩, by rw [h]; decide,
    by rw [hn]; decide⟩
  indices_nodup := by decide
  symbols_nodup := by decide

/-- Two symbols, bits 0 and 1. -/
theorem witness_DecodeEmitsTheLeavesOfThePaths :
    ∃ s : State, TreeHeld s (.inner 2 (.leaf 0 0x61) (.leaf 1 0x62)) ∧
      (∀ p ∈ [((0x61 : Byte), [false]), (0x62, [true])],
        (CodeTree.inner 2 (.leaf 0 0x61) (.leaf 1 0x62)).leadsTo p.2 p.1) ∧
      [false, true] = [((0x61 : Byte), [false]), (0x62, [true])].flatMap (fun p => p.2) ∧
      s.bitLen.toNat = [false, true].length ∧
      ∀ i, i < [false, true].length → storedBit s.bitbuf i = [false, true][i]? := by
  refine ⟨{ twoLeaves with bitLen := 2, bitbuf := [(0, 0x40)] }, twoLeaves_held_of _ rfl rfl rfl, ?_, rfl, by decide,
    by decide⟩
  intro p hp
  simp only [List.mem_cons, List.not_mem_nil, or_false] at hp
  rcases hp with rfl | rfl
  · exact ⟨0, rfl⟩
  · exact ⟨1, rfl⟩

/-- 95 V-DECODE-5 after no symbol: bits `01` end at node 4 of the tree ABC. -/
theorem witness_DecodeWalkErrors_corrupt :
    ∃ (s : State) (tail : List Bool) (sub : CodeTree), TreeHeld s shapeABC ∧ s.bitLen.toNat = tail.length ∧
      (∀ i, i < tail.length → storedBit s.bitbuf i = tail[i]?) ∧ tail ≠ [] ∧
      shapeABC.descend tail = some sub ∧ sub.isInner = true := by
  refine ⟨{ treeABC with bitLen := 2, bitbuf := [(0, 0x65)] }, [false, true], _, ?_, by decide, by decide, by decide,
    rfl, rfl⟩
  exact ⟨by decide, by decide, treeABC_held.stored, by decide, by decide⟩

/-- 16385 symbols of one bit each. -/
theorem witness_DecodeWalkErrors_overflow :
    ∃ (s : State) (steps : List (Byte × List Bool)) (bits : List Bool),
      TreeHeld s (.inner 2 (.leaf 0 0x61) (.leaf 1 0x62)) ∧
      (∀ p ∈ steps, (CodeTree.inner 2 (.leaf 0 0x61) (.leaf 1 0x62)).leadsTo p.2 p.1) ∧
      s.bitLen.toNat ≤ 131072 ∧ (∀ i, i < bits.length → storedBit s.bitbuf i = bits[i]?) ∧
      bits = steps.flatMap (fun p => p.2) ∧ bits.length ≤ s.bitLen.toNat ∧ steps.length = 16385 := by
  refine ⟨{ twoLeaves with bitLen := 16385, bitbuf := Cells.run 0 (List.replicate 2049 0) },
    List.replicate 16385 (0x61, [false]), List.replicate 16385 false, twoLeaves_held_of _ rfl rfl rfl, ?_, by decide,
    ?_, ?_, by rw [List.length_replicate]; decide, List.length_replicate⟩
  · intro p hp
    rw [List.eq_of_mem_replicate hp]
    exact ⟨0, rfl⟩
  · intro i hi
    rw [List.length_replicate] at hi
    rw [getElem?_replicate_of_lt hi]
    unfold storedBit
    exact (congrArg (Option.map (bitOf · (i % 8))) (peek_replicate _ _ _ (by omega))).trans
      (congrArg some (bitOf_zero (i % 8)))
  · have h : ∀ n : Nat, List.replicate n false =
        (List.replicate n ((0x61 : Byte), [false])).flatMap (fun p => p.2) := by
      intro n
      induction n with
      | zero => rfl
      | succ n ih => rw [List.replicate_succ, List.replicate_succ, List.flatMap_cons, ← ih]; rfl
    exact h _

/-! ### Headline results -/

/-- The text "aab". -/
theorem witness_RoundTrip :
    ∃ (s : State) (text : List Byte), text ≠ [] ∧ TextGiven s text ∧
      FreqGiven s (fun i => BitVec.ofNat 32 (text.count (BitVec.ofNat 8 i))) := by
  refine ⟨{ State.reset with
      textLen := 3, textIn := Cells.run 0 [0x61, 0x61, 0x62], freq := freqTable [(0x61, 2), (0x62, 1)] },
    [0x61, 0x61, 0x62], by decide, ⟨by decide, by decide, by unfold Cells.holds; decide⟩, ?_⟩
  intro i hi
  have h := freqTable_given { State.reset with freq := freqTable [(0x61, 2), (0x62, 1)] } _ rfl i hi
  have e : ∀ j : Fin 256, freqsOf [(0x61, 2), (0x62, 1)] j =
      BitVec.ofNat 32 ([(0x61 : Byte), 0x61, 0x62].count (BitVec.ofNat 8 j)) := by decide +kernel
  exact h.trans (congrArg some (e ⟨i, hi⟩))

/-- A state holds its own container image, and so does the state of a host that has restored it. -/
theorem witness_RoundTrip_container :
    ∃ s u : State, s ≠ u ∧ s.treeCount = 3 ∧ SameContainer s u :=
  ⟨twoLeaves, { twoLeaves with textLen := 1 }, fun h => absurd (congrArg State.textLen h) (by decide), rfl,
    ⟨rfl, rfl, fun _ _ => rfl, fun _ _ => rfl, rfl, fun _ _ => rfl⟩⟩

theorem witness_EveryStepKeepsTheInvariant :
    ∃ s t : State, s.Inv ∧ PrefixFree s ∧ step s = .next t := by
  refine ⟨State.reset, State.reset, ?_, ?_, rfl⟩
  · constructor <;> first
      | decide
      | exact fun _ _ _ h => nomatch h
  · intro a b _ ha
    cases ha

end Sys2Proof.Machine.Tests
end

section
/-! PROOFS. The code table as GEN leaves it (41_code_gen.md R131, R132): which cells it lists, and the bits of the
images it shows. -/

namespace Sys2Proof.Machine

variable {α : Type}

/-! ### Tabulated cells -/

/-- The cells `base + k`, `k < n`, to which `f` gives a value: the shape of the lists GEN writes. -/
def Cells.table (base : Nat) (f : Nat → Option α) (n : Nat) : Cells α :=
  (List.range n).filterMap (fun k => (f k).map (fun v => (base + k, v)))

theorem Cells.mem_table {base n : Nat} {f : Nat → Option α} {c : Nat × α} :
    c ∈ Cells.table base f n ↔ ∃ k, k < n ∧ f k = some c.2 ∧ base + k = c.1 := by
  simp [Cells.table, Prod.ext_iff, and_comm]

theorem Cells.table_succ (base n : Nat) (f : Nat → Option α) :
    Cells.table base f (n + 1) = Cells.table base f n ++ ((f n).map (fun v => (base + n, v))).toList := by
  rw [Cells.table, List.range_succ, List.filterMap_append]
  cases h : f n <;> simp [Cells.table, h]

theorem Cells.within_table (base n : Nat) (f : Nat → Option α) :
    Cells.within (base + n) base (Cells.table base f n) = true := by
  induction n with
  | zero => rfl
  | succ n ih =>
    rw [Cells.table_succ]
    refine Cells.within_append (mid := base + n) (by omega) (by omega) ih ?_
    cases f n <;> simp [Cells.within]

theorem Cells.peek_table (base n i : Nat) (f : Nat → Option α) :
    Cells.peek (Cells.table base f n) i = if base ≤ i ∧ i < base + n then f (i - base) else none := by
  induction n with
  | zero => rw [if_neg (by omega)]; rfl
  | succ n ih =>
    rw [Cells.table_succ, Cells.peek_append, ih]
    by_cases hi : i = base + n
    · subst hi
      cases h : f n <;> simp [Cells.peek, h]
    · have hlast : Cells.peek ((f n).map (fun v => (base + n, v))).toList i = none := by
        cases f n <;> simp [Cells.peek, Ne.symm hi]
      rw [hlast, Option.or_none]
      congr 1
      simp only [eq_iff_iff]
      omega

/-- Blocks of `w` indices each, one after the other, are canonical. -/
theorem Cells.within_blocks {w : Nat} (n : Nat) {block : Nat → Cells α}
    (h : ∀ s, Cells.within (w * s + w) (w * s) (block s) = true) :
    Cells.within (w * n) 0 ((List.range n).flatMap block) = true := by
  induction n with
  | zero => rfl
  | succ n ih =>
    rw [List.range_succ, List.flatMap_append, List.flatMap_singleton]
    exact Cells.within_append (Nat.zero_le _) (Nat.mul_le_mul_left w (Nat.le_succ n)) ih (h n)

/-- An index is looked up in its own block. -/
theorem Cells.peek_blocks {w : Nat} (n s k : Nat) {block : Nat → Cells α}
    (h : ∀ s, Cells.within (w * s + w) (w * s) (block s) = true) (hs : s < n) (hk : k < w) :
    Cells.peek ((List.range n).flatMap block) (w * s + k) = (block s).peek (w * s + k) := by
  induction n with
  | zero => omega
  | succ n ih =>
    rw [List.range_succ, List.flatMap_append, List.flatMap_singleton, Cells.peek_append]
    rcases Nat.lt_or_ge s n with hlt | hge
    · have hnext : w * s + w ≤ w * n := by simpa [Nat.mul_succ] using Nat.mul_le_mul_left w hlt
      have hout : (block n).peek (w * s + k) = none :=
        Cells.peek_of_bounds (fun c hc => by have := Cells.bounds_of_within (h n) c hc; omega)
      rw [hout, Option.or_none, ih hlt]
    · obtain rfl : s = n := by omega
      rw [Cells.peek_beyond (Cells.within_blocks s h) (by omega), Option.none_or]

/-! ### CODE_VALID, CODE_LEN and the images after GEN -/

/-- The entry of CODE_VALID and CODE_LEN that GEN writes for a code. -/
def entryOfCode (path : List Bool) : CodeEntry := { valid := true, len := BitVec.ofNat 8 path.length }

theorem codeTable_eq_table (codes : List (Byte × List Bool)) :
    codeTable codes =
      Cells.table 0 (fun s => (codeFor codes (BitVec.ofNat 8 s)).map entryOfCode) Config.nsym := by
  simp [codeTable, Cells.table, entryOfCode, Function.comp_def]

@[simp] theorem codeEntry_writeCodes (s : State) (codes : List (Byte × List Bool)) (sym : Byte) :
    codeEntry (s.writeCodes codes) sym = ((codeFor codes sym).map entryOfCode).getD noCode := by
  have hsym : sym.toNat < 256 := sym.isLt
  simp [codeEntry, codeTable_eq_table, Cells.peek_table, hsym]

/-- The byte of an image that GEN lists: one that is not 0. -/
def imageCell (codes : List (Byte × List Bool)) (s k : Nat) : Option Byte :=
  (codeFor codes (BitVec.ofNat 8 s)).bind (fun p => if imageByte p k = 0 then none else some (imageByte p k))

theorem codeImages_eq_blocks (codes : List (Byte × List Bool)) :
    codeImages codes = (List.range Config.nsym).flatMap (fun s =>
      Cells.table (Config.imageBytes * s) (imageCell codes s) Config.imageBytes) := by
  unfold codeImages
  congr 1
  funext s
  cases h : codeFor codes (BitVec.ofNat 8 s) with
  | none => simp [Cells.table, imageCell, h]
  | some p =>
    simp only [Cells.table, imageCell, h, Option.bind_some]
    congr 1
    funext k
    split <;> rfl

theorem codeImages_wf (codes : List (Byte × List Bool)) :
    Memory.wf (Config.imageBytes * Config.nsym) (codeImages codes) = true := by
  rw [codeImages_eq_blocks]
  exact Cells.within_blocks _ (fun s => Cells.within_table ..)

theorem codeImages_ne_zero (codes : List (Byte × List Bool)) : ∀ c ∈ codeImages codes, c.2 ≠ 0 := by
  intro c hc
  rw [codeImages_eq_blocks, List.mem_flatMap] at hc
  obtain ⟨s, _, hc⟩ := hc
  obtain ⟨k, _, hcell, _⟩ := Cells.mem_table.1 hc
  obtain ⟨p, _, hbyte⟩ := Option.bind_eq_some_iff.1 hcell
  split at hbyte
  · cases hbyte
  · next hne => exact Option.some.inj hbyte ▸ hne

theorem peek_codeImages (codes : List (Byte × List Bool)) (sym : Byte) (k : Nat) (hk : k < Config.imageBytes) :
    (Cells.peek (codeImages codes) (Config.imageBytes * sym.toNat + k)).getD 0 =
      imageByte ((codeFor codes sym).getD []) k := by
  have hsym : sym.toNat < Config.nsym := sym.isLt
  rw [codeImages_eq_blocks, Cells.peek_blocks _ _ _ (fun s => Cells.within_table ..) hsym hk, Cells.peek_table,
    if_pos ⟨by omega, by omega⟩, Nat.add_sub_cancel_left]
  cases h : codeFor codes sym with
  | none => simp [imageCell, h, imageByte, byteOfBits_nil]
  | some p => by_cases hz : imageByte p k = 0#8 <;> simp [imageCell, h, hz]

/-- Bit j of an image after GEN is bit j of the symbol's code, and 0 past its end or without a code
(41_code_gen.md R132). -/
theorem imageBit_codeImages (codes : List (Byte × List Bool)) (sym : Byte) (j : Nat)
    (hj : j < 8 * Config.imageBytes) :
    imageBit (codeImages codes) sym j = ((codeFor codes sym).getD []).getD j false := by
  rw [imageBit, peek_codeImages _ _ _ (Nat.div_lt_of_lt_mul hj), imageByte, bitOf_byteOfBits _ _ (by omega)]
  simp [List.getD_eq_getElem?_getD, Nat.div_add_mod]

theorem mem_of_codeFor {codes : List (Byte × List Bool)} {sym : Byte} {p : List Bool}
    (h : codeFor codes sym = some p) : (sym, p) ∈ codes := by
  obtain ⟨c, hc, rfl⟩ := Option.map_eq_some_iff.1 h
  have hkey : c.1 = sym := by simpa using List.find?_some hc
  exact hkey ▸ List.mem_of_find?_eq_some hc

/-- CODE_LEN is the length of the code, which fits its 8 bits. -/
theorem codeEntry_writeCodes_len {s : State} {codes : List (Byte × List Bool)} {sym : Byte}
    (h : ∀ c ∈ codes, c.2.length < 256) :
    (codeEntry (s.writeCodes codes) sym).len.toNat = ((codeFor codes sym).getD []).length := by
  rw [codeEntry_writeCodes]
  cases hp : codeFor codes sym with
  | none => rfl
  | some p => simpa [entryOfCode] using h _ (mem_of_codeFor hp)

end Sys2Proof.Machine
end

section
/-! PROOFS. What TreeWF's walk has seen when it succeeds, how long the paths of its tree are, and what each
command writes when it succeeds. -/

namespace Sys2Proof.Machine

/-! ### TreeWF's walk (40_tree_builder.md R118) -/

/-- A visit that succeeds has come to a fresh leaf, or to a fresh internal node whose two subtrees it has
walked, the left one first. -/
theorem visit_ok {s : State} {depth i : Nat} {seen seen' : Seen} {t : CodeTree}
    (h : visit s (depth + 1) i seen = .ok (t, seen')) :
    i < s.treeCount.toNat ∧ i ∉ seen.nodes ∧ ∃ w, s.node.peek i = some w ∧
      ((isLeafWord w = true ∧ leafReservedClear w = true ∧ symField w ∉ seen.syms ∧ t = .leaf i (symField w) ∧
          seen' = { nodes := i :: seen.nodes, syms := symField w :: seen.syms }) ∨
        isLeafWord w = false ∧ innerReservedClear w = true ∧ ∃ l seen₁ r,
          visit s depth (leftField w) { seen with nodes := i :: seen.nodes } = .ok (l, seen₁) ∧
            visit s depth (rightField w) seen₁ = .ok (r, seen') ∧ t = .inner i l r) := by
  unfold visit at h
  split at h
  · cases h
  next hi =>
  split at h
  · cases h
  next hfresh =>
  split at h
  · cases h
  next w hw =>
  refine ⟨Nat.lt_of_not_le hi, hfresh, w, (element_ok_iff ..).1 hw, ?_⟩
  split at h
  · next hleaf =>
    split at h
    · cases h
    next hres =>
    split at h
    · cases h
    next hsym =>
    cases h
    exact .inl ⟨hleaf, by simpa using hres, hsym, rfl, rfl⟩
  · next hinner =>
    split at h
    · cases h
    next hres =>
    split at h
    · cases h
    next l seen₁ hl =>
    split at h
    · cases h
    next r seen₂ hr =>
    cases h
    exact .inr ⟨by simpa using hinner, by simpa using hres, l, seen₁, r, hl, hr, rfl⟩

/-- The walk adds the symbols of its tree to those it has seen, and repeats none. -/
theorem visit_syms {s : State} {depth i : Nat} {seen seen' : Seen} {t : CodeTree}
    (h : visit s depth i seen = .ok (t, seen')) :
    seen'.syms.Perm (t.symbols ++ seen.syms) ∧ (seen.syms.Nodup → seen'.syms.Nodup) := by
  induction depth generalizing i seen seen' t with
  | zero => cases h
  | succ depth ih =>
    obtain ⟨_, _, w, _, ⟨_, _, hsym, rfl, rfl⟩ | ⟨_, _, l, seen₁, r, hl, hr, rfl⟩⟩ := visit_ok h
    · exact ⟨.refl _, .cons hsym⟩
    · obtain ⟨hpl, hnl⟩ := ih hl
      obtain ⟨hpr, hnr⟩ := ih hr
      refine ⟨?_, fun hn => hnr (hnl hn)⟩
      have hswap : (r.symbols ++ (l.symbols ++ seen.syms)).Perm ((l.symbols ++ r.symbols) ++ seen.syms) := by
        rw [← List.append_assoc]
        exact List.perm_append_comm.append_right seen.syms
      exact hpr.trans ((hpl.append_left _).trans hswap)

/-- An accepted tree has no symbol twice (40_tree_builder.md R119). -/
theorem treeWF_symbols_nodup {s : State} {t : CodeTree} (h : treeWF s = .ok t) : t.symbols.Nodup := by
  unfold treeWF at h
  split at h
  · cases h
  split at h
  · cases h
  next hv =>
  cases h
  obtain ⟨hperm, hnodup⟩ := visit_syms hv
  simpa using hperm.nodup (hnodup .nil)

/-! ### The paths of a tree (41_code_gen.md R131) -/

theorem CodeTree.symbols_length_pos (t : CodeTree) : 0 < t.symbols.length := by
  induction t with
  | leaf i sym => simp [CodeTree.symbols]
  | inner i l r ihl ihr => simp only [CodeTree.symbols, List.length_append]; omega

/-- A path is shorter than the number of leaves: each of its steps leaves at least one leaf aside. -/
theorem CodeTree.codes_length_lt (t : CodeTree) (path : List Bool) :
    ∀ c ∈ t.codes path, c.2.length < path.length + t.symbols.length := by
  induction t generalizing path with
  | leaf i sym => simp [CodeTree.codes, CodeTree.symbols]
  | inner i l r ihl ihr =>
    intro c hc
    have hl := l.symbols_length_pos
    have hr := r.symbols_length_pos
    simp only [CodeTree.symbols, List.length_append]
    rcases List.mem_append.1 hc with hc | hc
    · have := ihl _ c hc
      simp only [List.length_append, List.length_singleton] at this
      omega
    · have := ihr _ c hc
      simp only [List.length_append, List.length_singleton] at this
      omega

theorem length_le_of_nodup_bytes {l : List Byte} (h : l.Nodup) : l.length ≤ 256 := by
  have hinj : (l.map BitVec.toFin).Nodup := h.map (fun a b hab => BitVec.eq_of_toFin_eq hab)
  simpa using hinj.length_le_card

/-- GEN's codes fit CODE_LEN and their images (41_code_gen.md R134). -/
theorem codes_length_of_treeWF {s : State} {t : CodeTree} (h : treeWF s = .ok t) :
    ∀ c ∈ t.codes [], c.2.length < 256 := by
  intro c hc
  have hpath := t.codes_length_lt [] c hc
  have hsyms := length_le_of_nodup_bytes (treeWF_symbols_nodup h)
  simp only [List.length_nil] at hpath
  omega

/-! ### The sizes of BUILD's results (40_tree_builder.md R116) -/

theorem gather_length {α β : Type} {f : β → Except Stop α} {xs : List β} {ys : List α}
    (h : gather f xs = .ok ys) : ys.length = xs.length :=
  ((gather_ok_iff f xs ys).1 h).length_eq.symm

theorem presentFrom_length_le (k : Nat) (fs : List Word) : (presentFrom k fs).length ≤ fs.length := by
  induction fs generalizing k with
  | nil => simp [presentFrom]
  | cons f fs ih =>
    have := ih (k + 1)
    unfold presentFrom
    split <;> simp only [List.length_cons] <;> omega

@[simp] theorem leafKeys_length (base : Nat) (ps : List (Byte × Word)) : (leafKeys base ps).length = ps.length := by
  induction ps generalizing base with
  | nil => rfl
  | cons p ps ih => simp [leafKeys, ih]

theorem popLeast_eq_none {pool : List Key} (h : popLeast pool = none) : pool = [] := by
  cases pool with
  | nil => rfl
  | cons k ks =>
    unfold popLeast at h
    split at h
    · cases h
    · split at h <;> cases h

theorem popLeast_length {pool rest : List Key} {m : Key} (h : popLeast pool = some (m, rest)) :
    pool.length = rest.length + 1 := by
  induction pool generalizing m rest with
  | nil => cases h
  | cons k ks ih =>
    unfold popLeast at h
    split at h
    · next hnone =>
      cases h
      rw [popLeast_eq_none hnone]
      rfl
    · next m' rest' hsome =>
      split at h
      · cases h; simp [ih hsome]
      · cases h; rfl

/-- Each merge makes the pool smaller by one, so there are fewer merges than nodes in it. -/
theorem mergeLoop_length_le (rounds next : Nat) (pool : List Key) :
    (mergeLoop rounds next pool).1.length ≤ pool.length - 1 := by
  induction rounds generalizing next pool with
  | zero => simp [mergeLoop]
  | succ rounds ih =>
    unfold mergeLoop
    split
    · simp
    next a pool₁ ha =>
    split
    · simp
    next b pool₂ hb =>
    have hpool := popLeast_length ha
    have hpool₁ := popLeast_length hb
    have := ih (next + 1) ({ freq := a.freq + b.freq, index := next } :: pool₂)
    simp only [List.length_cons] at this ⊢
    omega

/-- BUILD writes at most 2N − 1 entries, N being at most the number of frequencies. -/
theorem huffmanTree_lengths {fs : List Word} {t : BuiltTree} (h : huffmanTree fs = .ok t) :
    t.words.length ≤ 2 * fs.length - 1 ∧ t.freqs.length ≤ 2 * fs.length - 1 := by
  obtain ⟨hne, _, hwords, hfreqs, _, _⟩ := huffmanTree_ok h
  have hpos := List.length_pos_iff.2 hne
  have hle := presentFrom_length_le 0 fs
  have hmerge := mergeLoop_length_le (presentFrom 0 fs).length (presentFrom 0 fs).length
    (leafKeys 0 (presentFrom 0 fs))
  rw [leafKeys_length] at hmerge
  simp only [hwords, hfreqs, List.length_append, List.length_map]
  omega

/-! ### What a command has written when it succeeds (10_state.md R45) -/

/-- Each command's success leaves its own results, which fit their arrays, and nothing else. -/
theorem runOf_ok {i : Instr} {s s' : State} (h : runOf i s = .ok s') :
    (i = .nop ∧ s' = s) ∨
      (i = .build ∧ ∃ t : BuiltTree, t.words.length ≤ Config.maxNodes ∧ t.freqs.length ≤ Config.maxNodes ∧
        s' = s.writeTree t) ∨
      (i = .gen ∧ ∃ codes, (∀ c ∈ codes, c.2.length < 256) ∧ s' = s.writeCodes codes) ∨
      (i = .pack ∧ ∃ bytes : List Byte, bytes.length ≤ Config.payloadCap ∧ s' = s.writePayload bytes) ∨
      (i = .unpack ∧ ∃ (bytes : List Byte) (len : Nat), bytes.length ≤ Config.bitBytes ∧
        s' = s.writeBits bytes len) ∨
      (i = .decode ∧ ∃ text : List Byte, text.length ≤ Config.outCap ∧ s' = s.writeText text) := by
  cases i with
  | nop => cases h; exact .inl ⟨rfl, rfl⟩
  | build =>
    obtain ⟨fs, t, hfs, ht, rfl⟩ := buildRun_ok h
    have hlen : fs.length = Config.nsym := by simpa using gather_length hfs
    obtain ⟨hwords, hfreqs⟩ := huffmanTree_lengths ht
    rw [hlen] at hwords hfreqs
    exact .inr (.inl ⟨rfl, t, hwords, hfreqs, rfl⟩)
  | gen =>
    obtain ⟨_, rfl⟩ | ⟨_, t, ht, rfl⟩ := genRun_ok h
    · exact .inr (.inr (.inl ⟨rfl, [], by simp, rfl⟩))
    · exact .inr (.inr (.inl ⟨rfl, t.codes [], codes_length_of_treeWF ht, rfl⟩))
  | pack =>
    obtain ⟨_, text, codes, _, hfits, _, rfl⟩ := packRun_ok h
    refine .inr (.inr (.inr (.inl ⟨rfl, _, ?_, rfl⟩)))
    simp only [payloadOf, List.length_cons, length_packBytes]
    omega
  | unpack =>
    obtain ⟨_, hcap, header, _, _, ⟨_, _, rfl⟩ | ⟨d, hd, hdata⟩⟩ := unpackRun_ok h
    · exact .inr (.inr (.inr (.inr (.inl ⟨rfl, [], 0, by simp, rfl⟩))))
    · obtain ⟨full, last, hfull, _, rfl⟩ := unpackData_ok hdata
      have hlen := gather_length hfull
      have hcaps : Config.payloadCap = Config.bitBytes := rfl
      refine .inr (.inr (.inr (.inr (.inl ⟨rfl, _, _, ?_, rfl⟩))))
      simp only [List.length_append, List.length_singleton, List.length_range'] at hlen ⊢
      omega
  | decode =>
    obtain ⟨_, text, hlen, rfl⟩ := decodeRun_ok h
    exact .inr (.inr (.inr (.inr (.inr ⟨rfl, text, hlen, rfl⟩))))

end Sys2Proof.Machine
end

section
/-! PROOFS. Where a command can stop, the frame of the commands (10_state.md R45, 30_encoding.md R92), and where
the code table can change. -/

namespace Sys2Proof.Machine

/-! ### What ends a command early (60_exceptions.md R205, 93_implementation_defined.md U1) -/

/-- What may end command `i` early: an error before its first write, DECODE's walk error
(44_tree_decoder.md R181), or the model's fault at an element that is UNSPECIFIED. -/
def Stop.allowed (i : Instr) (s : State) : Stop → Prop
  | .raise _ _ => True
  | .raiseWalk _ _ => i = .decode
  | .fault f => f.justified s

theorem huffmanTree_error_allowed {i : Instr} {s : State} {fs : List Word} {e : Stop}
    (h : huffmanTree fs = .error e) : e.allowed i s := by
  obtain ⟨_, rfl⟩ | ⟨_, _, _, _, _, _, _, rfl⟩ := huffmanTree_error h <;> trivial

theorem treeWF_error_allowed {i : Instr} {s : State} {e : Stop} (h : treeWF s = .error e) : e.allowed i s := by
  obtain ⟨_, rfl⟩ | ⟨_, rfl, hnone⟩ := treeWF_error h
  · trivial
  · exact hnone

theorem packSymbol_error_allowed {i : Instr} {s : State} {k : Nat} {e : Stop} (h : packSymbol s k = .error e) :
    e.allowed i s := by
  obtain ⟨rfl, hnone⟩ | ⟨_, _, _, rfl⟩ := packSymbol_error h
  · exact hnone
  · trivial

theorem decodeSingle_error_allowed {i : Instr} {s : State} {sym : Byte} {e : Stop}
    (h : decodeSingle s sym = .error e) : e.allowed i s := by
  obtain ⟨_, rfl⟩ | ⟨_, ⟨_, _, _, rfl⟩ | ⟨_, rfl, hnone⟩⟩ := decodeSingle_error h
  · trivial
  · trivial
  · exact hnone

theorem decodeWalk_error_allowed {s : State} {left i cur k : Nat} {e : Stop}
    (h : decodeWalk s left i cur k = .error e) : e.allowed .decode s := by
  obtain rfl | ⟨_, _, _, rfl⟩ | ⟨_, rfl, hnone⟩ | ⟨_, rfl, hnone⟩ := decodeWalk_error h
  · rfl
  · rfl
  · exact hnone
  · exact hnone

theorem runOf_error_allowed {i : Instr} {s : State} {e : Stop} (h : runOf i s = .error e) : e.allowed i s := by
  cases i with
  | nop => cases h
  | build =>
    obtain ⟨_, rfl, hnone⟩ | ⟨_, _, hh⟩ := buildRun_error h
    · exact hnone
    · exact huffmanTree_error_allowed hh
  | gen => exact treeWF_error_allowed (genRun_error h).2
  | pack =>
    obtain ⟨_, rfl⟩ | ⟨_, ⟨_, _, _, hk⟩ | ⟨_, _, ⟨_, rfl⟩ | ⟨_, rfl, hnone⟩⟩⟩ := packRun_error h
    · trivial
    · exact packSymbol_error_allowed hk
    · trivial
    · exact hnone
  | unpack =>
    obtain ⟨_, rfl⟩ | ⟨_, rfl⟩ | ⟨_, _, _, _, rfl⟩ | ⟨_, rfl, hnone⟩ := unpackRun_error h
    · trivial
    · trivial
    · trivial
    · exact hnone
  | decode =>
    obtain ⟨_, rfl⟩ | ⟨_, ⟨_, _, rfl⟩ | ⟨_, ht⟩ | ⟨_, _, _, ⟨rfl, hnone⟩ | ⟨_, _, ⟨_, hs⟩ | ⟨_, hw⟩⟩⟩⟩ :=
      decodeRun_error h
    · trivial
    · trivial
    · exact treeWF_error_allowed ht
    · exact hnone
    · exact decodeSingle_error_allowed hs
    · exact decodeWalk_error_allowed hw

/-- Settles O14: the end of a command faults only with the fault of its run, and never refuses. -/
theorem commandsStopOnlyOnUnwrittenElements : Obligations.CommandsStopOnlyOnUnwrittenElements := by
  intro i s
  rw [exec_eq]
  refine ⟨fun f hf => ?_, endCommand_not_refused s _⟩
  exact runOf_error_allowed ((endCommand_fault_iff ..).1 hf)

/-- Over indices 0, 1, …, `gather` stops at an index that stops when none before it does. -/
theorem gather_range_stops {α : Type} (f : Nat → Except Stop α) {n i : Nat} {e : Stop} (hi : i < n)
    (hpre : ∀ j, j < i → ∃ v, f j = .ok v) (he : f i = .error e) : gather f (List.range n) = .error e := by
  obtain ⟨k, rfl⟩ := Nat.exists_eq_add_of_lt hi
  rw [Nat.add_assoc, List.range_add, List.range_succ_eq_map, List.map_cons]
  exact gather_stops f _ _ i e (fun j hj => hpre j (List.mem_range.1 hj)) he

/-- Settles O16: BUILD reads the frequencies upwards before it does anything else (40_tree_builder.md R111). -/
theorem buildStopsAtAnUnwrittenFrequency : Obligations.BuildStopsAtAnUnwrittenFrequency := by
  intro s i hi hnone hlow
  have hread : gather (readFreq s) (List.range Config.nsym) = .error (.fault (.unwritten .freq i)) := by
    refine gather_range_stops _ hi (fun j hj => ?_) ((element_error_iff ..).2 ⟨hnone, rfl⟩)
    obtain ⟨v, hv⟩ := Option.isSome_iff_exists.1 (hlow j hj)
    exact ⟨v, (element_ok_iff ..).2 hv⟩
  rw [exec_eq, endCommand_fault_iff, runOf, buildRun, hread]

/-! ### The frame of the six commands -/

theorem runOf_busy {i : Instr} {s s' : State} (h : runOf i s = .ok s') : s'.busy = s.busy := by
  obtain ⟨_, rfl⟩ | ⟨_, _, _, _, rfl⟩ | ⟨_, _, _, rfl⟩ | ⟨_, _, _, rfl⟩ | ⟨_, _, _, _, rfl⟩ | ⟨_, _, _, rfl⟩ :=
    runOf_ok h <;> rfl

/-- Everything a command's end can be, with the writes of its success. -/
theorem exec_next {i : Instr} {s t : State} (h : exec i s = .next t) :
    (∃ s', runOf i s = .ok s' ∧ t = s'.succeed) ∨ (∃ e info, t = s.raise e info) ∨
      (i = .decode ∧ ∃ e info, t = s.loseTextOut.raise e info) := by
  rw [exec_eq] at h
  obtain hok | ⟨e, info, _, ht⟩ | ⟨e, info, hr, ht⟩ := endCommand_next h
  · exact .inl hok
  · exact .inr (.inl ⟨e, info, ht⟩)
  · exact .inr (.inr ⟨runOf_error_allowed hr, e, info, ht⟩)

/-- Settles O12: a success leaves the writes of `runOf_ok`, and an error the flags, a walk error DECODE's own
results besides. -/
theorem commandsWriteOnlyTheirOwnResults : Obligations.CommandsWriteOnlyTheirOwnResults := by
  intro i s t h
  obtain ⟨s', hok, rfl⟩ | ⟨e, info, rfl⟩ | ⟨rfl, e, info, rfl⟩ := exec_next h
  · obtain ⟨rfl, rfl⟩ | ⟨rfl, _, _, _, rfl⟩ | ⟨rfl, _, _, rfl⟩ | ⟨rfl, _, _, rfl⟩ | ⟨rfl, _, _, _, rfl⟩ |
      ⟨rfl, _, _, rfl⟩ := runOf_ok hok <;> simp
  · simp
  · simp

/-! ### The code table over a step (10_state.md R37, 70_reset_and_hazards.md R251) -/

/-- The code table of `s` is still that of `s'`. -/
def SameCodeTable (s s' : State) : Prop := s'.codeTab = s.codeTab ∧ s'.codeImg = s.codeImg

theorem memWrite_sameCodeTable (s : State) (off : Offset) (v : Word) : SameCodeTable s (memWrite s off v) := by
  cases h : locate off <;> simp [SameCodeTable, memWrite, h]

theorem busyWrite_sameCodeTable (s : State) (off : Offset) (v : Word) : SameCodeTable s (busyWrite s off v) := by
  unfold busyWrite
  split
  · exact ⟨rfl, rfl⟩
  · exact memWrite_sameCodeTable s off v
  · exact memWrite_sameCodeTable s off v
  · exact ⟨rfl, rfl⟩

theorem hostRead_sameCodeTable (s : State) (off : Offset) : SameCodeTable s (hostRead s off) := by
  obtain ⟨_, _, h⟩ | h := hostRead_cases s off <;> rw [h] <;> exact ⟨rfl, rfl⟩

theorem hostWrite_sameCodeTable (s : State) (off : Offset) (v : Word) : SameCodeTable s (hostWrite s off v) := by
  unfold hostWrite
  split
  · exact busyWrite_sameCodeTable s off v
  · exact memWrite_sameCodeTable s off v

/-- No host access writes the code table (20_memory.md R64, R72). -/
theorem portAccess_sameCodeTable (s : State) (op : PortOp) : SameCodeTable s (portAccess s op) := by
  obtain h | ⟨off, _, _, h⟩ | ⟨off, v, _, _, h⟩ := portAccess_cases s op <;> rw [h]
  · exact ⟨rfl, rfl⟩
  · exact hostRead_sameCodeTable s off
  · exact hostWrite_sameCodeTable s off v

/-- A step that answers a next state: the engine has run a command, nothing was to be done, the host has made an
access (the read of STATUS that ends a POLL included), or reset. -/
theorem step_next {s t : State} (h : step s = .next t) :
    (s.busy = true ∧ (s.inputs = [] ∨ ∃ rest, s.inputs = .engine :: rest ∨ s.inputs = .poll :: rest) ∧
        ∃ rest, runCommand (s.withInputs rest) = .next t) ∨
      (∃ rest, t = s.withInputs rest) ∨ (∃ op rest, t = portAccess (s.withInputs rest) op) ∨
      ∃ rest, s.inputs = .reset :: rest ∧ t = (s.withInputs rest).resetInput := by
  obtain ⟨hbusy, ⟨hin, hs⟩ | ⟨rest, hin, hs⟩ | ⟨rest, hin, hs⟩⟩ |
    ⟨_, ⟨_, hs⟩ | ⟨rest, _, hs⟩ | ⟨rest, _, hs⟩⟩ | ⟨op, rest, _, hs⟩ | ⟨rest, hin, hs⟩ := step_cases s <;>
    rw [hs] at h
  · exact .inl ⟨hbusy, .inl hin, s.inputs, h⟩
  · exact .inl ⟨hbusy, .inr ⟨rest, .inl hin⟩, rest, h⟩
  · exact .inl ⟨hbusy, .inr ⟨rest, .inr hin⟩, s.inputs, h⟩
  · cases h; exact .inr (.inl ⟨s.inputs, rfl⟩)
  · cases h; exact .inr (.inl ⟨rest, rfl⟩)
  · cases h; exact .inr (.inr (.inl ⟨.read .bits32 statusOffset, rest, (portAccess_read _ _ rfl).symm⟩))
  · cases h; exact .inr (.inr (.inl ⟨op, rest, rfl⟩))
  · cases h; exact .inr (.inr (.inr ⟨rest, hin, rfl⟩))

/-- The engine's turn writes the code table only when CMD holds GEN. -/
theorem runCommand_sameCodeTable {s t : State} (h : runCommand s = .next t) (hgen : decode s.cmd ≠ .ok .gen) :
    SameCodeTable s t := by
  obtain ⟨i, hi, hrun⟩ | ⟨_, hrun⟩ := runCommand_cases s <;> rw [hrun] at h
  · have hne : i ≠ .gen := by rintro rfl; exact hgen hi
    obtain ⟨_, _, hcode, _⟩ := commandsWriteOnlyTheirOwnResults i s t h
    exact hcode hne
  · cases h
    exact ⟨rfl, rfl⟩

/-- Settles O13: of the events of a step, only the engine's turn with GEN in CMD and reset do not keep the code
table. -/
theorem codeTableChangesOnlyByGenOrReset : Obligations.CodeTableChangesOnlyByGenOrReset := by
  intro s t hstep hchange
  have hchanged : ¬SameCodeTable s t := fun ⟨htab, himg⟩ => hchange.elim (· htab) (· himg)
  obtain ⟨hbusy, hturn, rest, hrun⟩ | ⟨rest, rfl⟩ | ⟨op, rest, rfl⟩ | ⟨rest, hin, _⟩ := step_next hstep
  · have hgen : decode s.cmd = .ok .gen :=
      by_contra fun hne => hchanged (runCommand_sameCodeTable (s := s.withInputs rest) hrun hne)
    exact .inr ⟨hbusy, hgen, hturn⟩
  · exact absurd ⟨rfl, rfl⟩ hchanged
  · exact absurd (portAccess_sameCodeTable (s.withInputs rest) op) hchanged
  · exact .inl ⟨rest, hin⟩

end Sys2Proof.Machine
end

section
/-! PROOFS. The invariant of the block: it holds after reset and every step keeps it (10_state.md R25, R38, R45,
41_code_gen.md R132, R134). -/

namespace Sys2Proof.Machine

/-! ### Reset -/

theorem State.Inv.reset : State.reset.Inv where
  freq_wf := rfl
  node_wf := rfl
  nodeFreq_wf := rfl
  textIn_wf := rfl
  payload_wf := rfl
  bitbuf_wf := rfl
  textOut_wf := rfl
  codeTab_wf := rfl
  codeTab_valid := fun c hc => absurd hc List.not_mem_nil
  codeTab_empty := fun _ => rfl
  codeImg_wf := fun _ h => nomatch h
  codeImg_padding := fun _ _ _ h => nomatch h
  done_err := by decide
  busy_clear := by decide
  err_code := by decide
  errCode_le := by decide
  outLen_le := by decide

/-- Settles O55: right after reset every array is empty, every flag 0 and no symbol has a code. -/
theorem resetHasTheInvariant : Obligations.ResetHasTheInvariant :=
  ⟨State.Inv.reset, fun _ _ _ hvalid => Bool.noConfusion hvalid⟩

/-! ### The address map (20_memory.md R60) -/

/-- The index of an array location lies within its array. -/
def Loc.inMap : Loc → Prop
  | .freq i | .codeWord i => i < 256
  | .node i | .nodeFreq i => i < 511
  | .codeImg m => m < 2048
  | .textIn m | .payload m | .bitbuf m | .textOut m => m < 4096
  | _ => True

theorem registerAt_inMap (k : Nat) : (registerAt k).inMap := by
  unfold registerAt
  split <;> trivial

/-- Every location of the window lies within its array. -/
theorem locate_inMap (off : Offset) : (locate off).inMap := by
  have hoff := off.isLt
  unfold locate
  refine iteInduction (motive := Loc.inMap) (fun _ => registerAt_inMap _) (fun _ => ?_)
  repeat' refine iteInduction (motive := Loc.inMap) (fun _ => ?_) (fun _ => ?_)
  all_goals simp only [Loc.inMap]
  all_goals omega

theorem four_bytes_within {m : Nat} {v : Word} (hm : m < 4096) : 4 * m + (bytesOf v).length ≤ 16384 := by
  rw [length_bytesOf]
  omega

/-! ### The flags -/

theorem errorCode_ne_zero (e : ErrorKind) : errorCode e ≠ 0 := by cases e <;> decide

theorem errorCode_le (e : ErrorKind) : (errorCode e).toNat ≤ 10 := by cases e <;> decide

section Keeps

variable {s : State} (h : s.Inv)

include h

theorem State.Inv.accept (v : Word) : (s.accept v).Inv :=
  { h with
    done_err := by simp
    busy_clear := fun _ => ⟨rfl, rfl⟩
    err_code := by simp
    errCode_le := by simp }

theorem State.Inv.succeed (hbusy : s.busy = true) : s.succeed.Inv :=
  { h with
    done_err := by simp [(h.busy_clear hbusy).2]
    busy_clear := by simp }

theorem State.Inv.raise (e : ErrorKind) (info : Word) : (s.raise e info).Inv :=
  { h with
    done_err := by simp
    busy_clear := by simp
    err_code := by simpa using errorCode_ne_zero e
    errCode_le := errorCode_le e }

/-- An acknowledgement clears ERRCODE exactly when it clears ERR (60_exceptions.md R212). -/
theorem State.Inv.ackStatus (v : Word) : (s.ackStatus v).Inv :=
  { h with
    done_err := by
      have := h.done_err
      simp only [ackStatus_done, ackStatus_err, Bool.and_eq_true]
      tauto
    busy_clear := fun hbusy => by
      obtain ⟨hdone, herr⟩ := h.busy_clear hbusy
      simp [hdone, herr]
    err_code := by
      rw [ackStatus_err, ackStatus_errCode]
      cases v.getLsbD 2
      · simpa using h.err_code
      · simp
    errCode_le := by
      rw [ackStatus_errCode]
      split
      · simp
      · exact h.errCode_le }

/-! ### The results of the commands -/

theorem State.Inv.loseTextOut : s.loseTextOut.Inv :=
  { h with
    textOut_wf := rfl
    outLen_le := by simp }

theorem State.Inv.writeTree {t : BuiltTree} (hwords : t.words.length ≤ Config.maxNodes)
    (hfreqs : t.freqs.length ≤ Config.maxNodes) : (s.writeTree t).Inv :=
  { h with
    node_wf := Cells.wf_poke h.node_wf (by omega)
    nodeFreq_wf := Cells.wf_poke h.nodeFreq_wf (by omega) }

/-- GEN leaves entries of symbols that have a code, and images whose bits past the code are 0. -/
theorem State.Inv.writeCodes {codes : List (Byte × List Bool)} (hlen : ∀ c ∈ codes, c.2.length < 256) :
    (s.writeCodes codes).Inv :=
  { h with
    codeTab_wf := by
      rw [writeCodes_codeTab, codeTable_eq_table]
      simpa [Cells.wf] using Cells.within_table 0 Config.nsym _
    codeTab_valid := fun c hc => by
      rw [writeCodes_codeTab, codeTable_eq_table] at hc
      obtain ⟨_, _, hentry, _⟩ := Cells.mem_table.1 hc
      obtain ⟨_, _, hpath⟩ := Option.map_eq_some_iff.1 hentry
      rw [← hpath]
      rfl
    codeTab_empty := fun himg => nomatch himg
    codeImg_wf := fun img himg => by
      cases himg
      exact ⟨codeImages_wf codes, codeImages_ne_zero codes⟩
    codeImg_padding := fun img sym j himg hj hbits => by
      cases himg
      rw [codeEntry_writeCodes_len hlen] at hj
      rw [imageBit_codeImages codes sym j hbits, List.getD_eq_default _ _ hj] }

theorem State.Inv.writePayload {bytes : List Byte} (hlen : bytes.length ≤ Config.payloadCap) :
    (s.writePayload bytes).Inv :=
  { h with payload_wf := Memory.wf_poke h.payload_wf (by omega) }

theorem State.Inv.writeBits {bytes : List Byte} (len : Nat) (hlen : bytes.length ≤ Config.bitBytes) :
    (s.writeBits bytes len).Inv :=
  { h with bitbuf_wf := Memory.wf_poke h.bitbuf_wf (by omega) }

theorem State.Inv.writeText {text : List Byte} (hlen : text.length ≤ Config.outCap) : (s.writeText text).Inv :=
  { h with
    textOut_wf := Memory.wf_poke h.textOut_wf (by omega)
    outLen_le := by
      rw [writeText_outLen, BitVec.toNat_ofNat]
      exact (Nat.mod_le _ _).trans hlen }

theorem State.Inv.runOf {i : Instr} {s' : State} (hok : Machine.runOf i s = .ok s') : s'.Inv := by
  obtain ⟨_, rfl⟩ | ⟨_, t, hwords, hfreqs, rfl⟩ | ⟨_, codes, hlen, rfl⟩ | ⟨_, bytes, hlen, rfl⟩ |
    ⟨_, bytes, len, hlen, rfl⟩ | ⟨_, text, hlen, rfl⟩ := runOf_ok hok
  · exact h
  · exact h.writeTree hwords hfreqs
  · exact h.writeCodes hlen
  · exact h.writePayload hlen
  · exact h.writeBits len hlen
  · exact h.writeText hlen

/-- The end of a command keeps the invariant, whatever it is (45_control.md R193, 60_exceptions.md R210). -/
theorem State.Inv.exec {i : Instr} {t : State} (hbusy : s.busy = true) (hexec : Machine.exec i s = .next t) :
    t.Inv := by
  obtain ⟨s', hok, rfl⟩ | ⟨e, info, rfl⟩ | ⟨_, e, info, rfl⟩ := exec_next hexec
  · exact (h.runOf hok).succeed ((runOf_busy hok).trans hbusy)
  · exact h.raise e info
  · exact h.loseTextOut.raise e info

theorem State.Inv.runCommand {t : State} (hbusy : s.busy = true) (hrun : Machine.runCommand s = .next t) :
    t.Inv := by
  obtain ⟨i, _, hi⟩ | ⟨_, hill⟩ := runCommand_cases s
  · exact h.exec hbusy (hi.symm.trans hrun)
  · rw [hill] at hrun
    cases hrun
    exact h.raise _ _

/-! ### Host accesses (20_memory.md R62 to R72) -/

theorem State.Inv.memWrite (off : Offset) (v : Word) : (Machine.memWrite s off v).Inv := by
  have hmap := locate_inMap off
  unfold Machine.memWrite
  cases hloc : locate off <;> rw [hloc] at hmap
  case cmd => exact h.accept v
  case status => exact h.ackStatus v
  case freq i => exact { h with freq_wf := Cells.wf_poke h.freq_wf hmap }
  case node i => exact { h with node_wf := Cells.wf_poke h.node_wf hmap }
  case nodeFreq i => exact { h with nodeFreq_wf := Cells.wf_poke h.nodeFreq_wf hmap }
  case textIn m => exact { h with textIn_wf := Memory.wf_poke h.textIn_wf (four_bytes_within hmap) }
  case payload m => exact { h with payload_wf := Memory.wf_poke h.payload_wf (four_bytes_within hmap) }
  case bitbuf m => exact { h with bitbuf_wf := Memory.wf_poke h.bitbuf_wf (four_bytes_within hmap) }
  all_goals exact { h with }

theorem State.Inv.busyWrite (off : Offset) (v : Word) : (Machine.busyWrite s off v).Inv := by
  unfold Machine.busyWrite
  split
  · exact { h with }
  · exact h.memWrite off v
  · exact h.memWrite off v
  · exact { h with }

theorem State.Inv.hostRead (off : Offset) : (Machine.hostRead s off).Inv := by
  obtain ⟨_, _, hread⟩ | hread := hostRead_cases s off <;> rw [hread] <;> exact { h with }

theorem State.Inv.hostWrite (off : Offset) (v : Word) : (Machine.hostWrite s off v).Inv := by
  unfold Machine.hostWrite
  split
  · exact { h.busyWrite off v with }
  · exact { h.memWrite off v with }

theorem State.Inv.portAccess (op : PortOp) : (Machine.portAccess s op).Inv := by
  obtain hop | ⟨off, _, _, hop⟩ | ⟨off, v, _, _, hop⟩ := portAccess_cases s op <;> rw [hop]
  · exact { h with }
  · exact h.hostRead off
  · exact h.hostWrite off v

theorem State.Inv.withInputs (rest : List Input) : (s.withInputs rest).Inv := { h with }

end Keeps

theorem State.Inv.resetInput (s : State) : s.resetInput.Inv := { State.Inv.reset with }

/-- Settles O53: each event of a step keeps the invariant, and reset restores it. -/
theorem everyStepKeepsTheInvariant : Obligations.EveryStepKeepsTheInvariant := by
  intro s t h hstep
  obtain ⟨hbusy, _, rest, hrun⟩ | ⟨rest, rfl⟩ | ⟨op, rest, rfl⟩ | ⟨rest, _, rfl⟩ := step_next hstep
  · exact (h.withInputs rest).runCommand hbusy hrun
  · exact h.withInputs rest
  · exact (h.withInputs rest).portAccess op
  · exact State.Inv.resetInput _

end Sys2Proof.Machine
end

section
/-! PROOFS. Registers and array words that store 32 bits, IRQ_EN, and the word that withFetchWord places
(10_state.md R27 to R41, 20_memory.md R66, log 2). -/

namespace Sys2Proof.Machine

/-! ### Reading back a write -/

/-- The locations that store all 32 bits of a write (10_state.md R28 to R31, R33 to R36, R39 to R41). -/
def Loc.storesWord : Loc → Bool
  | .textLen | .payloadLen | .bitLen | .treeCount | .root => true
  | .freq _ | .node _ | .nodeFreq _ | .textIn _ | .payload _ | .bitbuf _ => true
  | .id | .cmd | .status | .errInfo | .irqEn | .outLen | .codeWord _ | .codeImg _ | .textOut _ | .reserved => false

@[simp] theorem shownWord_poke (draw a : Nat) (m : Cells Word) (i : Nat) (v : Word) :
    shownWord draw a (m.poke i [v]) i = v := by
  simp [shownWord]

/-- The four bytes of a word, written at its word index, are shown as that word (20_memory.md R66). -/
@[simp] theorem shownBytes_poke (draw a : Nat) (x : Memory) (m : Nat) (v : Word) :
    shownBytes draw a (Cells.poke x (4 * m) (bytesOf v)) m = v := by
  have hpeek (k : Nat) (hk : k < 4) : Cells.peek (Cells.poke x (4 * m) (bytesOf v)) (4 * m + k) =
      some ((bytesOf v)[k]) := Cells.peek_poke_inside x (4 * m) (bytesOf v) k hk
  have hzero := hpeek 0 (by decide)
  rw [Nat.add_zero] at hzero
  rw [shownBytes, shownByte, shownByte, shownByte, shownByte, hzero, hpeek 1 (by decide), hpeek 2 (by decide),
    hpeek 3 (by decide)]
  exact wordOf_byteOf v

theorem memRead_memWrite_same (s : State) (a : Offset) (v : Word) (h : (locate a).storesWord = true) :
    memRead (memWrite s a v) a = v := by
  cases hloc : locate a <;> simp [hloc, Loc.storesWord, memRead, memWrite] at h ⊢

/-- An aligned offset from an aligned base is a word index from it. -/
theorem offset_eq_slot {a : Offset} {base : Nat} (ha : a.toNat % 4 = 0) (hbase : base % 4 = 0)
    (hle : base ≤ a.toNat) : a = BitVec.ofNat 17 (base + 4 * ((a.toNat - base) / 4)) := by
  rw [show base + 4 * ((a.toNat - base) / 4) = a.toNat by omega, BitVec.ofNat_toNat, BitVec.setWidth_eq]

/-- FREQ and NODE store words (20_memory.md R60). -/
theorem storesWord_freq_node {a : Offset} (ha : a.toNat % 4 = 0) (hlo : 0x400 ≤ a.toNat) (hhi : a.toNat < 0xFFC) :
    (locate a).storesWord = true := by
  rcases Nat.lt_or_ge a.toNat 0x800 with h | h
  · rw [offset_eq_slot ha rfl hlo, locate_freq _ (by omega)]
    rfl
  · rw [offset_eq_slot ha rfl h, locate_node _ (by omega)]
    rfl

theorem storesWord_nodeFreq {a : Offset} (ha : a.toNat % 4 = 0) (hlo : 0x1000 ≤ a.toNat)
    (hhi : a.toNat < 0x17FC) : (locate a).storesWord = true := by
  rw [offset_eq_slot ha rfl hlo, locate_nodeFreq _ (by omega)]
  rfl

/-- TEXT_IN, PAYLOAD and BITBUF store words (20_memory.md R60). -/
theorem storesWord_bytes {a : Offset} (ha : a.toNat % 4 = 0) (hlo : 0x10000 ≤ a.toNat)
    (hhi : a.toNat < 0x1C000) : (locate a).storesWord = true := by
  obtain ⟨b, m, hb, hm, hslot⟩ : ∃ b m, b < 3 ∧ m < 4096 ∧ a.toNat = 0x10000 + 0x4000 * b + 4 * m :=
    ⟨(a.toNat - 0x10000) / 0x4000, (a.toNat - 0x10000) % 0x4000 / 4, by omega, by omega, by omega⟩
  have hloc := locate_bytes b m (by omega) hm
  rw [← hslot, BitVec.ofNat_toNat, BitVec.setWidth_eq] at hloc
  obtain rfl | rfl | rfl : b = 0 ∨ b = 1 ∨ b = 2 := by omega
  all_goals
    rw [hloc]
    rfl

/-- Settles O21: each of these offsets is a location that stores the whole word. -/
theorem readBackOfAWrite : Obligations.ReadBackOfAWrite := by
  intro s a v ha hrange
  apply memRead_memWrite_same
  obtain rfl | rfl | rfl | rfl | rfl | ⟨hlo, hhi⟩ | ⟨hlo, hhi⟩ | ⟨hlo, hhi⟩ := hrange
  · rfl
  · rfl
  · rfl
  · rfl
  · rfl
  · exact storesWord_freq_node ha hlo hhi
  · exact storesWord_nodeFreq ha hlo hhi
  · exact storesWord_bytes ha hlo hhi

/-! ### A fetched word (log 2) -/

theorem decode_encode (i : Instr) : decode (encode i) = .ok i := by cases i <;> rfl

/-- The step after a command word is issued runs its command on the state after acceptance. -/
theorem step_issueCommand {w : Word} {i : Instr} (s : State) (h : decode w = .ok i) :
    step (issueCommand w s) = exec i (s.accept w) := by
  have hturn : step (issueCommand w s) = runCommand (s.accept w) := rfl
  obtain ⟨j, hj, hrun⟩ | ⟨⟨_, herr⟩, _⟩ := runCommand_cases (s.accept w)
  · rw [State.accept_cmd, h] at hj
    cases hj
    rw [hturn, hrun]
  · rw [State.accept_cmd, h] at herr
    cases herr

/-- Settles O4: the 32-bit word of a command is placed unchanged, and it decodes to that command. -/
theorem fetchedWordRunsAsTheNextCommand : Obligations.FetchedWordRunsAsTheNextCommand := by
  intro s i
  have hword : BitVec.ofNat 32 ((encode i).toNat % 2 ^ 32) = encode i := by
    rw [Nat.mod_eq_of_lt (encode i).isLt, BitVec.ofNat_toNat, BitVec.setWidth_eq]
  rw [State.withFetchWord, hword]
  exact step_issueCommand s (decode_encode i)

/-! ### IRQ_EN (10_state.md R27) -/

/-- IRQ_EN is written alike BUSY or not (20_memory.md R72). -/
theorem hostWrite_irqEn (s : State) (v : Word) :
    hostWrite s 0x010#17 v = ({ s with ie := v.getLsbD 0 } : State).respond { busError := false, data := 0 } := by
  have hloc : locate 0x010#17 = .irqEn := rfl
  have hmem : memWrite s 0x010#17 v = { s with ie := v.getLsbD 0 } := by simp only [memWrite, hloc]
  have hbusy : busyWrite s 0x010#17 v = memWrite s 0x010#17 v := by simp only [busyWrite, hloc]
  rw [hostWrite, hbusy, ite_self, hmem]

theorem flagBit_zero_bits (b : Bool) : (flagBit b 0).getLsbD 0 = b ∧ (flagBit b 0).extractLsb' 1 31 = 0 := by
  cases b <;> decide

/-- Settles O23: the write sets IE alone, and the read shows IE in bit 0. -/
theorem irqEnableWrite : Obligations.IrqEnableWrite := by
  refine ⟨fun s rest v hin => ?_, rfl⟩
  have hstep : step s = .next (hostWrite (s.withInputs rest) 0x010#17 v) := by
    rw [step, nextEvent, hin]
    exact congrArg Host.Outcome.next (portAccess_write _ _ _ rfl)
  rw [hostWrite_irqEn] at hstep
  obtain ⟨hbit, hrest⟩ := flagBit_zero_bits (v.getLsbD 0)
  exact ⟨_, hstep, rfl, hbit, hrest, rfl, rfl⟩

end Sys2Proof.Machine
end

section
/-! PROOFS. The host port (20_memory.md R60 to R72): where each location stands in the window, what a read shows of
it, what a write changes, malformed accesses, and the busy interlock. -/

namespace Sys2Proof.Machine

/-! ### Where the locations stand (20_memory.md R60) -/

/-- The location stands at byte offset `a`. Of the reserved ones nothing is said. -/
def Loc.standsAt (a : Nat) : Loc → Prop
  | .id => a = 0x000
  | .cmd => a = 0x004
  | .status => a = 0x008
  | .errInfo => a = 0x00C
  | .irqEn => a = 0x010
  | .textLen => a = 0x014
  | .payloadLen => a = 0x018
  | .bitLen => a = 0x01C
  | .outLen => a = 0x020
  | .treeCount => a = 0x024
  | .root => a = 0x028
  | .freq i => a = 0x400 + 4 * i
  | .node i => a = 0x800 + 4 * i
  | .nodeFreq i => a = 0x1000 + 4 * i
  | .codeWord i => a = 0x1800 + 4 * i
  | .codeImg m => a = 0x2000 + 4 * m
  | .textIn m => a = 0x10000 + 4 * m
  | .payload m => a = 0x14000 + 4 * m
  | .bitbuf m => a = 0x18000 + 4 * m
  | .textOut m => a = 0x1C000 + 4 * m
  | .reserved => True

theorem registerAt_standsAt (k : Nat) : (registerAt k).standsAt (4 * k) := by
  unfold registerAt
  split <;> trivial

theorem locate_standsAt {off : Offset} (h : off.toNat % 4 = 0) : (locate off).standsAt off.toNat := by
  have hreg := registerAt_standsAt (off.toNat / 4)
  rw [show 4 * (off.toNat / 4) = off.toNat by omega] at hreg
  unfold locate
  refine iteInduction (motive := Loc.standsAt _) (fun _ => hreg) (fun _ => ?_)
  repeat' refine iteInduction (motive := Loc.standsAt _) (fun _ => ?_) (fun _ => ?_)
  all_goals simp only [Loc.standsAt]
  all_goals omega

/-- Two offsets hold the same location only when they are equal or the location is reserved. -/
theorem eq_of_standsAt {l : Loc} {a b : Offset} (ha : l.standsAt a.toNat) (hb : l.standsAt b.toNat)
    (hl : l ≠ .reserved) : a = b := by
  apply BitVec.eq_of_toNat_eq
  cases l
  case reserved => exact absurd rfl hl
  all_goals exact Eq.trans ha (Eq.symm hb)

theorem locate_ne {a b : Offset} (ha : a.toNat % 4 = 0) (hb : b.toNat % 4 = 0) (hne : a ≠ b)
    (hres : locate a ≠ .reserved) : locate b ≠ locate a :=
  fun h => hne (eq_of_standsAt (locate_standsAt ha) (h ▸ locate_standsAt hb) hres)

theorem locate_of_toNat {off : Offset} {a : Nat} {l : Loc} (h : off.toNat = a)
    (hl : locate (BitVec.ofNat 17 a) = l) : locate off = l := by
  rw [← hl, ← h, BitVec.ofNat_toNat, BitVec.setWidth_eq]

theorem locate_textIn {off : Offset} {m : Nat} (hm : m < 4096) (h : off.toNat = 0x10000 + 4 * m) :
    locate off = .textIn m := locate_of_toNat h (locate_bytes 0 m (by decide) hm)

theorem locate_payload {off : Offset} {m : Nat} (hm : m < 4096) (h : off.toNat = 0x14000 + 4 * m) :
    locate off = .payload m := locate_of_toNat h (locate_bytes 1 m (by decide) hm)

theorem locate_bitbuf {off : Offset} {m : Nat} (hm : m < 4096) (h : off.toNat = 0x18000 + 4 * m) :
    locate off = .bitbuf m := locate_of_toNat h (locate_bytes 2 m (by decide) hm)

theorem locate_textOut {off : Offset} {m : Nat} (hm : m < 4096) (h : off.toNat = 0x1C000 + 4 * m) :
    locate off = .textOut m := locate_of_toNat h (locate_bytes 3 m (by decide) hm)

/-- The reserved offsets of 20_memory.md R60. -/
theorem locate_reserved {off : Offset} (h : off.toNat % 4 = 0)
    (hres : 0x2C ≤ off.toNat ∧ off.toNat < 0x400 ∨ off.toNat = 0xFFC ∨ off.toNat = 0x17FC ∨
      0x1C00 ≤ off.toNat ∧ off.toNat < 0x2000 ∨ 0x4000 ≤ off.toNat ∧ off.toNat < 0x10000) :
    locate off = .reserved := by
  have hstands := locate_standsAt h
  have hmap := locate_inMap off
  cases hloc : locate off
  case reserved => rfl
  all_goals
    rw [hloc] at hstands hmap
    simp only [Loc.standsAt, Loc.inMap] at hstands hmap
    omega

/-! ### The words a read shows (20_memory.md R63, R66) -/

theorem flagBit_getLsbD (b : Bool) (pos i : Nat) (hi : i < 32) :
    (flagBit b pos).getLsbD i = (b && decide (i = pos)) := by
  rw [flagBit, BitVec.getLsbD_shiftLeft, BitVec.getLsbD_setWidth, BitVec.getLsbD_ofBool]
  rcases Nat.lt_trichotomy i pos with h | h | h
  · simp [h, h.ne]
  · simp [h, h ▸ hi]
  · simp [hi, h.ne', Nat.not_lt.2 h.le, show i - pos ≠ 0 by omega]

theorem statusWord_getLsbD (s : State) (i : Nat) (hi : i < 32) :
    s.statusWord.getLsbD i =
      (s.busy && decide (i = 0) || s.done && decide (i = 1) || s.err && decide (i = 2) ||
        s.cmdOvr && decide (i = 3) || s.wrIgn && decide (i = 4) || decide (8 ≤ i) && s.errCode.getLsbD (i - 8)) := by
  simp only [State.statusWord, BitVec.getLsbD_or, flagBit_getLsbD _ _ i hi, BitVec.getLsbD_shiftLeft,
    BitVec.getLsbD_setWidth, hi, decide_true, Bool.true_and, ← Nat.not_lt, decide_not, show i - 8 < 32 by omega]

/-- Above the flags stands ERRCODE. -/
theorem statusWord_getLsbD_high (s : State) (i : Nat) (hlo : 5 ≤ i) (hi : i < 32) :
    s.statusWord.getLsbD i = (decide (8 ≤ i) && s.errCode.getLsbD (i - 8)) := by
  rw [statusWord_getLsbD s i hi]
  simp [show i ≠ 0 by omega, show i ≠ 1 by omega, show i ≠ 2 by omega, show i ≠ 3 by omega,
    show i ≠ 4 by omega]

/-- STATUS shows its flags and ERRCODE, and 0 in the reserved bits (10_state.md R25). -/
theorem statusWord_fields (s : State) :
    s.statusWord.getLsbD 0 = s.busy ∧ s.statusWord.getLsbD 1 = s.done ∧ s.statusWord.getLsbD 2 = s.err ∧
      s.statusWord.getLsbD 3 = s.cmdOvr ∧ s.statusWord.getLsbD 4 = s.wrIgn ∧ s.statusWord.extractLsb' 5 3 = 0 ∧
      s.statusWord.extractLsb' 8 4 = s.errCode ∧ s.statusWord.extractLsb' 12 20 = 0 := by
  have hbit := statusWord_getLsbD s
  refine ⟨(hbit 0 (by decide)).trans (by simp), (hbit 1 (by decide)).trans (by simp),
    (hbit 2 (by decide)).trans (by simp), (hbit 3 (by decide)).trans (by simp),
    (hbit 4 (by decide)).trans (by simp), ?_, ?_, ?_⟩
  all_goals
    apply BitVec.eq_of_getLsbD_eq
    intro i hi
    rw [BitVec.getLsbD_extractLsb', statusWord_getLsbD_high s _ (by omega) (by omega)]
  · simp [show ¬8 ≤ 5 + i by omega]
  · simp [hi]
  · simp [show 4 ≤ 12 + i - 8 by omega]

theorem irqEnWord_eq (s : State) : s.irqEnWord = if s.ie then 1 else 0 := by
  unfold State.irqEnWord
  cases s.ie <;> rfl

/-- The CODE_VALID/CODE_LEN word shows both fields, and 0 between them (10_state.md R37). -/
theorem codeWordOf_fields (e : CodeEntry) :
    (codeWordOf e).getLsbD 31 = e.valid ∧ (codeWordOf e).extractLsb' 8 23 = 0 ∧
      (codeWordOf e).extractLsb' 0 8 = e.len := by
  refine ⟨?_, ?_, ?_⟩
  · rw [codeWordOf, BitVec.getLsbD_or, flagBit_getLsbD _ _ _ (by decide)]
    simp
  all_goals
    apply BitVec.eq_of_getLsbD_eq
    intro i hi
    rw [BitVec.getLsbD_extractLsb', codeWordOf, BitVec.getLsbD_or, flagBit_getLsbD _ _ _ (by omega)]
  · simp [show 8 + i ≠ 31 by omega]
  · simp [hi, show i ≠ 31 by omega, show i < 32 by omega]

theorem bitOf_byteOf (v : Word) (k j : Nat) : bitOf (byteOf v k) j = v.getLsbD (8 * k + (7 - j)) := by
  simp [bitOf, byteOf, show 7 - j < 8 by omega]

theorem byteOf_wordOf_at (b : Nat → Byte) {k : Nat} (hk : k < 4) :
    byteOf (wordOf (b 0) (b 1) (b 2) (b 3)) k = b k := by
  obtain ⟨h0, h1, h2, h3⟩ := byteOf_wordOf (b 0) (b 1) (b 2) (b 3)
  match k, hk with
  | 0, _ => exact h0
  | 1, _ => exact h1
  | 2, _ => exact h2
  | 3, _ => exact h3

theorem shownWord_of_peek {draw a i : Nat} {m : Cells Word} {v : Word} (h : m.peek i = some v) :
    shownWord draw a m i = v := by
  rw [shownWord, h, Option.getD_some]

/-- A written byte of a byte array stands in its byte of the word (20_memory.md R66). -/
theorem byteOf_shownBytes {x : Memory} {m k : Nat} {b : Byte} (draw a : Nat) (hk : k < 4)
    (hpeek : Cells.peek x (4 * m + k) = some b) : byteOf (shownBytes draw a x m) k = b := by
  have hbyte := byteOf_wordOf_at (fun k => shownByte draw (a + k) x (4 * m + k)) hk
  exact hbyte.trans (by simp only [shownByte, hpeek, Option.getD_some])

/-- Bit by bit, an image word shows the image MSB-first (10_state.md R38, 20_memory.md R67). -/
theorem shownImage_getLsbD (draw a : Nat) (img : Memory) {i w k j : Nat} (hi : i < 256) (hk : k < 4) (hj : j < 8) :
    (shownImage draw a (some img) (8 * i + w)).getLsbD (8 * k + (7 - j)) =
      imageBit img (BitVec.ofNat 8 i) (8 * (4 * w + k) + j) := by
  have hbyte := byteOf_wordOf_at (fun k => (Cells.peek img (4 * (8 * i + w) + k)).getD 0) hk
  have hsym : (BitVec.ofNat 8 i).toNat = i := by
    rw [BitVec.toNat_ofNat, Nat.mod_eq_of_lt hi]
  have hindex : 32 * i + (8 * (4 * w + k) + j) / 8 = 4 * (8 * i + w) + k := by omega
  have hbit : (8 * (4 * w + k) + j) % 8 = j := by omega
  rw [imageBit, hsym, hindex, hbit, ← hbyte, bitOf_byteOf]
  rfl

theorem memRead_withInputs (s : State) (rest : List Input) (off : Offset) :
    memRead (s.withInputs rest) off = memRead s off := rfl

/-! ### What a write changes (20_memory.md R64, R69) -/

theorem shownWord_poke_other (draw a : Nat) (m : Cells Word) {i j : Nat} (v : Word) (h : j ≠ i) :
    shownWord draw a (m.poke i [v]) j = shownWord draw a m j := by
  rw [shownWord, Cells.peek_poke_one, if_neg h, shownWord]

/-- The bytes of the array after a word is written at its word index (20_memory.md R66). -/
theorem peek_poke_bytesOf (x : Memory) (i j : Nat) (v : Word) :
    Cells.peek (Cells.poke x (4 * i) (bytesOf v)) j =
      if j / 4 = i then some (byteOf v (j % 4)) else Cells.peek x j := by
  split
  case isTrue h =>
    obtain ⟨k, hk, rfl⟩ : ∃ k, k < 4 ∧ j = 4 * i + k := ⟨j % 4, by omega, by omega⟩
    rw [Cells.peek_poke_inside _ _ (bytesOf v) k hk, show (4 * i + k) % 4 = k by omega]
    match k, hk with
    | 0, _ | 1, _ | 2, _ | 3, _ => rfl
  case isFalse h => exact Cells.peek_poke_outside _ _ _ _ (by rw [length_bytesOf]; omega)

theorem shownBytes_poke_other (draw a : Nat) (x : Memory) {i j : Nat} (v : Word) (h : j ≠ i) :
    shownBytes draw a (Cells.poke x (4 * i) (bytesOf v)) j = shownBytes draw a x j := by
  have hpeek (k : Nat) (hk : k < 4) :
      Cells.peek (Cells.poke x (4 * i) (bytesOf v)) (4 * j + k) = Cells.peek x (4 * j + k) := by
    rw [peek_poke_bytesOf, if_neg (by omega)]
  have hzero := hpeek 0 (by decide)
  rw [Nat.add_zero] at hzero
  simp only [shownBytes, shownByte, hzero, hpeek 1 (by decide), hpeek 2 (by decide), hpeek 3 (by decide)]

/-- The locations a write takes effect at. -/
def Loc.writable : Loc → Bool
  | .cmd | .status | .irqEn | .textLen | .payloadLen | .bitLen | .treeCount | .root => true
  | .freq _ | .node _ | .nodeFreq _ | .textIn _ | .payload _ | .bitbuf _ => true
  | .id | .errInfo | .outLen | .codeWord _ | .codeImg _ | .textOut _ | .reserved => false

theorem memWrite_readOnly (s : State) {off : Offset} (v : Word) (h : (locate off).writable = false) :
    memWrite s off v = s := by
  cases hloc : locate off <;> simp [hloc, Loc.writable, memWrite] at h ⊢

/-- The read-only and the reserved offsets of 20_memory.md R60. -/
theorem locate_readOnly {off : Offset} (h : off.toNat % 4 = 0)
    (hro : off = 0x000#17 ∨ off = 0x00C#17 ∨ off = 0x020#17 ∨ 0x2C ≤ off.toNat ∧ off.toNat < 0x400 ∨
      off.toNat = 0xFFC ∨ off.toNat = 0x17FC ∨ 0x1800 ≤ off.toNat ∧ off.toNat < 0x10000 ∨
      0x1C000 ≤ off.toNat) : (locate off).writable = false := by
  obtain rfl | rfl | rfl | hro := hro
  · rfl
  · rfl
  · rfl
  have hstands := locate_standsAt h
  have hmap := locate_inMap off
  cases hloc : locate off
  case id | errInfo | outLen | codeWord | codeImg | textOut | reserved => rfl
  all_goals
    rw [hloc] at hstands hmap
    simp only [Loc.standsAt, Loc.inMap] at hstands hmap
    omega

/-- A write other than to CMD changes at most what its own location shows. -/
theorem memRead_memWrite_other (s : State) {a b : Offset} (v : Word) (hcmd : locate a ≠ .cmd)
    (hne : locate a ≠ .reserved → locate b ≠ locate a) : memRead (memWrite s a v) b = memRead s b := by
  cases ha : locate a
  case cmd => exact absurd ha hcmd
  case id | errInfo | outLen | codeWord | codeImg | textOut | reserved => rw [memWrite_readOnly s v (by rw [ha]; rfl)]
  all_goals
    rw [ha] at hne
    have hother := hne nofun
    simp only [memWrite, ha]
    unfold memRead
    cases hb : locate b
  case freq.freq | node.node | nodeFreq.nodeFreq =>
    exact shownWord_poke_other _ _ _ v (fun hindex => hother (by rw [hb, hindex]))
  case textIn.textIn | payload.payload | bitbuf.bitbuf =>
    exact shownBytes_poke_other _ _ _ v (fun hindex => hother (by rw [hb, hindex]))
  case status.status | irqEn.irqEn | textLen.textLen | payloadLen.payloadLen | bitLen.bitLen | treeCount.treeCount |
      root.root => exact absurd hb hother
  all_goals rfl

/-! ### Steps with a host access at the head of the schedule (20_memory.md R62, R63, R64, log 1) -/

section Access

variable {s : State} {rest : List Input} {off : Offset} {v : Word}

theorem step_access {op : PortOp} (hin : s.inputs = .access op :: rest) :
    step s = .next (portAccess (s.withInputs rest) op) := by
  rw [step, nextEvent, hin]

theorem portAccess_malformed (s : State) {op : PortOp} (h : op.wellFormed = false) :
    portAccess s op = s.respond { busError := true, data := 0 } := by
  unfold portAccess
  rw [h, if_neg Bool.false_ne_true]

theorem step_read (hin : s.inputs = .access (.read .bits32 off) :: rest) (hoff : off.toNat % 4 = 0) :
    step s = .next (hostRead (s.withInputs rest) off) := by
  rw [step_access hin, portAccess_read _ _ hoff]

/-- A read that is not dropped answers what the location shows. -/
theorem step_read_shown (hin : s.inputs = .access (.read .bits32 off) :: rest) (hoff : off.toNat % 4 = 0)
    (hshown : s.busy = false ∨ readableWhileBusy (locate off) = true) :
    step s = .next
      { s with inputs := rest, responses := { busError := false, data := memRead s off } :: s.responses } := by
  rw [step_read hin hoff, hostRead, if_neg (by rcases hshown with h | h <;> simp [h]), memRead_withInputs]
  rfl

theorem step_write (hin : s.inputs = .access (.write .bits32 off v) :: rest) (hoff : off.toNat % 4 = 0) :
    step s = .next (hostWrite (s.withInputs rest) off v) := by
  rw [step_access hin, portAccess_write _ _ _ hoff]

theorem step_write_idle (hin : s.inputs = .access (.write .bits32 off v) :: rest) (hoff : off.toNat % 4 = 0)
    (hidle : s.busy = false) :
    step s = .next ((memWrite (s.withInputs rest) off v).respond { busError := false, data := 0 }) := by
  rw [step_write hin hoff, hostWrite, State.withInputs_busy, hidle, if_neg Bool.false_ne_true]

end Access

/-! ### Malformed accesses, and reads and writes while BUSY = 0 (20_memory.md R62 to R64, R69) -/

theorem Width.wellFormed_eq_false {w : Width} (h : w ≠ .bits32) : w.wellFormed = false := by
  cases w
  case bits32 => exact absurd rfl h
  all_goals rfl

/-- Settles O17: neither the read nor the write is well formed, so the port refuses it. -/
theorem malformedAccessGetsABusError : Obligations.MalformedAccessGetsABusError := by
  intro s rest w off v h hin
  have hbad : (w.wellFormed && off.toNat % 4 == 0) = false := by
    obtain hw | hoff := h
    · rw [Width.wellFormed_eq_false hw, Bool.false_and]
    · rw [beq_false_of_ne hoff, Bool.and_false]
  obtain hin | hin := hin
  · rw [step_access hin, portAccess_malformed (op := .read w off) _ hbad]
    rfl
  · rw [step_access hin, portAccess_malformed (op := .write w off v) _ hbad]
    rfl

/-- Settles O18: the read answers `memRead`, which shows what the offset's location holds. -/
theorem hostReadWhileIdle : Obligations.HostReadWhileIdle := by
  intro s rest off hidle hoff hin
  refine ⟨memRead s off, step_read_shown hin hoff (.inl hidle), by rintro rfl; rfl, by rintro rfl; rfl,
    by rintro rfl; exact statusWord_fields s, by rintro rfl; rfl, by rintro rfl; exact irqEnWord_eq s,
    by rintro rfl; rfl, by rintro rfl; rfl, by rintro rfl; rfl, by rintro rfl; rfl, by rintro rfl; rfl,
    by rintro rfl; rfl, ?_, ?_, ?_, ?_, ?_, ?_, ?_, ?_, ?_, ?_⟩
  · intro i hi ha v hv
    simp only [memRead, locate_of_toNat ha (locate_freq i hi), shownWord_of_peek hv]
  · intro i hi ha v hv
    simp only [memRead, locate_of_toNat ha (locate_node i hi), shownWord_of_peek hv]
  · intro i hi ha v hv
    simp only [memRead, locate_of_toNat ha (locate_nodeFreq i hi), shownWord_of_peek hv]
  · intro i hi ha
    simp only [memRead, locate_of_toNat ha (locate_codeWord i hi)]
    exact codeWordOf_fields _
  · intro i w hi hw ha img himg k j hk hj
    have ha' : off.toNat = 0x2000 + 4 * (8 * i + w) := by omega
    simp only [memRead, locate_of_toNat ha' (locate_codeImg _ (by omega)), himg]
    exact shownImage_getLsbD _ _ img hi hk hj
  · intro m k b hm hk ha hb
    simp only [memRead, locate_textIn hm ha]
    exact byteOf_shownBytes _ _ hk hb
  · intro m k b hm hk ha hb
    simp only [memRead, locate_payload hm ha]
    exact byteOf_shownBytes _ _ hk hb
  · intro m k b hm hk ha hb
    simp only [memRead, locate_bitbuf hm ha]
    exact byteOf_shownBytes _ _ hk hb
  · intro m k b hm hk ha hb
    simp only [memRead, locate_textOut hm ha]
    exact byteOf_shownBytes _ _ hk hb
  · intro hres
    simp only [memRead, locate_reserved hoff hres]

/-- Settles O19: the write is `memWrite`, which writes the offset's location and nothing else. -/
theorem hostWriteWhileIdle : Obligations.HostWriteWhileIdle := by
  rintro s _ rest off v hidle hoff hin rfl
  have hstep := step_write_idle hin hoff hidle
  refine ⟨by rintro rfl; exact hstep, by rintro rfl; exact hstep, by rintro rfl; exact hstep,
    by rintro rfl; exact hstep, by rintro rfl; exact hstep, by rintro rfl; exact hstep, by rintro rfl; exact hstep,
    by rintro rfl; exact hstep, ?_, ?_, ?_, ?_, ?_, ?_, ?_⟩
  · intro i hi ha
    simp only [memWrite, locate_of_toNat ha (locate_freq i hi)] at hstep
    exact ⟨_, hstep, Cells.peek_poke_one s.freq i v⟩
  · intro i hi ha
    simp only [memWrite, locate_of_toNat ha (locate_node i hi)] at hstep
    exact ⟨_, hstep, Cells.peek_poke_one s.node i v⟩
  · intro i hi ha
    simp only [memWrite, locate_of_toNat ha (locate_nodeFreq i hi)] at hstep
    exact ⟨_, hstep, Cells.peek_poke_one s.nodeFreq i v⟩
  · intro i hi ha
    simp only [memWrite, locate_textIn hi ha] at hstep
    exact ⟨_, hstep, fun j => peek_poke_bytesOf s.textIn i j v⟩
  · intro i hi ha
    simp only [memWrite, locate_payload hi ha] at hstep
    exact ⟨_, hstep, fun j => peek_poke_bytesOf s.payload i j v⟩
  · intro i hi ha
    simp only [memWrite, locate_bitbuf hi ha] at hstep
    exact ⟨_, hstep, fun j => peek_poke_bytesOf s.bitbuf i j v⟩
  · intro hro
    rw [memWrite_readOnly _ v (locate_readOnly hoff hro)] at hstep
    exact hstep

/-- Settles O20: different aligned offsets hold different locations, unless nothing is written. -/
theorem writeLeavesEveryOtherOffset : Obligations.WriteLeavesEveryOtherOffset := by
  intro s a b v ha hb hne hcmd
  exact memRead_memWrite_other s v (locate_ne rfl ha hcmd.symm (by decide)) (locate_ne ha hb hne)

/-! ### The busy interlock (20_memory.md R72) -/

theorem busyWrite_withInputs (s : State) (rest : List Input) (off : Offset) (v : Word) :
    busyWrite (s.withInputs rest) off v = (busyWrite s off v).withInputs rest := by
  unfold busyWrite
  cases hloc : locate off
  case status | irqEn => simp only [memWrite, hloc]; rfl
  all_goals rfl

theorem busyWrite_responses (s : State) (off : Offset) (v : Word) :
    (busyWrite s off v).responses = s.responses := by
  unfold busyWrite
  cases hloc : locate off
  case status | irqEn => simp only [memWrite, hloc, State.ackStatus_responses]
  all_goals rfl

theorem step_write_busy {s : State} {rest : List Input} {off : Offset} {v : Word}
    (hin : s.inputs = .access (.write .bits32 off v) :: rest) (hoff : off.toNat % 4 = 0) (hbusy : s.busy = true) :
    step s = .next
      { busyWrite s off v with
        inputs := rest
        responses := { busError := false, data := 0 } :: s.responses } := by
  rw [step_write hin hoff, hostWrite, State.withInputs_busy, if_pos hbusy, busyWrite_withInputs, State.respond,
    State.withInputs_responses, busyWrite_responses]
  rfl

/-- Only CMD, STATUS and IRQ_EN take a write while BUSY = 1. -/
theorem busyWrite_ignored (s : State) {off : Offset} (v : Word) (hoff : off.toNat % 4 = 0) (hcmd : off ≠ 0x004#17)
    (hstatus : off ≠ 0x008#17) (hirq : off ≠ 0x010#17) : busyWrite s off v = { s with wrIgn := true } := by
  unfold busyWrite
  cases hloc : locate off
  case cmd => exact absurd hloc (locate_ne rfl hoff hcmd.symm (by decide))
  case status => exact absurd hloc (locate_ne rfl hoff hstatus.symm (by decide))
  case irqEn => exact absurd hloc (locate_ne rfl hoff hirq.symm (by decide))
  all_goals rfl

theorem readableWhileBusy_eq_false {off : Offset} (hoff : off.toNat % 4 = 0) (hid : off ≠ 0x000#17)
    (hcmd : off ≠ 0x004#17) (hstatus : off ≠ 0x008#17) (hirq : off ≠ 0x010#17) :
    readableWhileBusy (locate off) = false := by
  cases hloc : locate off
  case id => exact absurd hloc (locate_ne rfl hoff hid.symm (by decide))
  case cmd => exact absurd hloc (locate_ne rfl hoff hcmd.symm (by decide))
  case status => exact absurd hloc (locate_ne rfl hoff hstatus.symm (by decide))
  case irqEn => exact absurd hloc (locate_ne rfl hoff hirq.symm (by decide))
  all_goals rfl

theorem step_read_dropped {s : State} {rest : List Input} {off : Offset}
    (hin : s.inputs = .access (.read .bits32 off) :: rest) (hoff : off.toNat % 4 = 0) (hbusy : s.busy = true)
    (hdrop : readableWhileBusy (locate off) = false) :
    step s = .next
      { s with
        inputs := rest
        responses := { busError := false, data := Config.busyRead s.draws } :: s.responses
        draws := s.draws + 1 } := by
  rw [step_read hin hoff, hostRead, if_pos (by simp [hbusy, hdrop])]
  rfl

/-- Settles O22: the write is `busyWrite`; the read shows its four registers and else draws a free value (log 5). -/
theorem busyInterlock : Obligations.BusyInterlock := by
  intro s rest off v hbusy hoff
  refine ⟨fun hin => ⟨busyWrite s off v, step_write_busy hin hoff hbusy, ?_, ?_, ?_, ?_⟩,
    fun hin => ⟨fun hreg => ?_, fun hid hcmd hstatus hirq => ?_⟩⟩
  · rintro rfl; rfl
  · rintro rfl; rfl
  · rintro rfl; rfl
  · exact busyWrite_ignored s v hoff
  · have hshown : readableWhileBusy (locate off) = true := by
      obtain rfl | rfl | rfl | rfl := hreg <;> rfl
    refine ⟨memRead s off, step_read_shown hin hoff (.inr hshown), ?_, ?_, ?_, ?_⟩
    · rintro rfl; rfl
    · rintro rfl; rfl
    · rintro rfl
      rw [← hbusy]
      exact statusWord_fields s
    · rintro rfl; exact irqEnWord_eq s
  · exact step_read_dropped hin hoff hbusy (readableWhileBusy_eq_false hoff hid hcmd hstatus hirq)

end Sys2Proof.Machine
end

section
/-! PROOFS. The decoder of command words (30_encoding.md R90 to R94): what the fields RSV and OP of a word select, and
that `encode` gives the only word of each command. -/

namespace Sys2Proof.Machine

/-! ### The opcode map (30_encoding.md R93) -/

theorem eq_opOf_of_decodeOp {n : Nat} {i : Instr} (h : decodeOp n = .ok i) : n = opOf i := by
  unfold decodeOp at h
  split at h <;> cases h <;> rfl

theorem decodeOp_of_unassigned {n : Nat} (h : 6 ≤ n) : decodeOp n = .error .unassignedOp := by
  unfold decodeOp
  split
  case h_7 => rfl
  all_goals omega

theorem exists_opOf {n : Nat} (h : n < 6) : ∃ i, opOf i = n :=
  match n, h with
  | 0, _ => ⟨.nop, rfl⟩
  | 1, _ => ⟨.build, rfl⟩
  | 2, _ => ⟨.gen, rfl⟩
  | 3, _ => ⟨.pack, rfl⟩
  | 4, _ => ⟨.unpack, rfl⟩
  | 5, _ => ⟨.decode, rfl⟩

/-! ### The fields of a word (30_encoding.md R90, R94) -/

theorem decode_of_reservedBits {w : Word} (h : rsvField w ≠ 0) : decode w = .error .reservedBits := if_pos h

theorem decode_of_rsv_zero {w : Word} (h : rsvField w = 0) : decode w = decodeOp (opField w) := if_neg (not_not.2 h)

theorem decode_of_unassignedOp {w : Word} (hrsv : rsvField w = 0) (hop : 6 ≤ opField w) :
    decode w = .error .unassignedOp := by
  rw [decode_of_rsv_zero hrsv, decodeOp_of_unassigned hop]

theorem eq_ofNat_opField {w : Word} (h : rsvField w = 0) : w = BitVec.ofNat 32 (opField w) := by
  unfold rsvField at h
  unfold opField
  bv_omega

theorem rsv_op_of_decode {w : Word} {i : Instr} (h : decode w = .ok i) : rsvField w = 0 ∧ opField w = opOf i := by
  by_cases hrsv : rsvField w = 0
  · exact ⟨hrsv, eq_opOf_of_decodeOp (decode_of_rsv_zero hrsv ▸ h)⟩
  · rw [decode_of_reservedBits hrsv] at h
    cases h

/-! ### Words and commands (30_encoding.md R93, R94) -/

/-- OP determines a word with RSV = 0, so `encode` gives the only word of a command. -/
theorem decode_eq_ok_iff (w : Word) (i : Instr) : decode w = .ok i ↔ w = encode i := by
  constructor
  · intro h
    obtain ⟨hrsv, hop⟩ := rsv_op_of_decode h
    rw [eq_ofNat_opField hrsv, hop, encode]
  · rintro rfl
    exact decode_encode i

theorem decode_illegal_iff (w : Word) : (∃ r, decode w = .error r) ↔ rsvField w ≠ 0 ∨ 6 ≤ opField w := by
  constructor
  · rintro ⟨r, hr⟩
    by_contra! hfields
    obtain ⟨hrsv, hop⟩ := hfields
    obtain ⟨i, hi⟩ := exists_opOf hop
    have hok : decode w = .ok i := (decode_eq_ok_iff w i).2 (by rw [eq_ofNat_opField hrsv, ← hi, encode])
    rw [hok] at hr
    cases hr
  · intro h
    by_cases hrsv : rsvField w = 0
    · exact ⟨_, decode_of_unassignedOp hrsv (h.resolve_left (not_not.2 hrsv))⟩
    · exact ⟨_, decode_of_reservedBits hrsv⟩

/-- Settles O1: a word is ILLEGAL by one of its two fields, and otherwise it is the word of the command OP names. -/
theorem decodeSelectsExactlyTheOpcodeWords : Obligations.DecodeSelectsExactlyTheOpcodeWords := by
  refine ⟨decode_eq_ok_iff, fun w => (decode_illegal_iff w).symm, fun w => ?_⟩
  cases hw : decode w with
  | error r => simp
  | ok i =>
    obtain rfl := (decode_eq_ok_iff w i).1 hw
    cases i <;> simp [encode, opOf]

/-- Settles O2: the six words are those `encode` gives, and each of the others has a field that makes it ILLEGAL. -/
theorem opcodeMapWords : Obligations.OpcodeMapWords :=
  ⟨decode_encode .nop, decode_encode .build, decode_encode .gen, decode_encode .pack, decode_encode .unpack,
    decode_encode .decode,
    decode_of_unassignedOp (by decide) (by decide), decode_of_unassignedOp (by decide) (by decide),
    decode_of_reservedBits (by decide), decode_of_reservedBits (by decide)⟩

end Sys2Proof.Machine
end

section
/-! PROOFS. TreeWF's walk (40_tree_builder.md R118, R119): when it answers a tree, and what shape that tree has. -/

namespace Sys2Proof.Machine

/-! ### NODE words by their kind (10_state.md R35) -/

theorem reservedBitSet_iff (w : Word) :
    ReservedBitSet w ↔
      isLeafWord w = true ∧ leafReservedClear w = false ∨ isLeafWord w = false ∧ innerReservedClear w = false := by
  simp [ReservedBitSet, isLeafWord, leafReservedClear, innerReservedClear, ← imp_iff_not_or]

/-- A word with its reserved bits 0 is a leaf's or an internal node's. -/
theorem word_cases (w : Word) :
    ReservedBitSet w ∨ (∃ sym, w = leafWord sym) ∨ ∃ l r, l < 512 ∧ r < 512 ∧ w = innerWord l r := by
  rw [reservedBitSet_iff]
  cases hl : isLeafWord w with
  | true =>
    cases hr : leafReservedClear w with
    | true => exact .inr (.inl ⟨_, eq_leafWord w hl hr⟩)
    | false => exact .inl (.inl ⟨rfl, rfl⟩)
  | false =>
    cases hr : innerReservedClear w with
    | true => exact .inr (.inr ⟨_, _, leftField_lt w, rightField_lt w, eq_innerWord w hl hr⟩)
    | false => exact .inl (.inr ⟨rfl, rfl⟩)

/-! ### What the walk has seen -/

/-- The walk has come to the internal node `i`. -/
def Seen.enter (i : Nat) (seen : Seen) : Seen := { seen with nodes := i :: seen.nodes }

/-- The walk has gone through the whole of `T`. -/
def Seen.after (T : CodeTree) (seen : Seen) : Seen where
  nodes := T.indices.reverse ++ seen.nodes
  syms := T.symbols.reverse ++ seen.syms

/-- Nothing has been seen twice. -/
def Seen.Nodup (seen : Seen) : Prop := seen.nodes.Nodup ∧ seen.syms.Nodup

/-- The walk has seen the indices `ns` and the symbols `ss`, in any order. -/
def Seen.Lists (seen : Seen) (ns : List Nat) (ss : List Byte) : Prop := seen.nodes.Perm ns ∧ seen.syms.Perm ss

/-- The depth that is left covers the nodes that have not been seen (40_tree_builder.md R119, log 12). -/
def Seen.Room (s : State) (depth : Nat) (seen : Seen) : Prop :=
  (∀ j ∈ seen.nodes, j < s.treeCount.toNat) ∧ s.treeCount.toNat < depth + seen.nodes.length

theorem Seen.after_leaf (i : Nat) (sym : Byte) (seen : Seen) :
    seen.after (.leaf i sym) = { nodes := i :: seen.nodes, syms := sym :: seen.syms } := rfl

theorem Seen.after_inner (i : Nat) (l r : CodeTree) (seen : Seen) :
    seen.after (.inner i l r) = ((seen.enter i).after l).after r := by
  simp [Seen.after, Seen.enter, CodeTree.indices, CodeTree.symbols]

theorem Seen.nodup_after_leaf_iff {i : Nat} {sym : Byte} {seen : Seen} :
    (seen.after (.leaf i sym)).Nodup ↔ (i ∉ seen.nodes ∧ sym ∉ seen.syms) ∧ seen.Nodup := by
  simp only [Seen.after_leaf, Seen.Nodup, List.nodup_cons, and_and_and_comm]

theorem Seen.nodup_enter_iff {i : Nat} {seen : Seen} : (seen.enter i).Nodup ↔ i ∉ seen.nodes ∧ seen.Nodup := by
  simp only [Seen.enter, Seen.Nodup, List.nodup_cons, and_assoc]

theorem Seen.Nodup.of_after {T : CodeTree} {seen : Seen} (h : (seen.after T).Nodup) : seen.Nodup :=
  ⟨h.1.of_append_right, h.2.of_append_right⟩

theorem Seen.Lists.enter {seen : Seen} {ns : List Nat} {ss : List Byte} (h : seen.Lists ns ss) (i : Nat) :
    (seen.enter i).Lists (i :: ns) ss := ⟨h.1.cons i, h.2⟩

theorem Seen.Lists.after {seen : Seen} {ns : List Nat} {ss : List Byte} (h : seen.Lists ns ss) (T : CodeTree) :
    (seen.after T).Lists (T.indices ++ ns) (T.symbols ++ ss) :=
  ⟨(List.reverse_perm _).append h.1, (List.reverse_perm _).append h.2⟩

theorem Seen.Lists.nodup_iff {seen : Seen} {ns : List Nat} {ss : List Byte} (h : seen.Lists ns ss) :
    seen.Nodup ↔ ns.Nodup ∧ ss.Nodup := and_congr h.1.nodup_iff h.2.nodup_iff

theorem CodeTree.storedIn_indices_lt {s : State} {T : CodeTree} (h : T.storedIn s) :
    ∀ j ∈ T.indices, j < s.treeCount.toNat := by
  induction T with
  | leaf i sym => simpa [CodeTree.indices] using h.1
  | inner i l r ihl ihr =>
    obtain ⟨hi, _, hl, hr⟩ := h
    simp only [CodeTree.indices, List.mem_cons, List.mem_append]
    rintro j (rfl | hj | hj)
    · exact hi
    · exact ihl hl j hj
    · exact ihr hr j hj

theorem CodeTree.indices_length_pos (T : CodeTree) : 0 < T.indices.length := by
  cases T <;> simp [CodeTree.indices]

theorem length_le_of_nodup_bounded {l : List Nat} {n : Nat} (hn : l.Nodup) (hb : ∀ j ∈ l, j < n) : l.length ≤ n := by
  simpa using (hn.subperm (fun j hj => List.mem_range.2 (hb j hj))).length_le

/-- The bound of the walk's depth is never reached. -/
theorem Seen.Room.depth_pos {s : State} {depth : Nat} {seen : Seen} (h : seen.Room s depth) (hn : seen.Nodup) :
    ∃ d, depth = d + 1 := by
  obtain ⟨hb, hroom⟩ := h
  have := length_le_of_nodup_bounded hn.1 hb
  exact Nat.exists_eq_succ_of_ne_zero (by omega)

theorem Seen.Room.enter {s : State} {depth i : Nat} {seen : Seen} (h : seen.Room s (depth + 1))
    (hi : i < s.treeCount.toNat) : (seen.enter i).Room s depth := by
  obtain ⟨hb, hroom⟩ := h
  refine ⟨?_, by simp only [Seen.enter, List.length_cons]; omega⟩
  simp only [Seen.enter, List.mem_cons]
  rintro j (rfl | hj)
  · exact hi
  · exact hb j hj

theorem Seen.Room.after {s : State} {depth : Nat} {seen : Seen} {T : CodeTree} (h : seen.Room s depth)
    (hT : T.storedIn s) : (seen.after T).Room s depth := by
  obtain ⟨hb, hroom⟩ := h
  refine ⟨?_, by simp only [Seen.after, List.length_append]; omega⟩
  simp only [Seen.after, List.mem_append, List.mem_reverse]
  rintro j (hj | hj)
  · exact CodeTree.storedIn_indices_lt hT j hj
  · exact hb j hj

/-! ### One visit (40_tree_builder.md R118): an equation per case -/

section Visit
variable {s : State} {depth i : Nat} {seen : Seen}

theorem visit_outOfRange (hi : s.treeCount.toNat ≤ i) : visit s (depth + 1) i seen = badTree i := by
  rw [visit, if_pos hi]

theorem visit_reached (hi : i ∈ seen.nodes) : visit s (depth + 1) i seen = badTree i := by
  rw [visit, if_pos hi, ite_self]

theorem visit_unwritten (hi : i < s.treeCount.toNat) (hfresh : i ∉ seen.nodes) (hw : s.node.peek i = none) :
    visit s (depth + 1) i seen = .error (.fault (.unwritten .node i)) := by
  rw [visit, if_neg (Nat.not_le.2 hi), if_neg hfresh, readNode, (element_error_iff ..).2 ⟨hw, rfl⟩]

theorem visit_reservedBit {w : Word} (hw : s.node.peek i = some w) (hbit : ReservedBitSet w) :
    visit s (depth + 1) i seen = badTree i := by
  have hread : readNode s i = .ok w := (element_ok_iff ..).2 hw
  rw [visit, hread]
  obtain ⟨hl, hr⟩ | ⟨hl, hr⟩ := (reservedBitSet_iff w).1 hbit <;> simp [hl, hr]

theorem visit_leaf {sym : Byte} (hi : i < s.treeCount.toNat) (hfresh : i ∉ seen.nodes)
    (hw : s.node.peek i = some (leafWord sym)) :
    visit s (depth + 1) i seen =
      if sym ∈ seen.syms then badTree i else .ok (.leaf i sym, seen.after (.leaf i sym)) := by
  have hread : readNode s i = .ok (leafWord sym) := (element_ok_iff ..).2 hw
  rw [visit, if_neg (Nat.not_le.2 hi), if_neg hfresh, hread]
  simp [Seen.after_leaf]

theorem visit_inner {l r : Nat} (hi : i < s.treeCount.toNat) (hfresh : i ∉ seen.nodes) (hl : l < 512) (hr : r < 512)
    (hw : s.node.peek i = some (innerWord l r)) :
    visit s (depth + 1) i seen =
      (visit s depth l (seen.enter i)).bind fun a =>
        (visit s depth r a.2).bind fun b => .ok (.inner i a.1 b.1, b.2) := by
  have hread : readNode s i = .ok (innerWord l r) := (element_ok_iff ..).2 hw
  rw [visit, if_neg (Nat.not_le.2 hi), if_neg hfresh, hread]
  simp only [isLeafWord_innerWord l r hl hr, innerReservedClear_innerWord l r hl hr,
    leftField_innerWord l r hl hr, rightField_innerWord l r hl hr, Seen.enter]
  cases visit s depth l { seen with nodes := i :: seen.nodes } with
  | error e => rfl
  | ok a => cases hb : visit s depth r a.2 <;> simp [Except.bind, hb]

end Visit

/-! ### When the walk answers a tree -/

/-- A walk that answers has gone through a stored tree and has seen nothing twice. -/
theorem visit_sound {s : State} {depth i : Nat} {seen seen' : Seen} {T : CodeTree}
    (h : visit s depth i seen = .ok (T, seen')) (hn : seen.Nodup) :
    T.index = i ∧ T.storedIn s ∧ seen' = seen.after T ∧ seen'.Nodup := by
  induction depth generalizing i seen seen' T with
  | zero => cases h
  | succ depth ih =>
    obtain ⟨hi, hfresh, w, hw, ⟨hleaf, hres, hsym, rfl, rfl⟩ | ⟨hinner, hres, l, seen₁, r, hl, hr, rfl⟩⟩ := visit_ok h
    · exact ⟨rfl, ⟨hi, eq_leafWord w hleaf hres ▸ hw⟩, rfl, Seen.nodup_after_leaf_iff.2 ⟨⟨hfresh, hsym⟩, hn⟩⟩
    · obtain ⟨hli, hls, rfl, hln⟩ := ih hl (Seen.nodup_enter_iff.2 ⟨hfresh, hn⟩)
      obtain ⟨hri, hrs, rfl, hrn⟩ := ih hr hln
      refine ⟨rfl, ⟨hi, ?_, hls, hrs⟩, (Seen.after_inner ..).symm, hrn⟩
      rw [hw, hli, hri, ← eq_innerWord w hinner hres]

/-- A stored tree that repeats nothing is walked through. -/
theorem visit_complete {s : State} (hc : s.treeCount.toNat ≤ Config.maxNodes) {depth : Nat} {seen : Seen}
    {T : CodeTree} (hT : T.storedIn s) (hn : (seen.after T).Nodup) (hroom : seen.Room s depth) :
    visit s depth T.index seen = .ok (T, seen.after T) := by
  induction T generalizing depth seen with
  | leaf i sym =>
    obtain ⟨d, rfl⟩ := hroom.depth_pos hn.of_after
    obtain ⟨⟨hfresh, hsym⟩, _⟩ := Seen.nodup_after_leaf_iff.1 hn
    rw [CodeTree.index, visit_leaf hT.1 hfresh hT.2, if_neg hsym]
  | inner i l r ihl ihr =>
    obtain ⟨d, rfl⟩ := hroom.depth_pos hn.of_after
    obtain ⟨hi, hw, hls, hrs⟩ := hT
    have hl : l.index < 512 := Nat.lt_trans (CodeTree.storedIn_index_lt hls) (Nat.lt_succ_of_le hc)
    have hr : r.index < 512 := Nat.lt_trans (CodeTree.storedIn_index_lt hrs) (Nat.lt_succ_of_le hc)
    rw [Seen.after_inner] at hn
    obtain ⟨hfresh, _⟩ := Seen.nodup_enter_iff.1 hn.of_after.of_after
    rw [CodeTree.index, visit_inner hi hfresh hl hr hw, ihl hls hn.of_after (hroom.enter hi), Seen.after_inner]
    simp only [Except.bind]
    rw [ihr hrs hn ((hroom.enter hi).after hls)]

/-- Where the walk begins. -/
def Seen.empty : Seen := { nodes := [], syms := [] }

theorem Seen.empty_nodup : Seen.empty.Nodup := ⟨.nil, .nil⟩

theorem Seen.empty_lists : Seen.empty.Lists [] [] := ⟨.refl _, .refl _⟩

theorem Seen.empty_room (s : State) : Seen.empty.Room s (s.treeCount.toNat + 1) :=
  ⟨by simp [Seen.empty], by simp [Seen.empty]⟩

theorem Seen.nodup_after_empty_iff {T : CodeTree} :
    (Seen.empty.after T).Nodup ↔ T.indices.Nodup ∧ T.symbols.Nodup := by
  simpa using (Seen.empty_lists.after T).nodup_iff

theorem treeWF_count {s : State} (h : Config.maxNodes < s.treeCount.toNat) :
    treeWF s = badTree s.treeCount.toNat := by
  rw [treeWF, if_pos h]

/-- TreeWF is the walk from ROOT. -/
theorem treeWF_eq_visit {s : State} (h : s.treeCount.toNat ≤ Config.maxNodes) :
    treeWF s = (visit s (s.treeCount.toNat + 1) s.root.toNat Seen.empty).map Prod.fst := by
  rw [treeWF, if_neg (Nat.not_lt.2 h)]
  unfold Seen.empty
  cases visit s (s.treeCount.toNat + 1) s.root.toNat { nodes := [], syms := [] } <;> rfl

/-- Settles O33: the walk answers only stored trees that repeat nothing, and it goes through every such tree. -/
theorem treeWFAcceptsExactlyTheStrictTrees : Obligations.TreeWFAcceptsExactlyTheStrictTrees := by
  intro s T
  constructor
  · intro h
    by_cases hc : s.treeCount.toNat ≤ Config.maxNodes
    · rw [treeWF_eq_visit hc] at h
      cases hv : visit s (s.treeCount.toNat + 1) s.root.toNat Seen.empty with
      | error e => rw [hv] at h; cases h
      | ok a =>
        rw [hv] at h
        cases h
        obtain ⟨hroot, hstored, hafter, hn⟩ := visit_sound hv Seen.empty_nodup
        obtain ⟨hin, hsn⟩ := Seen.nodup_after_empty_iff.1 (hafter ▸ hn)
        exact ⟨hc, hroot, hstored, hin, hsn⟩
    · rw [treeWF_count (Nat.lt_of_not_le hc)] at h
      cases h
  · rintro ⟨hc, hroot, hstored, hin, hsn⟩
    rw [treeWF_eq_visit hc, ← hroot,
      visit_complete hc hstored (Seen.nodup_after_empty_iff.2 ⟨hin, hsn⟩) (Seen.empty_room s)]
    rfl

/-! ### The shape of an accepted tree (40_tree_builder.md R119) -/

theorem CodeTree.indices_length (T : CodeTree) : T.indices.length = 2 * T.symbols.length - 1 := by
  induction T with
  | leaf i sym => rfl
  | inner i l r ihl ihr =>
    have := l.symbols_length_pos
    have := r.symbols_length_pos
    simp only [CodeTree.indices, CodeTree.symbols, List.length_cons, List.length_append, ihl, ihr]
    omega

/-- Each step of a descent leaves at least one leaf aside. -/
theorem CodeTree.descend_length {T sub : CodeTree} {path : List Bool} (h : T.descend path = some sub) :
    path.length + sub.symbols.length ≤ T.symbols.length := by
  induction path generalizing T with
  | nil => rw [CodeTree.descend_nil] at h; cases h; simp
  | cons b path ih =>
    cases T with
    | leaf i sym => cases h
    | inner i l r =>
      have hl := l.symbols_length_pos
      have hr := r.symbols_length_pos
      simp only [CodeTree.symbols, List.length_append, List.length_cons]
      cases b
      · have := ih (T := l) h
        omega
      · have := ih (T := r) h
        omega

/-- Settles O34: the counts and the depth are those of any tree, and its indices and symbols are distinct. -/
theorem acceptedTreesAreFullAndShallow : Obligations.AcceptedTreesAreFullAndShallow := by
  intro s T h
  obtain ⟨_, _, hstored, hin, hsn⟩ := (treeWFAcceptsExactlyTheStrictTrees s T).1 h
  refine ⟨hin, hsn, length_le_of_nodup_bytes hsn, T.indices_length,
    length_le_of_nodup_bounded hin (CodeTree.storedIn_indices_lt hstored), fun path sub hp => ?_⟩
  have := CodeTree.descend_length hp
  have := sub.symbols_length_pos
  omega

end Sys2Proof.Machine
end

section
/-! PROOFS. Where TreeWF's walk says BAD (40_tree_builder.md R118), and how GEN and DECODE then end. -/

namespace Sys2Proof.Machine

/-! ### The first offence of the walk -/

/-- A walk that stops has met the first offence, or a node below TREE_COUNT that has not been written. -/
theorem visit_stops {s : State} {depth i : Nat} {seen : Seen} {ns : List Nat} {ss : List Byte} {e : Stop}
    (h : visit s depth i seen = .error e) (hn : seen.Nodup) (hroom : seen.Room s depth) (hlists : seen.Lists ns ss) :
    (∃ x, e = .raise .badTree (BitVec.ofNat 32 x) ∧ FirstOffence s i ns ss x) ∨
      ∃ j, j < s.treeCount.toNat ∧ s.node.peek j = none ∧ e = .fault (.unwritten .node j) := by
  induction depth generalizing i seen ns ss with
  | zero => obtain ⟨d, hd⟩ := hroom.depth_pos hn; cases hd
  | succ depth ih =>
    rcases Nat.lt_or_ge i s.treeCount.toNat with hi | hi
    case inr => rw [visit_outOfRange hi] at h; cases h; exact .inl ⟨i, rfl, .outOfRange i ns ss hi⟩
    by_cases hfresh : i ∈ seen.nodes
    case pos =>
      rw [visit_reached hfresh] at h
      cases h
      exact .inl ⟨i, rfl, .reached i ns ss (hlists.1.mem_iff.1 hfresh)⟩
    have hi_ns : i ∉ ns := fun hm => hfresh (hlists.1.mem_iff.2 hm)
    cases hw : s.node.peek i with
    | none => rw [visit_unwritten hi hfresh hw] at h; cases h; exact .inr ⟨i, hi, hw, rfl⟩
    | some w =>
      obtain hbit | ⟨sym, rfl⟩ | ⟨l, r, hl, hr, rfl⟩ := word_cases w
      · rw [visit_reservedBit hw hbit] at h; cases h; exact .inl ⟨i, rfl, .reservedBit i ns ss w hw hbit⟩
      · rw [visit_leaf hi hfresh hw] at h
        split at h
        · next hsym => cases h; exact .inl ⟨i, rfl, .symbolTwice i ns ss sym hw (hlists.2.mem_iff.1 hsym)⟩
        · cases h
      · have hen := Seen.nodup_enter_iff.2 ⟨hfresh, hn⟩
        rw [visit_inner hi hfresh hl hr hw] at h
        cases hvl : visit s depth l (seen.enter i) with
        | error e' =>
          rw [hvl] at h
          cases h
          exact (ih hvl hen (hroom.enter hi) (hlists.enter i)).imp_left fun ⟨x, he, hx⟩ =>
            ⟨x, he, .inLeft i ns ss l r x hi hi_ns hl hr hw hx⟩
        | ok a =>
          obtain ⟨L, seen₁⟩ := a
          obtain ⟨rfl, hL, rfl, hLn⟩ := visit_sound hvl hen
          rw [hvl] at h
          simp only [Except.bind] at h
          have hlists₁ := (hlists.enter i).after L
          obtain ⟨hin, hsn⟩ := hlists₁.nodup_iff.1 hLn
          cases hvr : visit s depth r ((seen.enter i).after L) with
          | error e' =>
            rw [hvr] at h
            cases h
            exact (ih hvr hLn ((hroom.enter hi).after hL) hlists₁).imp_left fun ⟨x, he, hx⟩ =>
              ⟨x, he, .inRight i ns ss L r x hi hi_ns hl hr hw hL hin hsn hx⟩
          | ok b => rw [hvr] at h; cases h

/-- The walk stops at its first offence. -/
theorem visit_of_firstOffence {s : State} (hc : s.treeCount.toNat ≤ Config.maxNodes) {i x : Nat} {ns : List Nat}
    {ss : List Byte} (h : FirstOffence s i ns ss x) {depth : Nat} {seen : Seen} (hn : seen.Nodup)
    (hroom : seen.Room s depth) (hlists : seen.Lists ns ss) : visit s depth i seen = badTree x := by
  induction h generalizing depth seen with
  | outOfRange i ns ss hi =>
    obtain ⟨d, rfl⟩ := hroom.depth_pos hn
    exact visit_outOfRange hi
  | reached i ns ss hi =>
    obtain ⟨d, rfl⟩ := hroom.depth_pos hn
    exact visit_reached (hlists.1.mem_iff.2 hi)
  | reservedBit i ns ss w hw hbit =>
    obtain ⟨d, rfl⟩ := hroom.depth_pos hn
    exact visit_reservedBit hw hbit
  | symbolTwice i ns ss sym hw hsym =>
    obtain ⟨d, rfl⟩ := hroom.depth_pos hn
    rcases Nat.lt_or_ge i s.treeCount.toNat with hi | hi
    case inr => exact visit_outOfRange hi
    by_cases hfresh : i ∈ seen.nodes
    · exact visit_reached hfresh
    · rw [visit_leaf hi hfresh hw, if_pos (hlists.2.mem_iff.2 hsym)]
  | inLeft i ns ss l r x hi hi_ns hl hr hw _ ih =>
    obtain ⟨d, rfl⟩ := hroom.depth_pos hn
    have hfresh : i ∉ seen.nodes := fun hm => hi_ns (hlists.1.mem_iff.1 hm)
    rw [visit_inner hi hfresh hl hr hw,
      ih (Seen.nodup_enter_iff.2 ⟨hfresh, hn⟩) (hroom.enter hi) (hlists.enter i)]
    rfl
  | inRight i ns ss L r x hi hi_ns hl hr hw hL hin hsn _ ih =>
    obtain ⟨d, rfl⟩ := hroom.depth_pos hn
    have hfresh : i ∉ seen.nodes := fun hm => hi_ns (hlists.1.mem_iff.1 hm)
    have hlists₁ := (hlists.enter i).after L
    have hLn := hlists₁.nodup_iff.2 ⟨hin, hsn⟩
    rw [visit_inner hi hfresh hl hr hw, visit_complete hc hL hLn (hroom.enter hi)]
    simp only [Except.bind]
    rw [ih hLn ((hroom.enter hi).after hL) hlists₁]
    rfl

theorem FirstOffence.lt {s : State} {i x : Nat} {ns : List Nat} {ss : List Byte} (h : FirstOffence s i ns ss x)
    (hi : i < 2 ^ 32) : x < 2 ^ 32 := by
  induction h with
  | outOfRange | reached | reservedBit | symbolTwice => exact hi
  | inLeft i ns ss l r x _ _ hl _ _ _ ih => exact ih (by omega)
  | inRight i ns ss l r x _ _ _ hr _ _ _ _ _ ih => exact ih (by omega)

/-- TREE_COUNT is above 511 and `x` is TREE_COUNT, or `x` is the first offence of the walk from ROOT. -/
def Offends (s : State) (x : Word) : Prop :=
  Config.maxNodes < s.treeCount.toNat ∧ x = s.treeCount ∨
    s.treeCount.toNat ≤ Config.maxNodes ∧ FirstOffence s s.root.toNat [] [] x.toNat

theorem badTree_toNat {α : Type} (x : Word) : (badTree x.toNat : Except Stop α) = .error (.raise .badTree x) := by
  simp [badTree]

/-- TreeWF stops at the first offence, or at a node below TREE_COUNT that has not been written. -/
theorem treeWF_stops {s : State} {e : Stop} (h : treeWF s = .error e) :
    (∃ x, e = .raise .badTree x ∧ Offends s x) ∨
      ∃ j, j < Config.maxNodes ∧ s.node.peek j = none ∧ e = .fault (.unwritten .node j) := by
  by_cases hc : s.treeCount.toNat ≤ Config.maxNodes
  · rw [treeWF_eq_visit hc] at h
    cases hv : visit s (s.treeCount.toNat + 1) s.root.toNat Seen.empty with
    | ok a => rw [hv] at h; cases h
    | error e' =>
      rw [hv] at h
      cases h
      obtain ⟨x, rfl, hx⟩ | ⟨j, hj, hfault⟩ := visit_stops hv Seen.empty_nodup (Seen.empty_room s) Seen.empty_lists
      · refine .inl ⟨_, rfl, .inr ⟨hc, ?_⟩⟩
        rwa [BitVec.toNat_ofNat, Nat.mod_eq_of_lt (hx.lt s.root.isLt)]
      · exact .inr ⟨j, Nat.lt_of_lt_of_le hj hc, hfault⟩
  · rw [treeWF_count (Nat.lt_of_not_le hc), badTree_toNat] at h
    cases h
    exact .inl ⟨_, rfl, .inl ⟨Nat.lt_of_not_le hc, rfl⟩⟩

theorem treeWF_badTree_iff (s : State) (x : Word) : treeWF s = .error (.raise .badTree x) ↔ Offends s x := by
  constructor
  · intro h
    obtain ⟨y, hy, hoff⟩ | ⟨_, _, _, he⟩ := treeWF_stops h
    · cases hy; exact hoff
    · cases he
  · rintro (⟨hc, rfl⟩ | ⟨hc, hx⟩)
    · rw [treeWF_count hc, badTree_toNat]
    · rw [treeWF_eq_visit hc,
        visit_of_firstOffence hc hx Seen.empty_nodup (Seen.empty_room s) Seen.empty_lists, badTree_toNat]
      rfl

/-! ### GEN and DECODE with a bad tree -/

theorem errorCode_injective {e e' : ErrorKind} (h : errorCode e = errorCode e') : e = e' := by
  have hidx (a : ErrorKind) : (errorCode a).toNat = a.ctorIdx + 1 := by cases a <;> rfl
  have heq := congrArg BitVec.toNat h
  rw [hidx, hidx, Nat.add_right_cancel_iff] at heq
  rw [← ErrorKind.ofNat_ctorIdx e, heq, ErrorKind.ofNat_ctorIdx]

/-- A command ends in the state of an error exactly when its run raises it. -/
theorem endCommand_eq_raise_iff (s : State) (r : Except Stop State) (e : ErrorKind) (info : Word) :
    endCommand s r = .next (s.raise e info) ↔ r = .error (.raise e info) := by
  refine ⟨fun h => ?_, fun h => h ▸ rfl⟩
  obtain ⟨s', rfl, ht⟩ | ⟨e', info', rfl, ht⟩ | ⟨e', info', rfl, ht⟩ := endCommand_next h
  · have := congrArg State.done ht
    cases this
  · have hcode := congrArg State.errCode ht
    have hinfo := congrArg State.errInfo ht
    simp only [State.raise_errCode, State.raise_errInfo] at hcode hinfo
    rw [errorCode_injective hcode, hinfo]
  · have := congrArg State.draws ht
    simp at this

theorem genRun_badTree_iff {s : State} (h0 : s.treeCount ≠ 0) (x : Word) :
    genRun s = .error (.raise .badTree x) ↔ treeWF s = .error (.raise .badTree x) := by
  refine ⟨fun h => (genRun_error h).2, fun h => ?_⟩
  rw [genRun, if_neg h0, h]

/-- Once DECODE has a tree it raises other errors only (44_tree_decoder.md R176). -/
theorem decodeRun_badTree_iff {s : State} (h0 : s.treeCount ≠ 0) (hcap : s.bitLen.toNat ≤ Config.bitCap) (x : Word) :
    decodeRun s = .error (.raise .badTree x) ↔ treeWF s = .error (.raise .badTree x) := by
  constructor
  · intro h
    obtain ⟨hlt, _⟩ | ⟨_, ⟨hz, _⟩ | ⟨_, ht⟩ | ⟨_, t, _, ⟨he, _⟩ | ⟨w, _, ⟨_, hs⟩ | ⟨_, hw⟩⟩⟩⟩ := decodeRun_error h
    · exact absurd hcap (Nat.not_le.2 hlt)
    · exact absurd hz h0
    · exact ht
    · cases he
    · obtain ⟨_, he⟩ | ⟨_, ⟨_, _, _, he⟩ | ⟨_, he, _⟩⟩ := decodeSingle_error hs <;> cases he
    · obtain he | ⟨_, _, _, he⟩ | ⟨_, he, _⟩ | ⟨_, he, _⟩ := decodeWalk_error hw <;> cases he
  · intro h
    rw [decodeRun, if_neg (Nat.not_lt.2 hcap), if_neg h0, h]

theorem execGen_badTree_iff {s : State} (h0 : s.treeCount ≠ 0) (x : Word) :
    exec .gen s = .next (s.raise .badTree x) ↔ Offends s x := by
  rw [exec_eq, runOf, endCommand_eq_raise_iff, genRun_badTree_iff h0, treeWF_badTree_iff]

theorem execDecode_badTree_iff {s : State} (h0 : s.treeCount ≠ 0) (hcap : s.bitLen.toNat ≤ Config.bitCap) (x : Word) :
    exec .decode s = .next (s.raise .badTree x) ↔ Offends s x := by
  rw [exec_eq, runOf, endCommand_eq_raise_iff, decodeRun_badTree_iff h0 hcap, treeWF_badTree_iff]

/-- Settles O56: both commands stop with BAD_TREE exactly where TreeWF does, which is the first offence. -/
theorem genNamesTheFirstOffence : Obligations.GenNamesTheFirstOffence := by
  intro s x h0
  exact ⟨(execGen_badTree_iff h0 x).symm, fun hcap => (execDecode_badTree_iff h0 hcap x).symm⟩

/-- Settles O36: over written nodes TreeWF can stop at an offence only, and GEN and DECODE stop there. -/
theorem everyOtherTreeIsBad : Obligations.EveryOtherTreeIsBad := by
  intro s h0 hwritten hnone
  cases ht : treeWF s with
  | ok T => exact absurd ⟨T, (treeWFAcceptsExactlyTheStrictTrees s T).1 ht⟩ hnone
  | error e =>
    obtain ⟨x, _, hx⟩ | ⟨j, hj, hpeek, _⟩ := treeWF_stops ht
    · exact ⟨x, (execGen_badTree_iff h0 x).2 hx, fun hcap => (execDecode_badTree_iff h0 hcap x).2 hx⟩
    · have := hwritten j hj
      rw [hpeek] at this
      cases this

/-- Settles O35: each clause is a first offence of the walk, at the root, in its left subtree, or in the right one
after a left leaf. -/
theorem genNamesTheOffendingNode : Obligations.GenNamesTheOffendingNode := by
  intro s bad h0 hbad
  have named {x : Word} (hx : Offends s x) : bad x := (hbad x).2 ((execGen_badTree_iff h0 x).2 hx)
  have atRoot (hc : s.treeCount.toNat ≤ 511) (hx : FirstOffence s s.root.toNat [] [] s.root.toNat) : bad s.root :=
    named (.inr ⟨hc, hx⟩)
  refine ⟨fun hc => named (.inl ⟨hc, rfl⟩), fun hc hr => atRoot hc (.outOfRange _ _ _ hr), fun w hc hroot hw => ?_⟩
  refine ⟨fun hbit => atRoot hc (.reservedBit _ _ _ w hw hbit), ?_⟩
  rintro l r hl hr rfl
  have atNode {y : Nat} (hy : y < 512) (hx : FirstOffence s s.root.toNat [] [] y) : bad (BitVec.ofNat 32 y) := by
    refine named (.inr ⟨hc, ?_⟩)
    rwa [BitVec.toNat_ofNat, Nat.mod_eq_of_lt (by omega)]
  have inLeft (hx : FirstOffence s l [s.root.toNat] [] l) : bad (BitVec.ofNat 32 l) :=
    atNode hl (.inLeft _ _ _ l r l hroot (by simp) hl hr hw hx)
  refine ⟨?_, fun wl _ _ hwl hbit => inLeft (.reservedBit _ _ _ wl hwl hbit), fun sym hlc hlr hwl => ?_⟩
  · rintro (hrange | rfl)
    · exact inLeft (.outOfRange _ _ _ hrange)
    · exact inLeft (.reached _ _ _ (by simp))
  have inRight (hx : FirstOffence s r [l, s.root.toNat] [sym] r) : bad (BitVec.ofNat 32 r) :=
    atNode hr (.inRight _ _ _ (.leaf l sym) r r hroot (by simp) hl hr hw ⟨hlc, hwl⟩
      (by simpa [CodeTree.indices] using hlr) (by simp [CodeTree.symbols]) hx)
  refine ⟨?_, fun wr _ _ _ hwr hbit => inRight (.reservedBit _ _ _ wr hwr hbit),
    fun _ _ _ hwr => inRight (.symbolTwice _ _ _ sym hwr (by simp))⟩
  rintro (hrange | rfl | rfl)
  · exact inRight (.outOfRange _ _ _ hrange)
  · exact inRight (.reached _ _ _ (by simp))
  · exact inRight (.reached _ _ _ (by simp))

end Sys2Proof.Machine
end

section
/-! PROOFS. BUILD's pool and its merges (40_tree_builder.md R111, R114, R115): the pools BUILD goes through, told by
the arrays it leaves. -/

namespace Sys2Proof.Machine

/-! ### The least key of the pool (40_tree_builder.md R114) -/

theorem keyLess_iff (a b : Key) : keyLess a b = true ↔ a.freq < b.freq ∨ a.freq = b.freq ∧ a.index < b.index := by
  simp [keyLess]

theorem popLeast_perm {pool rest : List Key} {m : Key} (h : popLeast pool = some (m, rest)) :
    pool.Perm (m :: rest) := by
  induction pool generalizing m rest with
  | nil => cases h
  | cons k ks ih =>
    unfold popLeast at h
    split at h
    · next hnone => cases h; rw [popLeast_eq_none hnone]
    · next m' rest' hsome =>
      split at h
      · cases h; exact ((ih hsome).cons k).trans (.swap ..)
      · cases h; exact .refl _

/-- No other key of the pool is less than the one taken. -/
theorem popLeast_least {pool rest : List Key} {m : Key} (h : popLeast pool = some (m, rest)) :
    ∀ k ∈ rest, ¬keyLess k m = true := by
  induction pool generalizing m rest with
  | nil => cases h
  | cons k ks ih =>
    unfold popLeast at h
    split at h
    · cases h; simp
    next m' rest' hsome =>
    have hleast := ih hsome
    simp only [keyLess_iff] at hleast h ⊢
    split at h
    · next hless =>
      cases h
      intro x hx
      rcases List.mem_cons.1 hx with rfl | hx
      · omega
      · exact hleast x hx
    · next hnot =>
      cases h
      intro x hx
      rcases List.mem_cons.1 ((popLeast_perm hsome).mem_iff.1 hx) with rfl | hx
      · exact hnot
      · have := hleast x hx
        omega

/-- Keys of different nodes are different, so the key taken is the least (40_tree_builder.md R114). -/
theorem keyLess_of_popLeast {pool rest : List Key} {m k : Key} (h : popLeast pool = some (m, rest))
    (hn : (pool.map Key.index).Nodup) (hk : k ∈ rest) : keyLess m k = true := by
  have hne : m.index ≠ k.index := by
    rw [((popLeast_perm h).map Key.index).nodup_iff, List.map_cons, List.nodup_cons] at hn
    intro heq
    exact hn.1 (heq ▸ List.mem_map_of_mem hk)
  have := popLeast_least h k hk
  rw [keyLess_iff] at this ⊢
  omega

/-- A merge takes two nodes out of the pool. -/
theorem popLeast_twice_perm {pool pool₁ pool₂ : List Key} {a b : Key} (ha : popLeast pool = some (a, pool₁))
    (hb : popLeast pool₁ = some (b, pool₂)) : pool.Perm (a :: b :: pool₂) :=
  (popLeast_perm ha).trans ((popLeast_perm hb).cons a)

/-- The first key taken is less than the second, and the second than every key that stays (40_tree_builder.md R114,
R115). -/
theorem popLeast_twice_order {pool pool₁ pool₂ : List Key} {a b : Key} (hn : (pool.map Key.index).Nodup)
    (ha : popLeast pool = some (a, pool₁)) (hb : popLeast pool₁ = some (b, pool₂)) :
    a.index ≠ b.index ∧ keyLess a b = true ∧ ∀ k ∈ pool, k = a ∨ k = b ∨ keyLess b k = true := by
  have hb₁ : b ∈ pool₁ := (popLeast_perm hb).mem_iff.2 List.mem_cons_self
  have hn₁ := ((popLeast_perm ha).map Key.index).nodup_iff.1 hn
  rw [List.map_cons, List.nodup_cons] at hn₁
  refine ⟨fun heq => hn₁.1 (heq ▸ List.mem_map_of_mem hb₁), keyLess_of_popLeast ha hn hb₁, fun k hk => ?_⟩
  rw [(popLeast_twice_perm ha hb).mem_iff, List.mem_cons, List.mem_cons] at hk
  exact hk.imp_right (Or.imp_right fun hk₂ => keyLess_of_popLeast hb hn₁.2 hk₂)

/-! ### The merge loop (40_tree_builder.md R111, R112) -/

/-- Each merge makes the pool smaller by one, until one node is left. -/
theorem mergeLoop_lengths {rounds : Nat} (next : Nat) {pool : List Key} (hpos : pool ≠ [])
    (hle : pool.length ≤ rounds) :
    (mergeLoop rounds next pool).1.length = pool.length - 1 ∧ (mergeLoop rounds next pool).2.length = 1 := by
  induction rounds generalizing next pool with
  | zero => exact absurd (List.length_eq_zero_iff.1 (Nat.le_zero.1 hle)) hpos
  | succ rounds ih =>
    unfold mergeLoop
    split
    · next hnone => exact absurd (popLeast_eq_none hnone) hpos
    next a pool₁ ha =>
    have hpool := popLeast_length ha
    split
    · next hnone => rw [popLeast_eq_none hnone] at hpool; simp [hpool]
    next b pool₂ hb =>
    have hpool₁ := popLeast_length hb
    obtain ⟨hms, hfinal⟩ := ih (next + 1) (pool := { freq := a.freq + b.freq, index := next } :: pool₂) (by simp)
      (by rw [List.length_cons]; omega)
    simp only [List.length_cons] at hms ⊢
    exact ⟨by omega, hfinal⟩

/-- N leaves are merged N − 1 times (40_tree_builder.md R112). -/
theorem mergeLoop_leafKeys_lengths {ps : List (Byte × Word)} (hne : ps ≠ []) :
    (mergeLoop ps.length ps.length (leafKeys 0 ps)).1.length = ps.length - 1 ∧
      (mergeLoop ps.length ps.length (leafKeys 0 ps)).2.length = 1 := by
  have hkeys : leafKeys 0 ps ≠ [] := fun hnil => hne (by simpa using congrArg List.length hnil)
  simpa using mergeLoop_lengths ps.length hkeys (Nat.le_of_eq (leafKeys_length ..))

/-- After `m` merges, whose nodes stand in the arrays from N = `ps.length` on, the pool is the last argument
(40_tree_builder.md R111): BUILD's loop read from its result. -/
inductive PoolAfter (ps : List (Byte × Word)) (node nodeFreq : Cells Word) : Nat → List Key → Prop where
  | leaves : PoolAfter ps node nodeFreq 0 (leafKeys 0 ps)
  | merge {m : Nat} {pool pool₁ pool₂ : List Key} {a b : Key} : PoolAfter ps node nodeFreq m pool →
      popLeast pool = some (a, pool₁) → popLeast pool₁ = some (b, pool₂) →
      node.peek (ps.length + m) = some (innerWord a.index b.index) →
      nodeFreq.peek (ps.length + m) = some (BitVec.ofNat 32 (a.freq + b.freq)) →
      PoolAfter ps node nodeFreq (m + 1) ({ freq := a.freq + b.freq, index := ps.length + m } :: pool₂)

/-- The nodes of these merges stand in the arrays from `next` on. -/
def MergesStand (node nodeFreq : Cells Word) (next : Nat) (ms : List Merged) : Prop :=
  ∀ m x, ms[m]? = some x → node.peek (next + m) = some x.word ∧ nodeFreq.peek (next + m) = some (BitVec.ofNat 32 x.freq)

theorem MergesStand.tail {node nodeFreq : Cells Word} {next : Nat} {x : Merged} {ms : List Merged}
    (h : MergesStand node nodeFreq next (x :: ms)) : MergesStand node nodeFreq (next + 1) ms := by
  intro m y hy
  rw [Nat.add_right_comm, Nat.add_assoc]
  exact h (m + 1) y hy

/-- The loop goes through the pools of PoolAfter. -/
theorem PoolAfter.of_mergeLoop {ps : List (Byte × Word)} {node nodeFreq : Cells Word} {m : Nat} {pool : List Key}
    (h : PoolAfter ps node nodeFreq m pool) (rounds : Nat)
    (hms : MergesStand node nodeFreq (ps.length + m) (mergeLoop rounds (ps.length + m) pool).1) :
    PoolAfter ps node nodeFreq (m + (mergeLoop rounds (ps.length + m) pool).1.length)
      (mergeLoop rounds (ps.length + m) pool).2 := by
  induction rounds generalizing m pool with
  | zero => exact h
  | succ rounds ih =>
    unfold mergeLoop at hms ⊢
    split
    · exact h
    next a pool₁ ha =>
    split
    · exact h
    next b pool₂ hb =>
    simp only [ha, hb] at hms
    obtain ⟨hword, hfreq⟩ := hms 0 _ rfl
    have := ih (.merge h ha hb hword hfreq) hms.tail
    rwa [Nat.add_right_comm, Nat.add_assoc] at this

/-! ### What every pool is (40_tree_builder.md R111, R112, R113) -/

theorem leafKeys_indices (base : Nat) (ps : List (Byte × Word)) :
    (leafKeys base ps).map Key.index = List.range' base ps.length := by
  induction ps generalizing base with
  | nil => rfl
  | cons p ps ih => rw [leafKeys, List.map_cons, ih]; rfl

theorem leafKeys_freqs (base : Nat) (ps : List (Byte × Word)) :
    (leafKeys base ps).map Key.freq = ps.map (fun p => p.2.toNat) := by
  induction ps generalizing base with
  | nil => rfl
  | cons p ps ih => rw [leafKeys, List.map_cons, ih]; rfl

theorem mem_leafKeys {base : Nat} {ps : List (Byte × Word)} {k : Key} (h : k ∈ leafKeys base ps) :
    ∃ j p, ps[j]? = some p ∧ k = { freq := p.2.toNat, index := base + j } := by
  induction ps generalizing base with
  | nil => cases h
  | cons p ps ih =>
    rcases List.mem_cons.1 h with rfl | h
    · exact ⟨0, p, rfl, rfl⟩
    · obtain ⟨j, q, hq, rfl⟩ := ih h
      exact ⟨j + 1, q, hq, by simp [Nat.add_comm 1, Nat.add_assoc]⟩

/-- The sum of the leaves' frequencies (40_tree_builder.md R113). -/
def leafTotal (ps : List (Byte × Word)) : Nat := (ps.map (fun p => p.2.toNat)).sum

/-- The N leaves stand at 0 .. N − 1 (40_tree_builder.md R112). -/
def LeavesStand (ps : List (Byte × Word)) (node nodeFreq : Cells Word) : Prop :=
  ∀ k p, ps[k]? = some p → node.peek k = some (leafWord p.1) ∧ nodeFreq.peek k = some p.2

namespace PoolAfter

variable {ps : List (Byte × Word)} {node nodeFreq : Cells Word} {m : Nat} {pool : List Key}

theorem before {m' : Nat} (h : PoolAfter ps node nodeFreq m pool) (hle : m' ≤ m) :
    ∃ pool', PoolAfter ps node nodeFreq m' pool' := by
  induction h with
  | leaves => rw [Nat.le_zero.1 hle]; exact ⟨_, .leaves⟩
  | merge h ha hb hword hfreq ih =>
    rcases Nat.of_le_succ hle with hle | rfl
    · exact ih hle
    · exact ⟨_, .merge h ha hb hword hfreq⟩

theorem lt_length (h : PoolAfter ps node nodeFreq m pool) (hpos : ps ≠ []) : m < ps.length := by
  have hlen : pool.length + m = ps.length ∧ pool ≠ [] := by
    induction h with
    | leaves =>
      refine ⟨by simp, fun hnil => hpos ?_⟩
      simpa using congrArg List.length hnil
    | merge h ha hb _ _ ih =>
      have hpool := popLeast_length ha
      have hpool₁ := popLeast_length hb
      exact ⟨by rw [List.length_cons]; omega, by simp⟩
  have := List.length_pos_iff.2 hlen.2
  omega

/-- The pool's nodes are different, and all of them have been created. -/
theorem indices_distinct (h : PoolAfter ps node nodeFreq m pool) :
    (pool.map Key.index).Nodup ∧ ∀ k ∈ pool, k.index < ps.length + m := by
  induction h with
  | leaves =>
    refine ⟨leafKeys_indices 0 ps ▸ List.nodup_range', fun k hk => ?_⟩
    have := List.mem_map_of_mem (f := Key.index) hk
    rw [leafKeys_indices, List.mem_range'_1] at this
    omega
  | @merge m pool _ pool₂ a b _ ha hb _ _ ih =>
    obtain ⟨hn, hlt⟩ := ih
    have hperm := popLeast_twice_perm ha hb
    rw [(hperm.map Key.index).nodup_iff, List.map_cons, List.map_cons] at hn
    have hlt₂ (k : Key) (hk : k ∈ pool₂) : k.index < ps.length + m := hlt k (hperm.mem_iff.2 (by simp [hk]))
    refine ⟨?_, fun k hk => ?_⟩
    · rw [List.map_cons, List.nodup_cons]
      refine ⟨fun hmem => ?_, hn.of_cons.of_cons⟩
      obtain ⟨k, hk, hidx⟩ := List.mem_map.1 hmem
      exact absurd (hlt₂ k hk) (by rw [hidx]; exact Nat.lt_irrefl _)
    · rcases List.mem_cons.1 hk with rfl | hk
      · exact Nat.lt_succ_self _
      · exact Nat.lt_succ_of_lt (hlt₂ k hk)

/-- A merge keeps the sum of the pool's frequencies. -/
theorem sum_freqs (h : PoolAfter ps node nodeFreq m pool) : (pool.map Key.freq).sum = leafTotal ps := by
  induction h with
  | leaves => rw [leafKeys_freqs, leafTotal]
  | merge _ ha hb _ _ ih =>
    have := ((popLeast_twice_perm ha hb).map Key.freq).sum_eq
    simp only [List.map_cons, List.sum_cons] at this ⊢
    omega

theorem freq_le (h : PoolAfter ps node nodeFreq m pool) {k : Key} (hk : k ∈ pool) : k.freq ≤ leafTotal ps :=
  h.sum_freqs ▸ List.single_le_sum (by simp) _ (List.mem_map_of_mem hk)

/-- The last merge, the sum of whose frequencies does not exceed the total either (40_tree_builder.md R113). -/
theorem last_merge (h : PoolAfter ps node nodeFreq (m + 1) pool) :
    ∃ before pool₁ pool₂ a b, PoolAfter ps node nodeFreq m before ∧ popLeast before = some (a, pool₁) ∧
      popLeast pool₁ = some (b, pool₂) ∧ node.peek (ps.length + m) = some (innerWord a.index b.index) ∧
      nodeFreq.peek (ps.length + m) = some (BitVec.ofNat 32 (a.freq + b.freq)) ∧ a.freq + b.freq ≤ leafTotal ps := by
  have hle {k : Key} (hk : k ∈ pool) := h.freq_le hk
  cases h with
  | merge h ha hb hword hfreq => exact ⟨_, _, _, _, _, h, ha, hb, hword, hfreq, hle List.mem_cons_self⟩

/-- No frequency of the pool wraps when the total fits (40_tree_builder.md R113). -/
theorem toNat_freq (h : PoolAfter ps node nodeFreq m pool) (hfits : leafTotal ps ≤ 0xFFFFFFFF) {k : Key}
    (hk : k ∈ pool) : (BitVec.ofNat 32 k.freq).toNat = k.freq := by
  have := h.freq_le hk
  rw [BitVec.toNat_ofNat, Nat.mod_eq_of_lt (by omega)]

/-- The keys' order, read from NODE_FREQ's words (40_tree_builder.md R114). -/
theorem word_less (h : PoolAfter ps node nodeFreq m pool) (hfits : leafTotal ps ≤ 0xFFFFFFFF) {k k' : Key}
    (hk : k ∈ pool) (hk' : k' ∈ pool) (hless : keyLess k k' = true) :
    (BitVec.ofNat 32 k.freq).toNat < (BitVec.ofNat 32 k'.freq).toNat ∨
      BitVec.ofNat 32 k.freq = BitVec.ofNat 32 k'.freq ∧ k.index < k'.index := by
  rw [h.toNat_freq hfits hk, h.toNat_freq hfits hk']
  exact ((keyLess_iff k k').1 hless).imp_right fun ⟨hfreq, hindex⟩ => ⟨by rw [hfreq], hindex⟩

/-- NODE_FREQ holds the frequencies of the pool's nodes. -/
theorem peek_freq (h : PoolAfter ps node nodeFreq m pool) (hleaves : LeavesStand ps node nodeFreq) :
    ∀ k ∈ pool, nodeFreq.peek k.index = some (BitVec.ofNat 32 k.freq) := by
  induction h with
  | leaves =>
    intro k hk
    obtain ⟨j, p, hp, rfl⟩ := mem_leafKeys hk
    simpa using (hleaves j p hp).2
  | merge _ ha hb _ hfreq ih =>
    intro k hk
    rcases List.mem_cons.1 hk with rfl | hk
    · exact hfreq
    · exact ih k ((popLeast_twice_perm ha hb).mem_iff.2 (by simp [hk]))

/-- When one node is left it is the last one created (40_tree_builder.md R112). -/
theorem index_of_single {root : Key} (h : PoolAfter ps node nodeFreq m [root]) :
    root.index + 1 = ps.length + m := by
  generalize hp : [root] = pool at h
  cases h with
  | leaves =>
    have hlen := congrArg List.length hp
    have hidx := congrArg (List.map Key.index) hp
    rw [leafKeys_length, List.length_singleton] at hlen
    rw [leafKeys_indices, ← hlen] at hidx
    have : root.index = 0 := by simpa using hidx
    omega
  | merge => cases hp; rfl

/-- Every node below N + m was in one of the pools. -/
theorem exists_key (h : PoolAfter ps node nodeFreq m pool) {j : Nat} (hj : j < ps.length + m) :
    ∃ m' pool', m' ≤ m ∧ PoolAfter ps node nodeFreq m' pool' ∧ ∃ k ∈ pool', k.index = j := by
  rcases Nat.lt_or_ge j ps.length with hlt | hge
  · refine ⟨0, _, Nat.zero_le _, .leaves, List.mem_map.1 ?_⟩
    rw [leafKeys_indices, List.mem_range'_1]
    omega
  · obtain ⟨d, rfl⟩ := Nat.exists_eq_add_of_le hge
    obtain ⟨pool', h'⟩ := h.before (m' := d + 1) (by omega)
    refine ⟨d + 1, pool', by omega, h', ?_⟩
    cases h' with
    | merge => exact ⟨_, List.mem_cons_self, rfl⟩

end PoolAfter

/-! ### The pool as the statements tell it (Machine.inPool) -/

theorem inPool_zero (node : Cells Word) (n c : Nat) : inPool node n 0 c ↔ c < n := by simp [inPool]

theorem inPool_succ {node : Cells Word} {n m a b c : Nat} (ha : a < 512) (hb : b < 512)
    (hword : node.peek (n + m) = some (innerWord a b)) :
    inPool node n (m + 1) c ↔
      c < n + (m + 1) ∧ (∀ j, j < m → ∀ w, node.peek (n + j) = some w → leftField w ≠ c ∧ rightField w ≠ c) ∧
        a ≠ c ∧ b ≠ c := by
  constructor
  · rintro ⟨hlt, hfree⟩
    have hlast := hfree m (Nat.lt_succ_self m) _ hword
    rw [leftField_innerWord a b ha hb, rightField_innerWord a b ha hb] at hlast
    exact ⟨hlt, fun j hj => hfree j (Nat.lt_succ_of_lt hj), hlast⟩
  · rintro ⟨hlt, hfree, hlast⟩
    refine ⟨hlt, fun j hj w hw => ?_⟩
    rcases Nat.lt_succ_iff_lt_or_eq.1 hj with hj | rfl
    · exact hfree j hj w hw
    · rw [hword] at hw
      cases hw
      rwa [leftField_innerWord a b ha hb, rightField_innerWord a b ha hb]

namespace PoolAfter

variable {ps : List (Byte × Word)} {node nodeFreq : Cells Word} {m : Nat} {pool : List Key}

/-- A merged node's children were created before it (40_tree_builder.md R112). -/
theorem children_lt (h : PoolAfter ps node nodeFreq m pool) (hfits : ps.length + m ≤ 512) :
    ∀ j, j < m → ∀ w, node.peek (ps.length + j) = some w →
      leftField w < ps.length + m ∧ rightField w < ps.length + m := by
  induction h with
  | leaves => intro j hj; exact absurd hj (Nat.not_lt_zero j)
  | @merge m pool _ _ a b h ha hb hword _ ih =>
    intro j hj w hw
    rcases Nat.lt_succ_iff_lt_or_eq.1 hj with hj | rfl
    · have := ih (by omega) j hj w hw
      omega
    · have hperm := popLeast_twice_perm ha hb
      have hlta := h.indices_distinct.2 a (hperm.mem_iff.2 (by simp))
      have hltb := h.indices_distinct.2 b (hperm.mem_iff.2 (by simp))
      rw [hword] at hw
      cases hw
      rw [leftField_innerWord _ _ (by omega) (by omega), rightField_innerWord _ _ (by omega) (by omega)]
      omega

/-- The pool holds exactly the nodes that no merge so far has taken. -/
theorem mem_iff_inPool (h : PoolAfter ps node nodeFreq m pool) (hfits : ps.length + m ≤ 512) (c : Nat) :
    c ∈ pool.map Key.index ↔ inPool node ps.length m c := by
  induction h with
  | leaves => rw [leafKeys_indices, inPool_zero, List.mem_range'_1]; omega
  | @merge m pool _ pool₂ a b h ha hb hword _ ih =>
    have hperm := popLeast_twice_perm ha hb
    obtain ⟨hn, hlt⟩ := h.indices_distinct
    have hlta := hlt a (hperm.mem_iff.2 (by simp))
    have hltb := hlt b (hperm.mem_iff.2 (by simp))
    have hchildren := h.children_lt (by omega)
    have hmem : c ∈ pool.map Key.index ↔ a.index = c ∨ b.index = c ∨ c ∈ pool₂.map Key.index := by
      rw [(hperm.map Key.index).mem_iff, List.map_cons, List.map_cons, List.mem_cons, List.mem_cons, eq_comm,
        @eq_comm _ c]
    rw [(hperm.map Key.index).nodup_iff, List.map_cons, List.map_cons, List.nodup_cons, List.nodup_cons,
      List.mem_cons, not_or] at hn
    obtain ⟨⟨_, hna⟩, hnb, _⟩ := hn
    rw [ih (by omega), inPool] at hmem
    rw [inPool_succ (by omega) (by omega) hword, List.map_cons, List.mem_cons]
    constructor
    · rintro (rfl | hc)
      · refine ⟨Nat.lt_succ_self _, fun j hj w hw => ?_, Nat.ne_of_lt hlta, Nat.ne_of_lt hltb⟩
        exact (hchildren j hj w hw).imp Nat.ne_of_lt Nat.ne_of_lt
      · obtain ⟨hlt, hfree⟩ := hmem.2 (.inr (.inr hc))
        exact ⟨Nat.lt_succ_of_lt hlt, hfree, fun heq => hna (heq ▸ hc), fun heq => hnb (heq ▸ hc)⟩
    · rintro ⟨hlt, hfree, hca, hcb⟩
      rcases Nat.lt_succ_iff_lt_or_eq.1 hlt with hlt | rfl
      · obtain rfl | rfl | hc := hmem.1 ⟨hlt, hfree⟩
        · exact absurd rfl hca
        · exact absurd rfl hcb
        · exact .inr hc
      · exact .inl rfl

end PoolAfter

/-! ### The trees of the pool (40_tree_builder.md R112, R120) -/

/-- The leaves as trees: leaf k has index `base + k`. -/
def leafTrees : Nat → List (Byte × Word) → List CodeTree
  | _, [] => []
  | base, (sym, _) :: rest => .leaf base sym :: leafTrees (base + 1) rest

theorem leafTrees_indices (base : Nat) (ps : List (Byte × Word)) :
    (leafTrees base ps).flatMap CodeTree.indices = List.range' base ps.length := by
  induction ps generalizing base with
  | nil => rfl
  | cons p ps ih => rw [leafTrees, List.flatMap_cons, ih]; rfl

theorem leafTrees_symbols (base : Nat) (ps : List (Byte × Word)) :
    (leafTrees base ps).flatMap CodeTree.symbols = ps.map Prod.fst := by
  induction ps generalizing base with
  | nil => rfl
  | cons p ps ih => rw [leafTrees, List.flatMap_cons, ih]; rfl

/-- The tree of a node of the pool: it stands in NODE at the node's index. -/
def TreeOf (t : State) (k : Key) (T : CodeTree) : Prop := T.index = k.index ∧ T.storedIn t

theorem leafTrees_stored {t : State} {base : Nat} {ps : List (Byte × Word)}
    (hcount : base + ps.length ≤ t.treeCount.toNat)
    (hnode : ∀ k p, ps[k]? = some p → t.node.peek (base + k) = some (leafWord p.1)) :
    List.Forall₂ (TreeOf t) (leafKeys base ps) (leafTrees base ps) := by
  induction ps generalizing base with
  | nil => exact .nil
  | cons p ps ih =>
    rw [List.length_cons] at hcount
    refine .cons ⟨rfl, by omega, hnode 0 p rfl⟩ (ih (by omega) fun k q hq => ?_)
    rw [Nat.add_assoc, Nat.add_comm 1]
    exact hnode (k + 1) q hq

/-- The nodes of the pool are the roots of stored trees that use every node created so far once, and whose leaves are
all the leaves. -/
theorem PoolAfter.forest {ps : List (Byte × Word)} {t : State} {m : Nat} {pool : List Key}
    (h : PoolAfter ps t.node t.nodeFreq m pool) (hleaves : LeavesStand ps t.node t.nodeFreq)
    (hcount : ps.length + m ≤ t.treeCount.toNat) :
    ∃ trees, List.Forall₂ (TreeOf t) pool trees ∧
      (trees.flatMap CodeTree.indices).Perm (List.range (ps.length + m)) ∧
      (trees.flatMap CodeTree.symbols).Perm (ps.map Prod.fst) := by
  induction h with
  | leaves =>
    refine ⟨leafTrees 0 ps, leafTrees_stored (by omega) fun k p hp => ?_, ?_, ?_⟩
    · rw [Nat.zero_add]; exact (hleaves k p hp).1
    · rw [leafTrees_indices, Nat.add_zero, List.range_eq_range']
    · rw [leafTrees_symbols]
  | @merge m pool _ pool₂ a b _ ha hb hword _ ih =>
    obtain ⟨trees, hroots, hindices, hsymbols⟩ := ih (by omega)
    obtain ⟨trees', hroots', hperm⟩ := List.perm_comp_forall₂ (popLeast_twice_perm ha hb).symm hroots
    obtain ⟨A, _, ⟨hai, has⟩, hroots'', rfl⟩ := List.forall₂_cons_left_iff.1 hroots'
    obtain ⟨B, rest, ⟨hbi, hbs⟩, hrest, rfl⟩ := List.forall₂_cons_left_iff.1 hroots''
    refine ⟨.inner (ps.length + m) A B :: rest, .cons ⟨rfl, by omega, hai ▸ hbi ▸ hword, has, hbs⟩ hrest, ?_, ?_⟩
    · have := (hperm.flatMap_right CodeTree.indices).trans hindices
      rw [← Nat.add_assoc, List.range_succ]
      refine .trans ?_ (List.perm_append_singleton ..).symm
      simpa [CodeTree.indices] using this
    · have := (hperm.flatMap_right CodeTree.symbols).trans hsymbols
      simpa [CodeTree.symbols] using this

end Sys2Proof.Machine
end

section
/-! PROOFS. What BUILD ends with on every frequency table (40_tree_builder.md R111 to R116, R120, R121). -/

namespace Sys2Proof.Machine

/-! ### The symbols that occur (40_tree_builder.md R111, R113) -/

/-- P with the frequencies, over the symbols `is`. -/
def leavesOf (f : Nat → Word) (is : List Nat) : List (Byte × Word) :=
  (is.filter (fun i => f i ≠ 0)).map (fun i => (BitVec.ofNat 8 i, f i))

theorem leavesOf_append (f : Nat → Word) (is js : List Nat) :
    leavesOf f (is ++ js) = leavesOf f is ++ leavesOf f js := by
  simp [leavesOf]

theorem leavesOf_cons (f : Nat → Word) (i : Nat) (is : List Nat) :
    leavesOf f (i :: is) = if f i = 0 then leavesOf f is else (BitVec.ofNat 8 i, f i) :: leavesOf f is := by
  rw [leavesOf, List.filter_cons]
  by_cases h : f i = 0#32 <;> simp [leavesOf, h]

theorem presentFrom_map (f : Nat → Word) (base n : Nat) :
    presentFrom base ((List.range' base n).map f) = leavesOf f (List.range' base n) := by
  induction n generalizing base with
  | zero => rfl
  | succ n ih => rw [List.range'_succ, List.map_cons, presentFrom, ih, leavesOf_cons]

theorem leafTotal_leavesOf (f : Nat → Word) (is : List Nat) :
    leafTotal (leavesOf f is) = (is.map (fun i => (f i).toNat)).sum := by
  induction is with
  | nil => rfl
  | cons i is ih =>
    rw [leavesOf_cons, List.map_cons, List.sum_cons, ← ih]
    split
    · next h => simp [h]
    · simp [leafTotal]

/-- P with the frequencies (40_tree_builder.md R111). -/
def presentLeaves (f : Nat → Word) : List (Byte × Word) := leavesOf f (List.range Config.nsym)

theorem presentLeaves_eq (f : Nat → Word) :
    presentLeaves f = (presentSymbols f).map (fun i => (BitVec.ofNat 8 i, f i)) := rfl

theorem presentLeaves_length (f : Nat → Word) : (presentLeaves f).length = (presentSymbols f).length := by
  rw [presentLeaves_eq, List.length_map]

theorem presentLeaves_ne_nil_iff (f : Nat → Word) : presentLeaves f ≠ [] ↔ presentSymbols f ≠ [] := by
  rw [presentLeaves_eq, Ne, List.map_eq_nil_iff]

theorem presentLeaves_total (f : Nat → Word) : leafTotal (presentLeaves f) = freqSum f 256 := leafTotal_leavesOf ..

theorem mem_presentSymbols (f : Nat → Word) (i : Nat) : i ∈ presentSymbols f ↔ i < 256 ∧ f i ≠ 0 := by
  simp [presentSymbols]

theorem presentLeaves_symbols_nodup (f : Nat → Word) : ((presentLeaves f).map Prod.fst).Nodup := by
  rw [presentLeaves_eq, List.map_map]
  refine List.Nodup.map_on (fun i hi j hj hij => ?_) (List.nodup_range.filter _)
  have hi' := ((mem_presentSymbols f i).1 hi).1
  have hj' := ((mem_presentSymbols f j).1 hj).1
  have := congrArg BitVec.toNat hij
  simpa [Nat.mod_eq_of_lt, hi', hj'] using this

theorem mem_presentLeaves_symbols (f : Nat → Word) (sym : Byte) :
    sym ∈ (presentLeaves f).map Prod.fst ↔ f sym.toNat ≠ 0 := by
  rw [presentLeaves_eq, List.map_map, List.mem_map]
  constructor
  · rintro ⟨i, hi, rfl⟩
    obtain ⟨hlt, hne⟩ := (mem_presentSymbols f i).1 hi
    simpa [Nat.mod_eq_of_lt hlt] using hne
  · exact fun hne => ⟨sym.toNat, (mem_presentSymbols f _).2 ⟨sym.isLt, hne⟩, by simp⟩

/-! ### The running total (40_tree_builder.md R113) -/

/-- The first leaf whose frequency takes the total past 2^32 − 1 ends the check. -/
theorem checkTotal_overflows {total : Nat} {pre post : List (Byte × Word)} {sym : Byte} {f : Word}
    (hfits : total + leafTotal pre ≤ Config.freqMax) (hover : Config.freqMax < total + leafTotal pre + f.toNat) :
    checkTotal total (pre ++ (sym, f) :: post) = .error (.raise .freqOverflow (sym.setWidth 32)) := by
  induction pre generalizing total with
  | nil => exact if_pos (by simpa [leafTotal] using hover)
  | cons p pre ih =>
    obtain ⟨sym', f'⟩ := p
    simp only [leafTotal, List.map_cons, List.sum_cons] at ih hfits hover
    rw [List.cons_append, checkTotal, if_neg (by omega)]
    exact ih (by omega) (by omega)

theorem leafTotal_le_of_checkTotal {total : Nat} {ps : List (Byte × Word)} (ht : total ≤ Config.freqMax)
    (h : checkTotal total ps = .ok ()) : total + leafTotal ps ≤ Config.freqMax := by
  induction ps generalizing total with
  | nil => simpa [leafTotal] using ht
  | cons p ps ih =>
    obtain ⟨sym, f⟩ := p
    unfold checkTotal at h
    split at h
    · cases h
    · have := ih (by omega) h
      simp only [leafTotal, List.map_cons, List.sum_cons] at this ⊢
      omega

/-- BUILD has a tree for every table that is not empty and whose total fits. -/
theorem exists_huffmanTree {fs : List Word} (hne : presentFrom 0 fs ≠ [])
    (hfits : leafTotal (presentFrom 0 fs) ≤ Config.freqMax) : ∃ bt, huffmanTree fs = .ok bt := by
  cases h : huffmanTree fs with
  | ok bt => exact ⟨bt, rfl⟩
  | error e =>
    obtain ⟨hnil, _⟩ | ⟨pre, sym, f, post, hps, _, hover, _⟩ := huffmanTree_error h
    · exact absurd hnil hne
    · rw [hps, leafTotal, List.map_append, List.sum_append, List.map_cons, List.sum_cons] at hfits
      simp only at hfits
      omega

/-! ### The state after a BUILD that succeeds (40_tree_builder.md R112, R116) -/

theorem huffmanTree_sizes {fs : List Word} {bt : BuiltTree} (h : huffmanTree fs = .ok bt) :
    bt.words.length = 2 * (presentFrom 0 fs).length - 1 ∧ bt.freqs.length = 2 * (presentFrom 0 fs).length - 1 := by
  obtain ⟨hne, _, hwords, hfreqs, _, _⟩ := huffmanTree_ok h
  obtain ⟨hms, _⟩ := mergeLoop_leafKeys_lengths hne
  have := List.length_pos_iff.2 hne
  simp only [hwords, hfreqs, List.length_append, List.length_map, hms]
  omega

theorem Cells.peek_poke_zero {α : Type} (m : Cells α) (vs : List α) (k : Nat) :
    (m.poke 0 vs).peek k = if k < vs.length then vs[k]? else m.peek k := by
  simp [Cells.peek_poke]

theorem Cells.peek_poke_zero_some {α : Type} (m : Cells α) {vs : List α} {k : Nat} {v : α} (h : vs[k]? = some v) :
    (m.poke 0 vs).peek k = some v := by
  rw [Cells.peek_poke_zero, if_pos (List.getElem?_eq_some_iff.1 h).1, h]

/-- What a BUILD that succeeds leaves, over the leaves `ps`: the leaves, the merges and the last node of the pool at
ROOT. -/
structure Built (ps : List (Byte × Word)) (t : State) : Prop where
  nonempty : ps ≠ []
  length_le : ps.length ≤ 256
  total_le : leafTotal ps ≤ 0xFFFFFFFF
  count_eq : t.treeCount = BitVec.ofNat 32 (2 * ps.length - 1)
  root_eq : t.root = BitVec.ofNat 32 (2 * ps.length - 2)
  leaves : LeavesStand ps t.node t.nodeFreq
  merges : ∃ root, PoolAfter ps t.node t.nodeFreq (ps.length - 1) [root]

theorem built_writeTree {fs : List Word} {bt : BuiltTree} (h : huffmanTree fs = .ok bt) (hlen : fs.length = Config.nsym)
    (s : State) : Built (presentFrom 0 fs) (s.writeTree bt).succeed := by
  obtain ⟨hne, htotal, hwords, hfreqs, hroot, hcount⟩ := huffmanTree_ok h
  have hle := presentFrom_length_le 0 fs
  generalize presentFrom 0 fs = ps at *
  have hpos := List.length_pos_iff.2 hne
  obtain ⟨hms, hfinal⟩ := mergeLoop_leafKeys_lengths hne
  obtain ⟨root, hsingle⟩ := List.length_eq_one_iff.1 hfinal
  have hleaves : LeavesStand ps (s.writeTree bt).node (s.writeTree bt).nodeFreq := fun k p hp => by
    have hk := (List.getElem?_eq_some_iff.1 hp).1
    refine ⟨Cells.peek_poke_zero_some _ ?_, Cells.peek_poke_zero_some _ ?_⟩
    · rw [hwords, List.getElem?_append_left (by simpa using hk), List.getElem?_map, hp]; rfl
    · rw [hfreqs, List.getElem?_append_left (by simpa using hk), List.getElem?_map, hp]; rfl
  have hstand : MergesStand (s.writeTree bt).node (s.writeTree bt).nodeFreq ps.length
      (mergeLoop ps.length ps.length (leafKeys 0 ps)).1 := fun m x hx => by
    refine ⟨Cells.peek_poke_zero_some _ ?_, Cells.peek_poke_zero_some _ ?_⟩
    · rw [hwords, List.getElem?_append_right (by simp)]; simp [hx]
    · rw [hfreqs, List.getElem?_append_right (by simp)]; simp [hx]
  have hpool := PoolAfter.of_mergeLoop .leaves ps.length hstand
  rw [Nat.add_zero, Nat.zero_add, hms, hsingle] at hpool
  refine ⟨hne, Nat.le_trans hle (Nat.le_of_eq hlen), ?_, hcount, ?_, hleaves, root, hpool⟩
  · simpa using leafTotal_le_of_checkTotal (Nat.zero_le _) htotal
  · have hindex := hpool.index_of_single
    rw [hsingle] at hroot
    rw [State.succeed_root, State.writeTree_root, hroot]
    congr 1
    simp only [List.map_cons, List.map_nil, List.headD_cons]
    omega

namespace Built

variable {ps : List (Byte × Word)} {t : State}

theorem count_toNat (h : Built ps t) : t.treeCount.toNat = 2 * ps.length - 1 := by
  have := h.length_le
  rw [h.count_eq, BitVec.toNat_ofNat, Nat.mod_eq_of_lt (by omega)]

theorem root_toNat (h : Built ps t) : t.root.toNat = 2 * ps.length - 2 := by
  have := h.length_le
  rw [h.root_eq, BitVec.toNat_ofNat, Nat.mod_eq_of_lt (by omega)]

theorem count_eq_add (h : Built ps t) : t.treeCount.toNat = ps.length + (ps.length - 1) := by
  have := List.length_pos_iff.2 h.nonempty
  rw [h.count_toNat]
  omega

/-- The root's frequency is the total (40_tree_builder.md R112). -/
theorem peek_root_freq (h : Built ps t) :
    t.nodeFreq.peek (2 * ps.length - 2) = some (BitVec.ofNat 32 (leafTotal ps)) := by
  obtain ⟨root, hroot⟩ := h.merges
  have hfreq := hroot.peek_freq h.leaves root (by simp)
  have hindex := hroot.index_of_single
  have hsum : root.freq = leafTotal ps := by simpa using hroot.sum_freqs
  rwa [hsum, show root.index = 2 * ps.length - 2 by omega] at hfreq

/-- Every node's frequency is at most the total, so none wraps (40_tree_builder.md R113). -/
theorem freq_le_total (h : Built ps t) {j : Nat} {w : Word} (hj : j < t.treeCount.toNat)
    (hw : t.nodeFreq.peek j = some w) : w.toNat ≤ leafTotal ps := by
  obtain ⟨root, hroot⟩ := h.merges
  rw [h.count_eq_add] at hj
  obtain ⟨m, pool, _, hpool, k, hk, rfl⟩ := hroot.exists_key hj
  rw [hpool.peek_freq h.leaves k hk] at hw
  cases hw
  exact Nat.le_trans (Nat.mod_le ..) (hpool.freq_le hk)

/-- The tree that stands at ROOT (40_tree_builder.md R120). -/
theorem exists_treeHeld (h : Built ps t) (hsyms : (ps.map Prod.fst).Nodup) :
    ∃ T, TreeHeld t T ∧ T.indices.Perm (List.range t.treeCount.toNat) ∧ T.symbols.Perm (ps.map Prod.fst) := by
  obtain ⟨root, hroot⟩ := h.merges
  obtain ⟨trees, htrees, hindices, hsymbols⟩ := hroot.forest h.leaves (Nat.le_of_eq h.count_eq_add.symm)
  obtain ⟨T, _, ⟨hindex, hstored⟩, ⟨⟩, rfl⟩ := List.forall₂_cons_left_iff.1 htrees
  have hroot_index := hroot.index_of_single
  have hle := h.length_le
  have hcount := h.count_toNat
  rw [← h.count_eq_add, List.flatMap_singleton] at hindices
  rw [List.flatMap_singleton] at hsymbols
  have hmax : t.treeCount.toNat ≤ 511 := by omega
  refine ⟨T, ⟨hmax, ?_, hstored, hindices.nodup_iff.2 List.nodup_range, hsymbols.nodup_iff.2 hsyms⟩, hindices,
    hsymbols⟩
  rw [hindex, h.root_toNat]
  omega

end Built

/-! ### BUILD on a table -/

theorem gather_readFreq {s : State} {f : Nat → Word} (h : FreqGiven s f) :
    gather (readFreq s) (List.range Config.nsym) = .ok ((List.range Config.nsym).map f) :=
  gather_eq_map _ _ _ fun i hi => (element_ok_iff ..).2 (h i (List.mem_range.1 hi))

theorem buildRun_of_freqGiven {s : State} {f : Nat → Word} (h : FreqGiven s f) :
    buildRun s = (huffmanTree ((List.range Config.nsym).map f)).map (fun bt => s.writeTree bt) := by
  rw [buildRun, gather_readFreq h]
  cases hbt : huffmanTree ((List.range Config.nsym).map f) <;> simp [hbt, Except.map]

theorem presentFrom_freqs (f : Nat → Word) : presentFrom 0 ((List.range Config.nsym).map f) = presentLeaves f := by
  rw [presentLeaves, List.range_eq_range', presentFrom_map]

/-- A BUILD that answers DONE has written the tree of its frequencies. -/
theorem execBuild_done {s t : State} (h : exec .build s = .next t) (hd : t.done = true) :
    ∃ fs bt, gather (readFreq s) (List.range Config.nsym) = .ok fs ∧ huffmanTree fs = .ok bt ∧
      t = (s.writeTree bt).succeed := by
  obtain ⟨s', hok, rfl⟩ | ⟨e, info, rfl⟩ | ⟨he, _⟩ := exec_next h
  · obtain ⟨fs, bt, hfs, hbt, rfl⟩ := buildRun_ok hok
    exact ⟨fs, bt, hfs, hbt, rfl⟩
  · cases hd
  · cases he

theorem execBuild_built {s t : State} {f : Nat → Word} (hf : FreqGiven s f) (h : exec .build s = .next t)
    (hd : t.done = true) : Built (presentLeaves f) t := by
  obtain ⟨fs, bt, hfs, hbt, rfl⟩ := execBuild_done h hd
  rw [gather_readFreq hf] at hfs
  cases hfs
  exact presentFrom_freqs f ▸ built_writeTree hbt (by simp) s

theorem execBuild_raise {s : State} {f : Nat → Word} {e : ErrorKind} {info : Word} (hf : FreqGiven s f)
    (h : huffmanTree ((List.range Config.nsym).map f) = .error (.raise e info)) :
    exec .build s = .next (s.raise e info) := by
  rw [exec_eq, runOf, buildRun_of_freqGiven hf, h]
  rfl

theorem huffmanTree_empty {fs : List Word} (h : presentFrom 0 fs = []) :
    huffmanTree fs = .error (.raise .emptyInput 0) := by
  simp [huffmanTree, h]

theorem huffmanTree_overflow {fs : List Word} {pre post : List (Byte × Word)} {sym : Byte} {w : Word}
    (h : presentFrom 0 fs = pre ++ (sym, w) :: post) (hfits : leafTotal pre ≤ Config.freqMax)
    (hover : Config.freqMax < leafTotal pre + w.toNat) :
    huffmanTree fs = .error (.raise .freqOverflow (sym.setWidth 32)) := by
  simp [huffmanTree, h, checkTotal_overflows (total := 0) (by simpa using hfits) (by simpa using hover)]

theorem freqSum_succ (f : Nat → Word) (k : Nat) : freqSum f (k + 1) = freqSum f k + (f k).toNat := by
  simp [freqSum, List.range_succ]

/-- The symbols below `k`, then `k`, then the others. -/
theorem presentLeaves_split {f : Nat → Word} {k : Nat} (hk : k < Config.nsym) (hne : f k ≠ 0) :
    ∃ post, presentLeaves f = leavesOf f (List.range k) ++ (BitVec.ofNat 8 k, f k) :: post := by
  refine ⟨leavesOf f (List.range' (k + 1) (Config.nsym - (k + 1))), ?_⟩
  have hsplit : List.range Config.nsym = List.range k ++ k :: List.range' (k + 1) (Config.nsym - (k + 1)) := by
    have happend := List.range'_append_1 (s := 0) (m := k) (n := Config.nsym - (k + 1) + 1)
    rw [Nat.zero_add] at happend
    rw [← List.range'_succ, List.range_eq_range', List.range_eq_range', happend]
    congr 1
    omega
  rw [presentLeaves, hsplit, leavesOf_append, leavesOf_cons, if_neg hne]

/-- A symbol's byte widened to a word is its number. -/
theorem setWidth_symbol {k : Nat} (hk : k < 256) : (BitVec.ofNat 8 k).setWidth 32 = BitVec.ofNat 32 k := by
  apply BitVec.eq_of_toNat_eq
  simp only [BitVec.toNat_setWidth, BitVec.toNat_ofNat]
  omega

/-- Settles O28: the two errors of the running total, and the bound of PoolAfter on every node. -/
theorem buildErrors : Obligations.BuildErrors := by
  intro s f hf
  refine ⟨fun hzero => ?_, fun k hk hfits hover => ?_, fun t _ h hd j w hj hw => ?_⟩
  · refine execBuild_raise hf (huffmanTree_empty ?_)
    have hnone : presentSymbols f = [] :=
      List.filter_eq_nil_iff.2 fun i hi => by simpa using hzero i (List.mem_range.1 hi)
    rw [presentFrom_freqs, presentLeaves_eq, hnone, List.map_nil]
  · rw [freqSum_succ] at hover
    have hne : f k ≠ 0 := fun hz => Nat.not_lt.2 hfits (by simpa [hz] using hover)
    obtain ⟨post, hsplit⟩ := presentLeaves_split hk hne
    rw [← presentFrom_freqs] at hsplit
    have hsum : leafTotal (leavesOf f (List.range k)) = freqSum f k := leafTotal_leavesOf ..
    rw [← hsum] at hfits hover
    rw [← setWidth_symbol hk]
    exact execBuild_raise hf (huffmanTree_overflow hsplit hfits hover)
  · rw [← presentLeaves_total]
    exact (execBuild_built hf h hd).freq_le_total hj hw

/-- Settles O29: the writes are those of `huffmanTree`, whose arrays `Built` describes. -/
theorem buildResult : Obligations.BuildResult := by
  intro s f hf hne hfits
  rw [← presentLeaves_ne_nil_iff, ← presentFrom_freqs] at hne
  rw [← presentLeaves_total, ← presentFrom_freqs] at hfits
  obtain ⟨bt, hbt⟩ := exists_huffmanTree hne hfits
  have hbuilt := built_writeTree hbt (by simp) s
  obtain ⟨hwords, hfreqs⟩ := huffmanTree_sizes hbt
  rw [presentFrom_freqs] at hbuilt hwords hfreqs
  have hrootFreq := hbuilt.peek_root_freq
  have hroot := hbuilt.root_eq
  have hcount := hbuilt.count_eq
  rw [presentLeaves_length] at hwords hfreqs hroot hcount hrootFreq
  rw [presentLeaves_total] at hrootFreq
  refine ⟨s.node.poke 0 bt.words, s.nodeFreq.poke 0 bt.freqs, ?_, fun k sym hk => ?_, hrootFreq, fun j hj => ?_,
    fun j hj => ?_⟩
  · rw [exec_eq, runOf, buildRun_of_freqGiven hf, hbt, ← hroot, ← hcount]
    rfl
  · have hlt := ((mem_presentSymbols f sym).1 (List.mem_of_getElem? hk)).1
    rw [← setWidth_symbol hlt]
    exact hbuilt.leaves k (BitVec.ofNat 8 sym, f sym) (by rw [presentLeaves_eq, List.getElem?_map, hk]; rfl)
  · rw [Cells.peek_poke_zero, Cells.peek_poke_zero, if_pos (by omega), if_pos (by omega)]
    simp [hwords, hfreqs, hj]
  · rw [Cells.peek_poke_zero, Cells.peek_poke_zero, if_neg (by omega), if_neg (by omega)]
    exact ⟨rfl, rfl⟩

/-- Settles O30: the pool before merge m is that of PoolAfter, whose two least keys the merge takes. -/
theorem buildMergesTheTwoLeastKeys : Obligations.BuildMergesTheTwoLeastKeys := by
  intro s t f n hf hn h hd m hm
  have hbuilt := execBuild_built hf h hd
  rw [← presentLeaves_length] at hn
  generalize presentLeaves f = ps at hbuilt hn
  subst hn
  have hfits := hbuilt.total_le
  have hlen := hbuilt.length_le
  obtain ⟨root, hroot⟩ := hbuilt.merges
  obtain ⟨pool', hafter⟩ := hroot.before (m' := m + 1) (by omega)
  obtain ⟨pool, pool₁, pool₂, a, b, hpool, ha, hb, hword, hfreq, hsum⟩ := hafter.last_merge
  obtain ⟨hne, hab, hleast⟩ := popLeast_twice_order hpool.indices_distinct.1 ha hb
  have hperm := popLeast_twice_perm ha hb
  have hpa : a ∈ pool := hperm.mem_iff.2 (by simp)
  have hpb : b ∈ pool := hperm.mem_iff.2 (by simp)
  have hinPool (c : Nat) := hpool.mem_iff_inPool (by omega) c
  have hpeek := hpool.peek_freq hbuilt.leaves
  refine ⟨a.index, b.index, BitVec.ofNat 32 a.freq, BitVec.ofNat 32 b.freq, hne,
    (hinPool _).1 (List.mem_map_of_mem hpa), (hinPool _).1 (List.mem_map_of_mem hpb), hpeek a hpa, hpeek b hpb, hword,
    ?_, ?_, hpool.word_less hfits hpa hpb hab, fun c fc hc hfc hca hcb => ?_⟩
  · rw [hfreq, BitVec.ofNat_add]
  · rw [hpool.toNat_freq hfits hpa, hpool.toNat_freq hfits hpb]
    omega
  · obtain ⟨k, hk, rfl⟩ := List.mem_map.1 ((hinPool c).2 hc)
    rw [hpeek k hk] at hfc
    cases hfc
    obtain rfl | rfl | hbk := hleast k hk
    · exact absurd rfl hca
    · exact absurd rfl hcb
    · exact hpool.word_less hfits hpb hk hbk

/-- Settles O31: the forest of the last pool is one tree, which TreeWF accepts as it accepts every strict tree. -/
theorem builtTreePassesTreeWF : Obligations.BuiltTreePassesTreeWF := by
  intro s t f hf h hd
  obtain ⟨T, hheld, hindices, hsymbols⟩ :=
    (execBuild_built hf h hd).exists_treeHeld (presentLeaves_symbols_nodup f)
  refine ⟨T, (treeWFAcceptsExactlyTheStrictTrees t T).2 hheld, hheld, fun i => ?_, fun sym => ?_⟩
  · rw [hindices.mem_iff, List.mem_range]
  · rw [hsymbols.mem_iff, mem_presentLeaves_symbols]

theorem gather_congr {α β : Type} {f g : β → Except Stop α} {xs : List β} (h : ∀ x ∈ xs, f x = g x) :
    gather f xs = gather g xs := by
  induction xs with
  | nil => rfl
  | cons x xs ih =>
    rw [gather, gather, h x (by simp), ih fun y hy => h y (by simp [hy])]

/-- Settles O32: `huffmanTree` is given the frequencies alone, and every entry of the tree is one it answers. -/
theorem buildDependsOnFreqOnly : Obligations.BuildDependsOnFreqOnly := by
  intro s s' t hsame h hd
  obtain ⟨fs, bt, hfs, hbt, rfl⟩ := execBuild_done h hd
  have hgather : gather (readFreq s') (List.range Config.nsym) = .ok fs := by
    rw [← hfs]
    refine gather_congr fun i hi => ?_
    simp only [readFreq, element, hsame i (List.mem_range.1 hi)]
  have hexec : exec .build s' = .next (s'.writeTree bt).succeed := by
    rw [exec_eq, runOf, buildRun, hgather]
    simp [hbt]
  obtain ⟨hwords, hfreqs⟩ := huffmanTree_sizes hbt
  have hcount := (built_writeTree hbt (by simpa using gather_length hfs) s).count_toNat
  refine ⟨_, hexec, rfl, rfl, rfl, fun i hi => ?_⟩
  rw [hcount] at hi
  simp only [State.succeed_node, State.succeed_nodeFreq, State.writeTree_node, State.writeTree_nodeFreq,
    Cells.peek_poke_zero, hwords, hfreqs, if_pos hi]
  exact ⟨trivial, trivial⟩

end Sys2Proof.Machine
end

section
/-! PROOFS. GEN (41_code_gen.md R131 to R137): the codes of a tree are the paths to its leaves, what the code table
then shows of them, and why no code ever begins another. -/

namespace Sys2Proof.Machine

/-! ### Paths to leaves (41_code_gen.md R130, R131) -/

@[simp] theorem CodeTree.leadsTo_leaf {i : Nat} {s sym : Byte} {p : List Bool} :
    (CodeTree.leaf i s).leadsTo p sym ↔ p = [] ∧ sym = s := by
  cases p <;> simp [CodeTree.leadsTo, CodeTree.descend, eq_comm]

@[simp] theorem CodeTree.leadsTo_inner_nil {i : Nat} {l r : CodeTree} {sym : Byte} :
    ¬(CodeTree.inner i l r).leadsTo [] sym := by
  simp [CodeTree.leadsTo]

@[simp] theorem CodeTree.leadsTo_inner_cons {i : Nat} {l r : CodeTree} {b : Bool} {p : List Bool} {sym : Byte} :
    (CodeTree.inner i l r).leadsTo (b :: p) sym ↔ (if b then r else l).leadsTo p sym := by
  cases b <;> rfl

/-- A path that goes on from a leaf's path to a leaf goes no further, and it is the same leaf. -/
theorem CodeTree.leadsTo_prefix {T : CodeTree} {p q : List Bool} {a b : Byte} (ha : T.leadsTo p a)
    (hb : T.leadsTo q b) (hpq : p <+: q) : a = b := by
  obtain ⟨i, hi⟩ := ha
  obtain ⟨j, hj⟩ := hb
  obtain ⟨rest, rfl⟩ := hpq
  rw [CodeTree.descend_append, hi, Option.bind_some] at hj
  exact (CodeTree.leadsTo_leaf.1 ⟨j, hj⟩).2.symm

/-- The walk writes, for each leaf, the path it came by and then the path to the leaf. -/
theorem CodeTree.mem_codes_iff {T : CodeTree} {start p : List Bool} {sym : Byte} :
    (sym, p) ∈ T.codes start ↔ ∃ q, T.leadsTo q sym ∧ p = start ++ q := by
  induction T generalizing start with
  | leaf i s => simp [CodeTree.codes, and_comm]
  | inner i l r ihl ihr =>
    rw [CodeTree.codes, List.mem_append, ihl, ihr]
    constructor
    · rintro (⟨q, hq, rfl⟩ | ⟨q, hq, rfl⟩)
      · exact ⟨false :: q, by simpa using hq, by simp⟩
      · exact ⟨true :: q, by simpa using hq, by simp⟩
    · rintro ⟨q, hq, rfl⟩
      match q, hq with
      | [], hq => exact absurd hq CodeTree.leadsTo_inner_nil
      | false :: q, hq => exact .inl ⟨q, by simpa using hq, by simp⟩
      | true :: q, hq => exact .inr ⟨q, by simpa using hq, by simp⟩

/-- The walk writes one code for each leaf, from left to right. -/
theorem CodeTree.codes_symbols (T : CodeTree) (start : List Bool) : (T.codes start).map Prod.fst = T.symbols := by
  induction T generalizing start with
  | leaf i s => rfl
  | inner i l r ihl ihr => rw [CodeTree.codes, List.map_append, ihl, ihr, CodeTree.symbols]

/-! ### The code written for a symbol -/

theorem codeFor_eq_none_iff {codes : List (Byte × List Bool)} {sym : Byte} :
    codeFor codes sym = none ↔ sym ∉ codes.map Prod.fst := by
  rw [codeFor, Option.map_eq_none_iff, List.find?_eq_none, List.mem_map]
  exact ⟨fun h ⟨c, hc, hkey⟩ => h c hc (beq_iff_eq.2 hkey), fun h c hc hkey => h ⟨c, hc, beq_iff_eq.1 hkey⟩⟩

/-- Where no symbol gets two codes, the one found is the one written. -/
theorem codeFor_eq_some_iff {codes : List (Byte × List Bool)} {sym : Byte} {p : List Bool}
    (hn : (codes.map Prod.fst).Nodup) : codeFor codes sym = some p ↔ (sym, p) ∈ codes := by
  refine ⟨mem_of_codeFor, fun h => ?_⟩
  cases hq : codeFor codes sym with
  | none => exact absurd (List.mem_map_of_mem h) (codeFor_eq_none_iff.1 hq)
  | some q => exact congrArg (fun c => some c.2) (List.inj_on_of_nodup_map hn (mem_of_codeFor hq) h rfl)

/-- The code of a symbol is the path to its leaf (41_code_gen.md R132). -/
theorem CodeTree.codeFor_codes_iff {T : CodeTree} (hn : T.symbols.Nodup) {sym : Byte} {p : List Bool} :
    codeFor (T.codes []) sym = some p ↔ T.leadsTo p sym := by
  rw [codeFor_eq_some_iff (by rwa [CodeTree.codes_symbols]), CodeTree.mem_codes_iff]
  simp

/-! ### What the code table shows -/

section CodeTable
variable {s t : State} (h : SameCodeTable s t)
include h

theorem SameCodeTable.codeEntry_eq (sym : Byte) : codeEntry t sym = codeEntry s sym := by
  rw [codeEntry, h.1, codeEntry]

theorem SameCodeTable.codeBits_eq (sym : Byte) : codeBits t sym = codeBits s sym := by
  rw [codeBits, h.2, h.codeEntry_eq, codeBits]

theorem SameCodeTable.prefixFree (hfree : PrefixFree s) : PrefixFree t := by
  intro a b hab ha hb
  rw [h.codeEntry_eq] at ha hb
  rw [h.codeBits_eq, h.codeBits_eq]
  exact hfree a b hab ha hb

end CodeTable

theorem State.succeed_sameCodeTable (s : State) : SameCodeTable s s.succeed := ⟨rfl, rfl⟩

@[simp] theorem codeEntry_succeed (s : State) (sym : Byte) : codeEntry s.succeed sym = codeEntry s sym :=
  s.succeed_sameCodeTable.codeEntry_eq sym

@[simp] theorem codeBits_succeed (s : State) (sym : Byte) : codeBits s.succeed sym = codeBits s sym :=
  s.succeed_sameCodeTable.codeBits_eq sym

theorem codeEntry_writeCodes_valid {s : State} {codes : List (Byte × List Bool)} {sym : Byte} :
    (codeEntry (s.writeCodes codes) sym).valid = true ↔ ∃ p, codeFor codes sym = some p := by
  rw [codeEntry_writeCodes]
  cases codeFor codes sym <;> simp [entryOfCode, noCode]

/-- CODE[s] after GEN is the code written for s, and empty without one. -/
theorem codeBits_writeCodes {s : State} {codes : List (Byte × List Bool)} (hlen : ∀ c ∈ codes, c.2.length < 256)
    (sym : Byte) : codeBits (s.writeCodes codes) sym = (codeFor codes sym).getD [] := by
  have hentry := codeEntry_writeCodes_len (s := s) (sym := sym) hlen
  have hle : ((codeFor codes sym).getD []).length < 256 := hentry ▸ BitVec.isLt _
  rw [codeBits, hentry]
  apply List.ext_getElem
  · simp
  · intro j hj hj'
    rw [List.getElem_map, List.getElem_range, State.writeCodes_codeImg, Option.getD_some,
      imageBit_codeImages codes sym j (Nat.lt_trans hj' hle), List.getD_eq_getElem _ _ hj']

/-- An image bit after GEN is the bit of the code, zero-padded (41_code_gen.md R132). -/
theorem readCodeBit_writeCodes (s : State) (codes : List (Byte × List Bool)) (sym : Byte) {j : Nat} (hj : j < 256) :
    readCodeBit (s.writeCodes codes).succeed sym j = .ok (((codeFor codes sym).getD []).getD j false) := by
  rw [← imageBit_codeImages codes sym j hj]
  rfl

/-- A symbol that is given no code has CODE_VALID 0, CODE_LEN 0 and an all-zero image (41_code_gen.md R132). -/
theorem writeCodes_without_code {codes : List (Byte × List Bool)} {sym : Byte} (h : codeFor codes sym = none)
    (s : State) : codeEntry (s.writeCodes codes).succeed sym = { valid := false, len := 0 } ∧
      ∀ j, j < 256 → readCodeBit (s.writeCodes codes).succeed sym j = .ok false := by
  refine ⟨by simp [h, noCode], fun j hj => ?_⟩
  rw [readCodeBit_writeCodes s codes sym hj, h]
  rfl

/-- Codes none of which begins another make a code table of which the same holds (41_code_gen.md R130). -/
theorem prefixFree_writeCodes (s : State) {codes : List (Byte × List Bool)} (hlen : ∀ c ∈ codes, c.2.length < 256)
    (hfree : ∀ a b p q, codeFor codes a = some p → codeFor codes b = some q → p <+: q → a = b) :
    PrefixFree (s.writeCodes codes) := by
  intro a b hab ha hb hprefix
  obtain ⟨p, hp⟩ := codeEntry_writeCodes_valid.1 ha
  obtain ⟨q, hq⟩ := codeEntry_writeCodes_valid.1 hb
  rw [codeBits_writeCodes hlen, codeBits_writeCodes hlen, hp, hq] at hprefix
  exact hab (hfree a b p q hp hq hprefix)

/-! ### GEN's end -/

/-- GEN's success changes BUSY, DONE and the code table only (41_code_gen.md R131, 45_control.md R193). -/
theorem writeCodes_succeed_frame (s : State) (codes : List (Byte × List Bool)) :
    (s.writeCodes codes).succeed =
      { s with
        busy := false
        done := true
        codeTab := (s.writeCodes codes).succeed.codeTab
        codeImg := (s.writeCodes codes).succeed.codeImg } := rfl

theorem execGen_without_tree {s : State} (h0 : s.treeCount = 0) :
    exec .gen s = .next (s.writeCodes []).succeed := by
  rw [exec_eq, runOf, genRun, if_pos h0, endCommand_ok]

/-- GEN with a strict tree writes the tree's codes (41_code_gen.md R131). -/
theorem TreeHeld.execGen {s : State} {T : CodeTree} (h : TreeHeld s T) :
    exec .gen s = .next (s.writeCodes (T.codes [])).succeed := by
  have h0 : s.treeCount ≠ 0 := by
    intro hz
    have hlt := CodeTree.storedIn_index_lt h.stored
    rw [hz] at hlt
    exact absurd hlt (Nat.not_lt_zero _)
  rw [exec_eq, runOf, genRun, if_neg h0, (treeWFAcceptsExactlyTheStrictTrees s T).2 h, endCommand_ok]

theorem TreeHeld.codes_length {s : State} {T : CodeTree} (h : TreeHeld s T) :
    ∀ c ∈ T.codes [], c.2.length < 256 :=
  codes_length_of_treeWF ((treeWFAcceptsExactlyTheStrictTrees s T).2 h)

/-- GEN ends with DONE only without a tree or with a strict one. -/
theorem execGen_done {s t : State} (h : exec .gen s = .next t) (hd : t.done = true) :
    t = (s.writeCodes []).succeed ∨ ∃ T, TreeHeld s T ∧ t = (s.writeCodes (T.codes [])).succeed := by
  obtain ⟨s', hok, rfl⟩ | ⟨e, info, rfl⟩ | ⟨hne, _⟩ := exec_next h
  · obtain ⟨_, rfl⟩ | ⟨_, T, hT, rfl⟩ := genRun_ok hok
    · exact .inl rfl
    · exact .inr ⟨T, (treeWFAcceptsExactlyTheStrictTrees s T).1 hT, rfl⟩
  · cases hd
  · cases hne

/-- The paths to two leaves part at an inner vertex, so neither begins the other (41_code_gen.md R135). -/
theorem TreeHeld.prefixFree_writeCodes {s : State} {T : CodeTree} (h : TreeHeld s T) (u : State) :
    PrefixFree (u.writeCodes (T.codes [])) := by
  refine Machine.prefixFree_writeCodes u h.codes_length fun a b p q hp hq => ?_
  rw [CodeTree.codeFor_codes_iff h.symbols_nodup] at hp hq
  exact CodeTree.leadsTo_prefix hp hq

theorem prefixFree_of_execGen {s t : State} (h : exec .gen s = .next t) (hd : t.done = true) : PrefixFree t := by
  obtain rfl | ⟨T, hT, rfl⟩ := execGen_done h hd
  · exact (State.succeed_sameCodeTable _).prefixFree (prefixFree_writeCodes s (by simp) (by simp [codeFor]))
  · exact (State.succeed_sameCodeTable _).prefixFree (hT.prefixFree_writeCodes s)

/-! ### The code table over a step (70_reset_and_hazards.md R251) -/

theorem prefixFree_resetInput (s : State) : PrefixFree s.resetInput := fun _ _ _ hvalid => Bool.noConfusion hvalid

/-- Of the ends of the six commands only GEN's success writes codes, none of which begins another. -/
theorem PrefixFree.exec {i : Instr} {s t : State} (h : PrefixFree s) (hexec : Machine.exec i s = .next t) :
    PrefixFree t := by
  by_cases hi : i = .gen
  case neg =>
    obtain ⟨_, _, hcode, _⟩ := commandsWriteOnlyTheirOwnResults i s t hexec
    exact SameCodeTable.prefixFree (hcode hi) h
  subst hi
  obtain ⟨s', _, rfl⟩ | ⟨e, info, rfl⟩ | ⟨hne, _⟩ := exec_next hexec
  · exact prefixFree_of_execGen hexec rfl
  · exact SameCodeTable.prefixFree (s := s) ⟨rfl, rfl⟩ h
  · cases hne

theorem PrefixFree.runCommand {s t : State} (h : PrefixFree s) (hrun : Machine.runCommand s = .next t) :
    PrefixFree t := by
  obtain ⟨i, _, hi⟩ | ⟨_, hill⟩ := runCommand_cases s
  · exact h.exec (hi.symm.trans hrun)
  · rw [hill] at hrun
    cases hrun
    exact SameCodeTable.prefixFree (s := s) ⟨rfl, rfl⟩ h

/-- Settles O54: reset empties the code table, GEN writes the paths of a tree, and no other event writes it. -/
theorem everyStepKeepsTheCodesPrefixFree : Obligations.EveryStepKeepsTheCodesPrefixFree := by
  intro s t h hstep
  have hin (rest : List Input) : PrefixFree (s.withInputs rest) := SameCodeTable.prefixFree (s := s) ⟨rfl, rfl⟩ h
  obtain ⟨_, _, rest, hrun⟩ | ⟨rest, rfl⟩ | ⟨op, rest, rfl⟩ | ⟨rest, _, rfl⟩ := step_next hstep
  · exact (hin rest).runCommand hrun
  · exact hin rest
  · exact (portAccess_sameCodeTable _ op).prefixFree (hin rest)
  · exact prefixFree_resetInput _

/-! ### The statements on GEN -/

/-- Settles O37: the codes GEN writes are the paths to the leaves, and a symbol of no leaf has none. -/
theorem genGivesEveryLeafItsPath : Obligations.GenGivesEveryLeafItsPath := by
  intro s T h
  refine ⟨_, h.execGen, writeCodes_succeed_frame s _, fun path sym hpath => ?_, fun sym hsym => ?_⟩
  · have hcode := (CodeTree.codeFor_codes_iff h.symbols_nodup).2 hpath
    refine ⟨Nat.le_of_lt_succ (h.codes_length _ (mem_of_codeFor hcode)), ?_, ?_, fun j hj => ?_⟩
    · simp [hcode, entryOfCode]
    · rw [codeBits_succeed, codeBits_writeCodes h.codes_length, hcode, Option.getD_some]
    · rw [readCodeBit_writeCodes _ _ _ hj, hcode, Option.getD_some]
  · exact writeCodes_without_code (codeFor_eq_none_iff.2 (by rwa [CodeTree.codes_symbols])) s

/-- Settles O38: with no tree GEN writes no code. -/
theorem genWithoutATree : Obligations.GenWithoutATree := by
  intro s h0
  exact ⟨_, execGen_without_tree h0, writeCodes_succeed_frame s [],
    fun _ => writeCodes_without_code (codeFor_eq_none_iff.2 (by simp)) s⟩

theorem CodeTree.storedIn_congr {s s' : State} {T : CodeTree} (h : T.storedIn s) (hc : s'.treeCount = s.treeCount)
    (hnode : ∀ i ∈ T.indices, s'.node.peek i = s.node.peek i) : T.storedIn s' := by
  induction T with
  | leaf i sym =>
    obtain ⟨hi, hw⟩ := h
    exact ⟨hc ▸ hi, (hnode i (by simp [CodeTree.indices])).trans hw⟩
  | inner i l r ihl ihr =>
    obtain ⟨hi, hw, hl, hr⟩ := h
    exact ⟨hc ▸ hi, (hnode i (by simp [CodeTree.indices])).trans hw,
      ihl hl fun j hj => hnode j (by simp [CodeTree.indices, hj]),
      ihr hr fun j hj => hnode j (by simp [CodeTree.indices, hj])⟩

/-- Settles O39: the tree stands in the second state too, and GEN writes the codes of the tree. -/
theorem genDependsOnTheReachableNodesOnly : Obligations.GenDependsOnTheReachableNodesOnly := by
  intro s s' T h hc hroot hnode
  have h' : TreeHeld s' T :=
    { count_le := hc ▸ h.count_le
      root_eq := hroot ▸ h.root_eq
      stored := CodeTree.storedIn_congr h.stored hc hnode
      indices_nodup := h.indices_nodup
      symbols_nodup := h.symbols_nodup }
  exact ⟨_, _, h.execGen, h'.execGen, rfl, rfl⟩

/-- Settles O40: the code of a symbol is the path to its leaf, which below an internal root is not empty. -/
theorem generatedCodesArePrefixFree : Obligations.GeneratedCodesArePrefixFree := by
  intro s t hexec hd
  refine ⟨prefixFree_of_execGen hexec hd, fun T hT hinner sym hvalid hzero => ?_⟩
  rw [hT.execGen] at hexec
  cases hexec
  rw [codeEntry_succeed] at hvalid hzero
  obtain ⟨p, hp⟩ := codeEntry_writeCodes_valid.1 hvalid
  have hlen := codeEntry_writeCodes_len (s := s) (sym := sym) hT.codes_length
  rw [hzero, hp] at hlen
  obtain rfl : p = [] := List.length_eq_zero_iff.1 hlen.symm
  have hlead := (CodeTree.codeFor_codes_iff hT.symbols_nodup).1 hp
  cases T with
  | leaf i s' => cases hinner
  | inner i l r => exact CodeTree.leadsTo_inner_nil hlead

end Sys2Proof.Machine
end

section
/-! PROOFS. PACK (42_bit_packer.md R146 to R153): what its check pass answers, the payload it writes, and how it
ends on every coded text. -/

namespace Sys2Proof.Machine

/-! ### Codes and their lengths (42_bit_packer.md R146) -/

@[simp] theorem length_codeBits (s : State) (sym : Byte) :
    (codeBits s sym).length = (codeEntry s sym).len.toNat := by
  rw [codeBits, List.length_map, List.length_range]

theorem length_packedBits (s : State) (text : List Byte) : (packedBits s text).length = bitTotal s text := by
  simp [packedBits, bitTotal, List.length_flatMap]

theorem codeBits_of_empty {s : State} {sym : Byte} (h : (codeEntry s sym).len = 0) : codeBits s sym = [] :=
  List.eq_nil_of_length_eq_zero (by rw [length_codeBits, h]; rfl)

/-- CODE[s] is read without a fault once the images have been written, and before that when it is empty. -/
theorem readCode_eq_codeBits {s : State} {sym : Byte} (h : s.codeImg = none → (codeEntry s sym).len = 0) :
    readCode s sym = .ok (codeBits s sym) := by
  cases himg : s.codeImg with
  | none => rw [readCode_of_empty s sym (h himg), codeBits_of_empty (h himg)]
  | some img => rw [readCode_of_image s sym img himg, codeBits, himg, Option.getD_some]

theorem TextCoded.gather_readCode {s : State} {text : List Byte} (h : TextCoded s text) :
    gather (readCode s) text = .ok (text.map (codeBits s)) :=
  gather_eq_map _ _ _ fun sym hsym => readCode_eq_codeBits fun himg => h.image himg sym hsym

/-! ### The check pass (42_bit_packer.md R146, R149) -/

theorem packSymbol_without_code {s : State} {k : Nat} {sym : Byte} (hk : Cells.peek s.textIn k = some sym)
    (hv : (codeEntry s sym).valid = false) :
    packSymbol s k = .error (.raise .missingCode (BitVec.ofNat 32 k)) := by
  have hread : readTextIn s k = .ok sym := (element_ok_iff ..).2 hk
  simp [packSymbol, hread, hv]

/-- The check pass goes on at each index below the end of a text that stands in TEXT_IN and has codes. -/
theorem packSymbol_of_holds {s : State} {text : List Byte} (h : Cells.holds s.textIn 0 text)
    (hv : ∀ c ∈ text, (codeEntry s c).valid = true) {k : Nat} (hk : k < text.length) :
    packSymbol s k = .ok text[k] := by
  have hpeek : Cells.peek s.textIn k = some text[k] := by
    simpa [List.getElem?_eq_getElem hk] using h k hk
  exact (packSymbol_ok_iff ..).2 ⟨hpeek, hv _ (List.getElem_mem hk)⟩

theorem TextGiven.gather_packSymbol {s : State} {text : List Byte} (h : TextGiven s text)
    (hv : ∀ c ∈ text, (codeEntry s c).valid = true) :
    gather (packSymbol s) (List.range s.textLen.toNat) = .ok text := by
  rw [gather_ok_iff, h.length_eq, List.forall₂_iff_get]
  refine ⟨List.length_range, fun k _ hk => ?_⟩
  simpa using packSymbol_of_holds h.held hv hk

/-- TEXT_LEN of a text is within TEXT_CAP, so the first check of PACK passes. -/
theorem TextGiven.textLen_le {s : State} {text : List Byte} (h : TextGiven s text) :
    ¬Config.textCap < s.textLen.toNat := by
  rw [h.length_eq]
  exact Nat.not_lt.2 h.length_le

/-! ### PACK's end (42_bit_packer.md R146, R150) -/

/-- PACK writes the payload of the packed bits when it fits (42_bit_packer.md R147, R150). -/
theorem TextGiven.execPack {s : State} {text : List Byte} (h : TextGiven s text) (hc : TextCoded s text)
    (hfit : 1 + ceil8 (packedBits s text).length ≤ Config.payloadCap) :
    exec .pack s =
      .next (s.writePayload (payloadOf (packedBits s text) (packedBits s text).length)).succeed := by
  rw [length_packedBits] at hfit ⊢
  have hrun : packRun s = .ok (s.writePayload (payloadOf (packedBits s text) (bitTotal s text))) := by
    simp only [packRun, if_neg h.textLen_le, h.gather_packSymbol hc.valid, if_neg (Nat.not_lt.2 hfit),
      hc.gather_readCode, packedBits, List.flatMap_def]
  rw [exec_eq, runOf, hrun, endCommand_ok]

theorem TextGiven.execPack_overflow {s : State} {text : List Byte} (h : TextGiven s text)
    (hv : ∀ c ∈ text, (codeEntry s c).valid = true) (hover : Config.payloadCap < 1 + ceil8 (bitTotal s text)) :
    exec .pack s = .next (s.raise .payloadOverflow (BitVec.ofNat 32 (bitTotal s text))) := by
  have hrun : packRun s = .error (.raise .payloadOverflow (BitVec.ofNat 32 (bitTotal s text))) := by
    simp only [packRun, if_neg h.textLen_le, h.gather_packSymbol hv, if_pos hover]
  rw [exec_eq, runOf, hrun, endCommand_raise]

theorem execPack_badLength {s : State} (h : Config.textCap < s.textLen.toNat) :
    exec .pack s = .next (s.raise .badLength s.textLen) := by
  rw [exec_eq, runOf, packRun, if_pos h, endCommand_raise]

/-! ### The payload (42_bit_packer.md R147, R151) -/

@[simp] theorem length_payloadOf (bits : List Bool) (len : Nat) : (payloadOf bits len).length = 1 + ceil8 len := by
  rw [payloadOf, List.length_cons, length_packBytes, Nat.add_comm]

/-- PACK's success changes BUSY, DONE, PAYLOAD and PAYLOAD_LEN only (42_bit_packer.md R150, 45_control.md R193). -/
theorem writePayload_succeed_frame (s : State) (bytes : List Byte) :
    (s.writePayload bytes).succeed =
      { s with
        busy := false
        done := true
        payload := Cells.poke s.payload 0 bytes
        payloadLen := BitVec.ofNat 32 bytes.length } := rfl

/-- The header of a written payload. -/
theorem peek_poke_payloadOf_zero (m : Memory) (bits : List Bool) (len : Nat) :
    Cells.peek (Cells.poke m 0 (payloadOf bits len)) 0 = some (BitVec.ofNat 8 (len % 8)) :=
  Cells.peek_poke_inside m 0 (payloadOf bits len) 0 (by simp)

/-- Data byte g of a written payload. -/
theorem peek_poke_payloadOf_data (m : Memory) (bits : List Bool) {len g : Nat} (hg : g < ceil8 len) :
    Cells.peek (Cells.poke m 0 (payloadOf bits len)) (1 + g) = some (byteOfBits (bits.drop (8 * g))) := by
  rw [Cells.peek_poke, if_pos (by simp; omega), Nat.sub_zero, Nat.add_comm 1 g, payloadOf,
    List.getElem?_cons_succ, packBytes_getElem? _ _ _ hg]

/-! ### The statements on PACK -/

/-- Settles O41: PACK writes the header and the packed bytes of the text's bits and leaves the rest of PAYLOAD. -/
theorem packResult : Obligations.PackResult := by
  rintro s text _ _ h hc rfl rfl hfit
  refine ⟨Cells.poke s.payload 0 (payloadOf (packedBits s text) (packedBits s text).length), ?_,
    peek_poke_payloadOf_zero .., fun g hg => ⟨_, peek_poke_payloadOf_data _ _ hg, fun t ht => ?_⟩,
    fun k hk => Cells.peek_poke_outside _ _ _ _ (.inr ?_)⟩
  · rw [h.execPack hc hfit, writePayload_succeed_frame, length_payloadOf, ceil8]
  · have hbit := bitOf_byteOfBits ((packedBits s text).drop (8 * g)) t ht
    rwa [List.getD_eq_getElem?_getD, List.getElem?_drop, ← List.getD_eq_getElem?_getD] at hbit
  · rw [length_payloadOf, ceil8]
    omega

/-- Settles O42: the check pass goes on below the index and raises MISSING_CODE there. -/
theorem packMissingCode : Obligations.PackMissingCode := by
  intro s before sym hcap hlt hheld hbefore hsym
  have hprefix : Cells.holds s.textIn 0 before := fun k hk => by
    rw [hheld k (by simp; omega), List.getElem?_append_left hk]
  have hlast : Cells.peek s.textIn before.length = some sym := by
    simpa using hheld before.length (by simp)
  have hcheck : gather (packSymbol s) (List.range s.textLen.toNat) =
      .error (.raise .missingCode (BitVec.ofNat 32 before.length)) :=
    gather_range_stops _ hlt (fun j hj => ⟨_, packSymbol_of_holds hprefix hbefore hj⟩)
      (packSymbol_without_code hlast hsym)
  rw [exec_eq, runOf, packRun, if_neg (Nat.not_lt.2 hcap), hcheck]
  rfl

/-- Settles O43: TEXT_LEN is checked first, and the size of the payload after the check pass. -/
theorem packLimits : Obligations.PackLimits := by
  refine ⟨fun s h => execPack_badLength h, ?_⟩
  rintro s text _ h hv rfl hover
  exact h.execPack_overflow hv hover

/-- Settles O44: the bit string of such a text is empty, so PACK writes the header 0 and no data byte. -/
theorem packOfZeroLengthCodes : Obligations.PackOfZeroLengthCodes := by
  intro s text h hempty
  have hcoded : TextCoded s text :=
    { valid := fun c hc => by rw [hempty c hc]
      image := fun _ c hc => by rw [hempty c hc] }
  have hbits : [] = packedBits s text :=
    (List.flatMap_eq_nil_iff.2 fun c hc => codeBits_of_empty (by rw [hempty c hc])).symm
  obtain ⟨pl, hexec, hheader, _, hrest⟩ := packResult s text [] 0 h hcoded hbits rfl (by decide)
  exact ⟨pl, hexec, hheader, hrest⟩

end Sys2Proof.Machine
end

section
/-! PROOFS. UNPACK (43_bit_unpacker.md R161 to R167): its run on every payload, the bits it writes, and that it gives
back the bits PACK has packed. -/

namespace Sys2Proof.Machine

/-! ### UNPACK's run (43_bit_unpacker.md R161) -/

theorem Cells.poke_zero_nil {α : Type} (m : Cells α) : m.poke 0 [] = m := by
  simp [Cells.poke, Cells.run]

theorem payloadLen_ne_zero {s : State} (h : 1 ≤ s.payloadLen.toNat) : s.payloadLen ≠ 0 := by
  intro hzero
  rw [hzero] at h
  exact absurd h (by decide)

section Header
variable {s : State} {header : Byte} (hpos : 1 ≤ s.payloadLen.toNat) (hcap : s.payloadLen.toNat ≤ Config.payloadCap)
  (hheader : Cells.peek s.payload 0 = some header)
include hpos hcap hheader

theorem unpackRun_header_above (h7 : 7 < header.toNat) :
    unpackRun s = .error (.raise .badPayload (header.setWidth 32)) := by
  have hread : readPayload s 0 = .ok header := (element_ok_iff ..).2 hheader
  simp only [unpackRun, if_neg (payloadLen_ne_zero hpos), if_neg (Nat.not_lt.2 hcap), hread, if_pos h7]

theorem unpackRun_without_data (h7 : header.toNat ≤ 7) (hlen : s.payloadLen.toNat - 1 = 0) :
    unpackRun s =
      if header = 0 then .ok (s.writeBits [] 0) else .error (.raise .badPayload (header.setWidth 32)) := by
  have hread : readPayload s 0 = .ok header := (element_ok_iff ..).2 hheader
  simp only [unpackRun, if_neg (payloadLen_ne_zero hpos), if_neg (Nat.not_lt.2 hcap), hread,
    if_neg (Nat.not_lt.2 h7), hlen]

theorem unpackRun_with_data (h7 : header.toNat ≤ 7) {d : Nat} (hlen : s.payloadLen.toNat - 1 = d + 1) :
    unpackRun s = unpackData s header d := by
  have hread : readPayload s 0 = .ok header := (element_ok_iff ..).2 hheader
  simp only [unpackRun, if_neg (payloadLen_ne_zero hpos), if_neg (Nat.not_lt.2 hcap), hread,
    if_neg (Nat.not_lt.2 h7), hlen]

end Header

/-- The data bytes are read in order, the last one on its own. -/
theorem unpackData_of_holds {s : State} {header last : Byte} {full : List Byte}
    (h : Cells.holds s.payload 0 (header :: (full ++ [last]))) :
    unpackData s header full.length =
      .ok (s.writeBits (full ++ [keepPrefix (validBits header) last]) (8 * full.length + validBits header)) := by
  have hread : ∀ k b, (full ++ [last])[k]? = some b → readPayload s (1 + k) = .ok b := by
    intro k b hk
    have hlt : k < (full ++ [last]).length := (List.getElem?_eq_some_iff.1 hk).1
    have hheld := h (k + 1) (by simpa using hlt)
    rw [List.getElem?_cons_succ, hk, Nat.zero_add, Nat.add_comm] at hheld
    exact (element_ok_iff ..).2 hheld
  have hfull : gather (readPayload s) (List.range' 1 full.length) = .ok full := by
    rw [gather_ok_iff, List.forall₂_iff_get]
    refine ⟨List.length_range', fun k _ hk => ?_⟩
    simpa using hread k full[k] (by simp [List.getElem?_append_left hk])
  have hlast : readPayload s (full.length + 1) = .ok last := by
    rw [Nat.add_comm]
    exact hread _ _ (by simp)
  simp only [unpackData, hfull, hlast]

/-- UNPACK completes on a well-formed payload with data (43_bit_unpacker.md R162, R163). -/
theorem execUnpack_of_holds {s : State} {header last : Byte} {full : List Byte}
    (hlen : s.payloadLen.toNat = 1 + (full.length + 1)) (hcap : s.payloadLen.toNat ≤ Config.payloadCap)
    (h : Cells.holds s.payload 0 (header :: (full ++ [last]))) (h7 : header.toNat ≤ 7) :
    exec .unpack s = .next (s.writeBits (full ++ [keepPrefix (validBits header) last])
      (8 * full.length + validBits header)).succeed := by
  have hheader : Cells.peek s.payload 0 = some header := h 0 (by simp)
  rw [exec_eq, runOf, unpackRun_with_data (by omega) hcap hheader h7 (d := full.length) (by omega),
    unpackData_of_holds h, endCommand_ok]

/-! ### The bits UNPACK writes (43_bit_unpacker.md R162, R163, 20_memory.md R67) -/

theorem validBits_le {header : Byte} (h7 : header.toNat ≤ 7) : validBits header ≤ 8 := by
  rw [validBits]
  split <;> omega

/-- The first v stored bits are those of the byte, the others are 0 (43_bit_unpacker.md R161). -/
theorem bitOf_keepPrefix (v : Nat) (b : Byte) {t : Nat} (ht : t < 8) :
    bitOf (keepPrefix v b) t = (decide (t < v) && bitOf b t) := by
  have hmask : (0xFF#8 <<< (8 - v)).getLsbD (7 - t) = decide (t < v) := by
    have hones : ∀ j : Fin 8, (0xFF#8).getLsbD j = true := by decide
    rw [BitVec.getLsbD_shiftLeft, hones ⟨7 - t - (8 - v), by omega⟩]
    by_cases htv : t < v <;> simp [htv] <;> omega
  rw [bitOf, keepPrefix, BitVec.getLsbD_and, hmask, Bool.and_comm, bitOf]

theorem storedBit_poke (m : Memory) (bytes : List Byte) {i : Nat} (hi : i < 8 * bytes.length) :
    storedBit (Cells.poke m 0 bytes) i = (bytes[i / 8]?).map (fun b => bitOf b (i % 8)) := by
  rw [storedBit, Cells.peek_poke_zero, if_pos (by omega)]

/-- Clearing the padding of the last byte keeps the bits before it and shows 0 from there on. -/
theorem storedBit_poke_keepPrefix (m : Memory) (full : List Byte) (last : Byte) (v : Nat) {i : Nat}
    (hi : i < 8 * (full.length + 1)) :
    storedBit (Cells.poke m 0 (full ++ [keepPrefix v last])) i =
      ((full ++ [last])[i / 8]?).map (fun b => decide (i < 8 * full.length + v) && bitOf b (i % 8)) := by
  rw [storedBit_poke _ _ (by simpa using hi)]
  rcases Nat.lt_or_ge i (8 * full.length) with hlt | hge
  · have hbefore : i < 8 * full.length + v := by omega
    rw [List.getElem?_append_left (by omega), List.getElem?_append_left (by omega)]
    simp only [decide_eq_true hbefore, Bool.true_and]
  · have hbyte : i / 8 = full.length := by omega
    have hvalid : i % 8 < v ↔ i < 8 * full.length + v := by omega
    simp [hbyte, bitOf_keepPrefix v last (Nat.mod_lt i (by decide)), hvalid]

/-! ### The statements on one UNPACK -/

/-- Settles O45: the run writes the data bytes with the padding of the last one cleared. -/
theorem unpackResult : Obligations.UnpackResult := by
  intro s header data n hlen hcap hne hheld h7 hn
  obtain ⟨full, last, rfl⟩ := (List.eq_nil_or_concat' data).resolve_left hne
  have hcount : (full ++ [last]).length = full.length + 1 := List.length_append
  rw [hcount] at hlen hn hcap ⊢
  obtain rfl : n = 8 * full.length + validBits header := hn
  have hvalid := validBits_le h7
  refine ⟨Cells.poke s.bitbuf 0 (full ++ [keepPrefix (validBits header) last]),
    execUnpack_of_holds hlen (hlen ▸ hcap) hheld h7, fun i hi => ?_, fun i hi hi8 => ?_, fun m hm => ?_⟩
  · have hlt : i / 8 < (full ++ [last]).length := by omega
    refine ⟨_, List.getElem?_eq_getElem hlt, ?_⟩
    rw [storedBit_poke_keepPrefix _ _ _ _ (by omega), List.getElem?_eq_getElem hlt, Option.map_some,
      decide_eq_true hi, Bool.true_and, bitOf]
  · have hlt : i / 8 < (full ++ [last]).length := by omega
    rw [storedBit_poke_keepPrefix _ _ _ _ hi8, List.getElem?_eq_getElem hlt, Option.map_some,
      decide_eq_false (Nat.not_lt.2 hi), Bool.false_and]
  · exact Cells.peek_poke_outside _ _ _ _ (.inr (by simpa using hm))

/-- Settles O46: the checks of the run in their order, and the empty payload. -/
theorem unpackOfEmptyAndMalformedPayloads : Obligations.UnpackOfEmptyAndMalformedPayloads := by
  refine fun s => ⟨fun hlen hheader => ?empty, fun hlen => ?noHeader, fun hcap => ?tooLong,
    fun header hpos hcap hheader hbad => ?badHeader⟩
  case empty =>
    have hone : s.payloadLen.toNat = 1 := by rw [hlen]; rfl
    have hrun := unpackRun_without_data (by omega) (by rw [hone]; decide) hheader (by decide) (by omega)
    rw [exec_eq, runOf, hrun, if_pos rfl, endCommand_ok, State.writeBits, Cells.poke_zero_nil]
    rfl
  case noHeader =>
    rw [exec_eq, runOf, unpackRun, if_pos hlen, endCommand_raise]
    rfl
  case tooLong =>
    rw [exec_eq, runOf, unpackRun, if_neg (payloadLen_ne_zero (by omega)), if_pos hcap, endCommand_raise]
    rfl
  case badHeader =>
    have hrun : unpackRun s = .error (.raise .badPayload (header.setWidth 32)) := by
      rcases Nat.lt_or_ge 7 header.toNat with h7 | h7
      · exact unpackRun_header_above hpos hcap hheader h7
      · obtain ⟨hlen, hne⟩ := hbad.resolve_left (Nat.not_lt.2 h7)
        rw [unpackRun_without_data hpos hcap hheader h7 (by rw [hlen]; rfl), if_neg hne]
    rw [exec_eq, runOf, hrun, endCommand_raise]
    rfl

/-! ### UNPACK of what PACK writes (43_bit_unpacker.md R167) -/

theorem toNat_header (len : Nat) : (BitVec.ofNat 8 (len % 8)).toNat = len % 8 :=
  Nat.mod_eq_of_lt (by omega)

/-- The whole bytes before the last one and the valid bits its header states make up the length
(42_bit_packer.md R147, 43_bit_unpacker.md R163). -/
theorem validBits_header {len : Nat} (hpos : 0 < len) :
    len = 8 * (ceil8 len - 1) + validBits (BitVec.ofNat 8 (len % 8)) := by
  have hzero : BitVec.ofNat 8 (len % 8) = 0 ↔ len % 8 = 0 := by
    rw [← BitVec.toNat_inj, toNat_header]
    rfl
  simp only [validBits, hzero, toNat_header, ceil8]
  split <;> omega

/-- UNPACK gives back the bits whose payload stands in PAYLOAD, whatever else the state holds. -/
theorem execUnpack_payloadOf {u : State} {bits : List Bool}
    (hheld : Cells.holds u.payload 0 (payloadOf bits bits.length))
    (hlen : u.payloadLen.toNat = 1 + ceil8 bits.length) (hcap : 1 + ceil8 bits.length ≤ Config.payloadCap) :
    ∃ bb, exec .unpack u =
        .next { u with busy := false, done := true, bitbuf := bb, bitLen := BitVec.ofNat 32 bits.length } ∧
      ∀ i, i < bits.length → storedBit bb i = bits[i]? := by
  rcases Nat.eq_zero_or_pos bits.length with hnil | hpos
  · obtain rfl := List.eq_nil_of_length_eq_zero hnil
    have hheader : Cells.peek u.payload 0 = some 0 := hheld 0 (by simp)
    have hone : u.payloadLen = 1 := BitVec.eq_of_toNat_eq hlen
    exact ⟨u.bitbuf, (unpackOfEmptyAndMalformedPayloads u).1 hone hheader, fun i hi => absurd hi (Nat.not_lt_zero i)⟩
  · have hdata : packBytes (ceil8 bits.length) bits ≠ [] := by
      rw [← List.length_pos_iff, length_packBytes, ceil8]
      omega
    have hsize := length_packBytes (ceil8 bits.length) bits
    obtain ⟨bb, hexec, hbits, _⟩ := unpackResult u (BitVec.ofNat 8 (bits.length % 8))
      (packBytes (ceil8 bits.length) bits) bits.length (by rw [hsize, hlen]) (by rwa [hsize]) hdata hheld
      (by rw [toNat_header]; omega) (by rw [hsize]; exact validBits_header hpos)
    refine ⟨bb, hexec, fun i hi => ?_⟩
    obtain ⟨b, hb, hstored⟩ := hbits i hi
    have hpacked := bitOf_packBytes (ceil8 bits.length) bits i (by rw [ceil8]; omega)
    rw [hb, Option.map_some] at hpacked
    rw [hstored, ← bitOf, hpacked, List.getD_eq_getElem _ _ hi, List.getElem?_eq_getElem hi]

/-- A PACK that ends with DONE has written the payload of the packed bits, which fits. -/
theorem TextGiven.execPack_done {s t : State} {text : List Byte} (h : TextGiven s text) (hc : TextCoded s text)
    (hexec : exec .pack s = .next t) (hd : t.done = true) :
    1 + ceil8 (packedBits s text).length ≤ Config.payloadCap ∧
      t = (s.writePayload (payloadOf (packedBits s text) (packedBits s text).length)).succeed := by
  rcases Nat.lt_or_ge Config.payloadCap (1 + ceil8 (packedBits s text).length) with hover | hfit
  · rw [h.execPack_overflow hc.valid (by rwa [← length_packedBits])] at hexec
    cases hexec
    cases hd
  · rw [h.execPack hc hfit] at hexec
    cases hexec
    exact ⟨hfit, rfl⟩

theorem Cells.holds_poke_zero {α : Type} (m : Cells α) (vs : List α) : (m.poke 0 vs).holds 0 vs := by
  intro k hk
  rw [Nat.zero_add, Cells.peek_poke_zero, if_pos hk]

/-- Settles O47: PACK's payload stands in PAYLOAD when UNPACK is accepted, and it is the payload of the packed bits. -/
theorem unpackInvertsPack : Obligations.UnpackInvertsPack := by
  intro s t text h hc hexec hd
  obtain ⟨hfit, rfl⟩ := h.execPack_done hc hexec hd
  have hbytes : 1 + ceil8 (packedBits s text).length ≤ 16384 := hfit
  have hlen : (BitVec.ofNat 32 (payloadOf (packedBits s text) (packedBits s text).length).length).toNat =
      1 + ceil8 (packedBits s text).length := by
    rw [length_payloadOf]
    exact Nat.mod_eq_of_lt (by omega)
  obtain ⟨bb, hunpack, hbits⟩ := execUnpack_payloadOf (bits := packedBits s text)
    (u := ((s.writePayload (payloadOf (packedBits s text) (packedBits s text).length)).succeed).accept
      (encode .unpack))
    (Cells.holds_poke_zero _ _) hlen hfit
  refine ⟨_, hunpack, rfl, rfl, Nat.mod_eq_of_lt ?_, hbits⟩
  rw [ceil8] at hbytes
  omega

end Sys2Proof.Machine
end

section
/-! PROOFS. DECODE (44_tree_decoder.md R176 to R183): the walk along the bits of paths to leaves, and how the command
ends without a tree, on a single leaf and on an internal root. -/

namespace Sys2Proof.Machine

/-! ### The bits the walk reads (10_state.md R41) -/

theorem bitsFrom_cons_iff {s : State} {i : Nat} {b : Bool} {bs : List Bool} :
    bitsFrom s i (b :: bs) ↔ readBit s i = .ok b ∧ bitsFrom s (i + 1) bs := by
  refine ⟨fun h => ⟨?_, fun j hj => ?_⟩, fun ⟨hb, h⟩ => bitsFrom_cons hb h⟩
  · have hfirst : storedBit s.bitbuf i = some b := h 0 (by simp)
    exact (readBit_ok_iff ..).2 (Option.map_eq_some_iff.1 hfirst)
  · have hnext := h (j + 1) (by simpa using hj)
    rwa [List.getElem?_cons_succ, ← Nat.add_assoc, Nat.add_right_comm] at hnext

theorem bitsFrom_append_iff {s : State} {i : Nat} {p q : List Bool} :
    bitsFrom s i (p ++ q) ↔ bitsFrom s i p ∧ bitsFrom s (i + p.length) q := by
  induction p generalizing i with
  | nil => simp [bitsFrom]
  | cons b p ih =>
    rw [List.cons_append, bitsFrom_cons_iff, bitsFrom_cons_iff, ih, List.length_cons, and_assoc,
      show i + 1 + p.length = i + (p.length + 1) by omega]

/-! ### One descent of the walk (44_tree_decoder.md R176, R178) -/

/-- The subtree below a vertex that the walk descends to on a bit: left on 0, right on 1. -/
def CodeTree.child (l r : CodeTree) (b : Bool) : CodeTree := if b then r else l

theorem CodeTree.descend_inner_cons {n : Nat} {l r : CodeTree} {b : Bool} {p : List Bool} :
    (CodeTree.inner n l r).descend (b :: p) = (CodeTree.child l r b).descend p := by
  cases b <;> rfl

theorem CodeTree.child_storedIn {s : State} {n : Nat} {l r : CodeTree} (h : (CodeTree.inner n l r).storedIn s)
    (b : Bool) : (CodeTree.child l r b).storedIn s := by
  obtain ⟨_, _, hl, hr⟩ := h
  cases b
  · exact hl
  · exact hr

/-- Only the empty path descends from a leaf, so a descent to an inner vertex begins at one. -/
theorem CodeTree.isInner_of_descend {T sub : CodeTree} {p : List Bool} (h : T.descend p = some sub)
    (hsub : sub.isInner = true) : T.isInner = true := by
  cases T with
  | inner n l r => rfl
  | leaf n sym =>
    cases p with
    | nil => cases h; exact hsub
    | cons b p => cases h

theorem CodeTree.index_mem_indices (T : CodeTree) : T.index ∈ T.indices := by
  cases T <;> simp [CodeTree.index, CodeTree.indices]

theorem CodeTree.mem_indices_of_descend {T sub : CodeTree} {p : List Bool} (h : T.descend p = some sub) :
    sub.index ∈ T.indices := by
  induction p generalizing T with
  | nil => rw [CodeTree.descend_nil] at h; cases h; exact CodeTree.index_mem_indices _
  | cons b p ih =>
    cases T with
    | leaf n sym => cases h
    | inner n l r =>
      rw [CodeTree.descend_inner_cons] at h
      have hmem := ih h
      cases b
      · exact List.mem_cons_of_mem _ (List.mem_append_left _ hmem)
      · exact List.mem_cons_of_mem _ (List.mem_append_right _ hmem)

/-- No descent comes back to the vertex it began at (40_tree_builder.md R119). -/
theorem CodeTree.descend_index_ne {T sub : CodeTree} {p : List Bool} (hn : T.indices.Nodup) (hp : p ≠ [])
    (h : T.descend p = some sub) : sub.index ≠ T.index := by
  obtain ⟨b, p, rfl⟩ := List.exists_cons_of_ne_nil hp
  cases T with
  | leaf n sym => cases h
  | inner n l r =>
    obtain ⟨hroot, _⟩ := List.nodup_cons.1 hn
    rw [CodeTree.descend_inner_cons] at h
    have hmem := CodeTree.mem_indices_of_descend h
    rintro rfl
    cases b
    · exact hroot (List.mem_append_left _ hmem)
    · exact hroot (List.mem_append_right _ hmem)

section Walk
variable {s : State} (hc : s.treeCount.toNat ≤ Config.maxNodes)
include hc

/-- The walk at an inner vertex, one bit further: it reads the child's word. -/
theorem decodeWalk_inner {n i left k : Nat} {l r : CodeTree} {b : Bool} (hs : (CodeTree.inner n l r).storedIn s)
    (hb : readBit s i = .ok b) (hin : (CodeTree.child l r b).isInner = true) :
    decodeWalk s (left + 1) i n k = decodeWalk s left (i + 1) (CodeTree.child l r b).index k := by
  obtain ⟨w, hw, hl, hr⟩ := readNode_inner hc hs
  obtain ⟨y, hy, hleaf⟩ := readNode_stored hc (CodeTree.child_storedIn hs b)
  have hchild : (if b then rightField w else leftField w) = (CodeTree.child l r b).index := by
    cases b
    · exact hl
    · exact hr
  simp [decodeWalk, hw, hb, hchild, hy, hleaf, hin]

/-- The walk at an inner vertex whose child is a leaf: it emits the leaf's symbol and goes back to the root, unless
OUT_CAP symbols have been emitted (44_tree_decoder.md R176). -/
theorem decodeWalk_leaf {n i left k m : Nat} {l r : CodeTree} {b : Bool} {sym : Byte}
    (hs : (CodeTree.inner n l r).storedIn s) (hb : readBit s i = .ok b) (hleaf : CodeTree.child l r b = .leaf m sym) :
    decodeWalk s (left + 1) i n k =
      if k = Config.outCap then .error (.raiseWalk .outOverflow (BitVec.ofNat 32 i))
      else (decodeWalk s left (i + 1) s.root.toNat (k + 1)).map (sym :: ·) := by
  obtain ⟨w, hw, hl, hr⟩ := readNode_inner hc hs
  have hstored := CodeTree.child_storedIn hs b
  rw [hleaf] at hstored
  have hchild : (if b then rightField w else leftField w) = m := by
    have hindex : (CodeTree.child l r b).index = m := by rw [hleaf]; rfl
    cases b
    · exact hl.trans hindex
    · exact hr.trans hindex
  have hy : readNode s m = .ok (leafWord sym) := (element_ok_iff ..).2 hstored.2
  simp only [decodeWalk, hw, hb, hchild, hy, isLeafWord_leafWord, symField_leafWord, if_true]
  split
  · rfl
  · cases decodeWalk s left (i + 1) s.root.toNat (k + 1) <;> rfl

/-! ### The walk along whole paths (44_tree_decoder.md R178, R183) -/

/-- Along bits that descend to an inner vertex the walk emits nothing. -/
theorem decodeWalk_descend {T sub : CodeTree} {p : List Bool} {left i k : Nat} (hs : T.storedIn s)
    (hp : T.descend p = some sub) (hin : sub.isInner = true) (hbits : bitsFrom s i p) :
    decodeWalk s (p.length + left) i T.index k = decodeWalk s left (i + p.length) sub.index k := by
  induction p generalizing T i with
  | nil => rw [CodeTree.descend_nil] at hp; cases hp; simp
  | cons b p ih =>
    cases T with
    | leaf n sym => cases hp
    | inner n l r =>
      rw [CodeTree.descend_inner_cons] at hp
      obtain ⟨hb, hrest⟩ := bitsFrom_cons_iff.1 hbits
      have hlen : (b :: p).length + left = p.length + left + 1 := by simp only [List.length_cons]; omega
      rw [hlen, CodeTree.index, decodeWalk_inner hc hs hb (CodeTree.isInner_of_descend hp hin),
        ih (CodeTree.child_storedIn hs b) hp hrest, List.length_cons,
        show i + 1 + p.length = i + (p.length + 1) by omega]

/-- Along a path to a leaf the walk emits the leaf's symbol with the last bit, unless OUT_CAP symbols have been
emitted. -/
theorem decodeWalk_leadsTo {T : CodeTree} {p : List Bool} {sym : Byte} {left i k : Nat} (hs : T.storedIn s)
    (hT : T.isInner = true) (hp : T.leadsTo p sym) (hbits : bitsFrom s i p) :
    decodeWalk s (p.length + left) i T.index k =
      if k = Config.outCap then .error (.raiseWalk .outOverflow (BitVec.ofNat 32 (i + p.length - 1)))
      else (decodeWalk s left (i + p.length) s.root.toNat (k + 1)).map (sym :: ·) := by
  induction p generalizing T i with
  | nil =>
    cases T with
    | leaf n sym' => cases hT
    | inner n l r => exact absurd hp CodeTree.leadsTo_inner_nil
  | cons b p ih =>
    cases T with
    | leaf n sym' => cases hT
    | inner n l r =>
      have hp' : (CodeTree.child l r b).leadsTo p sym := CodeTree.leadsTo_inner_cons.1 hp
      obtain ⟨hb, hrest⟩ := bitsFrom_cons_iff.1 hbits
      cases hchild : CodeTree.child l r b with
      | leaf m sym' =>
        rw [hchild] at hp'
        obtain ⟨rfl, rfl⟩ := CodeTree.leadsTo_leaf.1 hp'
        rw [show [b].length + left = left + 1 from Nat.add_comm .., CodeTree.index, decodeWalk_leaf hc hs hb hchild]
        rfl
      | inner m l' r' =>
        have hin : (CodeTree.child l r b).isInner = true := by rw [hchild]; rfl
        have hlen : (b :: p).length + left = p.length + left + 1 := by simp only [List.length_cons]; omega
        rw [hlen, CodeTree.index, decodeWalk_inner hc hs hb hin, ih (CodeTree.child_storedIn hs b) hin hp' hrest,
          List.length_cons, show i + 1 + p.length = i + (p.length + 1) by omega]

/-- Along the concatenation of paths to leaves, no more than OUT_CAP in all, the walk emits the leaves' symbols in
order and is back at the root. -/
theorem decodeWalk_steps {T : CodeTree} (hs : T.storedIn s) (hT : T.isInner = true) (hroot : T.index = s.root.toNat)
    {steps : List (Byte × List Bool)} {left i k : Nat} (hsteps : ∀ p ∈ steps, T.leadsTo p.2 p.1)
    (hbits : bitsFrom s i (steps.flatMap (fun p => p.2))) (hk : k + steps.length ≤ Config.outCap) :
    decodeWalk s ((steps.flatMap (fun p => p.2)).length + left) i T.index k =
      (decodeWalk s left (i + (steps.flatMap (fun p => p.2)).length) T.index (k + steps.length)).map
        (steps.map (fun p => p.1) ++ ·) := by
  induction steps generalizing i k with
  | nil =>
    simp only [List.flatMap_nil, List.length_nil, Nat.zero_add, Nat.add_zero, List.map_nil, List.nil_append]
    cases decodeWalk s left i T.index k <;> rfl
  | cons p steps ih =>
    obtain ⟨hp, hrest⟩ := List.forall_mem_cons.1 hsteps
    rw [List.flatMap_cons, bitsFrom_append_iff] at hbits
    obtain ⟨hfirst, hbits⟩ := hbits
    rw [List.length_cons] at hk
    rw [List.flatMap_cons, List.length_append, Nat.add_assoc, decodeWalk_leadsTo hc hs hT hp hfirst,
      if_neg (by omega), ← hroot, ih hrest hbits (by omega), List.length_cons, Nat.add_assoc i,
      show k + 1 + steps.length = k + (steps.length + 1) by omega]
    cases decodeWalk s left _ T.index _ <;> rfl

end Walk

/-! ### DECODE's run by the kind of tree (44_tree_decoder.md R176) -/

theorem TreeHeld.treeCount_ne_zero {s : State} {T : CodeTree} (h : TreeHeld s T) : s.treeCount ≠ 0 := by
  intro hzero
  have hlt := CodeTree.storedIn_index_lt h.stored
  rw [hzero] at hlt
  exact absurd hlt (Nat.not_lt_zero _)

theorem TreeHeld.decodeRun_leaf {s : State} {i : Nat} {sym : Byte} (h : TreeHeld s (.leaf i sym))
    (hcap : s.bitLen.toNat ≤ Config.bitCap) : decodeRun s = decodeSingle s sym := by
  have hread : readNode s s.root.toNat = .ok (leafWord sym) := by
    rw [← h.root_eq]
    exact (element_ok_iff ..).2 h.stored.2
  simp only [decodeRun, if_neg (Nat.not_lt.2 hcap), if_neg h.treeCount_ne_zero,
    (treeWFAcceptsExactlyTheStrictTrees s _).2 h, hread, isLeafWord_leafWord, symField_leafWord, if_true]

theorem TreeHeld.decodeRun_inner {s : State} {T : CodeTree} (h : TreeHeld s T) (hT : T.isInner = true)
    (hcap : s.bitLen.toNat ≤ Config.bitCap) :
    decodeRun s = (decodeWalk s s.bitLen.toNat 0 T.index 0).map (fun text => s.writeText text) := by
  obtain ⟨w, hread, hleaf⟩ := readNode_stored h.count_le h.stored
  rw [hT] at hleaf
  rw [h.root_eq] at hread ⊢
  simp only [decodeRun, if_neg (Nat.not_lt.2 hcap), if_neg h.treeCount_ne_zero,
    (treeWFAcceptsExactlyTheStrictTrees s _).2 h, hread, hleaf]
  cases decodeWalk s s.bitLen.toNat 0 s.root.toNat 0 <;> rfl

/-- DECODE's success changes BUSY, DONE, TEXT_OUT and OUT_LEN only (44_tree_decoder.md R180, 45_control.md R193). -/
theorem writeText_succeed_frame (s : State) (text : List Byte) :
    (s.writeText text).succeed =
      { s with
        busy := false
        done := true
        textOut := Cells.poke s.textOut 0 text
        outLen := BitVec.ofNat 32 text.length } := rfl

/-! ### The statements on DECODE -/

/-- Settles O48: the checks before the tree is read, in their order. -/
theorem decodeWithoutATree : Obligations.DecodeWithoutATree := by
  intro s
  refine ⟨fun htree hbits => ?_, fun htree hbits hcap => ?_, fun hover => ?_⟩
  · have hcap : ¬Config.bitCap < s.bitLen.toNat := by rw [hbits]; decide
    rw [exec_eq, runOf, decodeRun, if_neg hcap, if_pos htree, if_pos hbits, endCommand_ok, writeText_succeed_frame,
      Cells.poke_zero_nil]
    rfl
  · rw [exec_eq, runOf, decodeRun, if_neg (Nat.not_lt.2 hcap), if_pos htree, if_neg hbits, endCommand_raise]
    rfl
  · rw [exec_eq, runOf, decodeRun, if_pos hover, endCommand_raise]
    rfl

/-- Settles O49: the single leaf is emitted as often as NODE_FREQ at ROOT says. -/
theorem decodeOfASingleLeaf : Obligations.DecodeOfASingleLeaf := by
  intro s i sym h
  refine ⟨fun hbits hcap => ?_, fun c hbits hfreq => ?_⟩
  · rw [exec_eq, runOf, h.decodeRun_leaf hcap, decodeSingle, if_pos hbits, endCommand_raise]
    rfl
  have hcap : s.bitLen.toNat ≤ Config.bitCap := by rw [hbits]; decide
  have hread : readNodeFreq s s.root.toNat = .ok c := by
    rw [← h.root_eq]
    exact (element_ok_iff ..).2 hfreq
  refine ⟨fun hover => ?_, fun hfit => ⟨Cells.poke s.textOut 0 (List.replicate c.toNat sym), ?_, fun k hk => ?_,
    fun k hk => ?_⟩⟩
  · rw [exec_eq, runOf, h.decodeRun_leaf hcap, decodeSingle, if_neg (not_not.2 hbits), hread]
    simp only [if_pos hover, endCommand_raise]
    rfl
  · rw [exec_eq, runOf, h.decodeRun_leaf hcap, decodeSingle, if_neg (not_not.2 hbits), hread]
    simp only [if_neg (Nat.not_lt.2 hfit), endCommand_ok, writeText_succeed_frame, List.length_replicate,
      BitVec.ofNat_toNat, BitVec.setWidth_eq]
  · exact Cells.peek_poke_zero_some _ (by rw [List.getElem?_replicate, if_pos hk])
  · exact Cells.peek_poke_outside _ _ _ _ (.inr (by simpa using hk))

/-- Settles O50: the walk along the paths ends at the root with the bits used up. -/
theorem decodeEmitsTheLeavesOfThePaths : Obligations.DecodeEmitsTheLeavesOfThePaths := by
  rintro s T steps _ h hT hsteps rfl hlen hcap hbits hfit
  have hwalk := decodeWalk_steps h.count_le h.stored hT h.root_eq (left := 0) (i := 0) (k := 0) hsteps
    (fun j hj => by rw [Nat.zero_add]; exact hbits j hj) (by rwa [Nat.zero_add])
  rw [Nat.add_zero, ← hlen, decodeWalk, if_pos h.root_eq] at hwalk
  refine ⟨Cells.poke s.textOut 0 (steps.map (fun p => p.1)), ?_, Cells.holds_poke_zero _ _, fun k hk =>
    Cells.peek_poke_outside _ _ _ _ (.inr (by simpa using hk))⟩
  rw [exec_eq, runOf, h.decodeRun_inner hT (hlen ▸ hcap), hwalk]
  simp [Except.map, writeText_succeed_frame]

/-- Settles O51: after the paths the walk stands at the root with the rest of the bits: a descent that ends elsewhere,
or one path too many. -/
theorem decodeWalkErrors : Obligations.DecodeWalkErrors := by
  intro s T steps bits h hT hsteps hcap hbits
  have hfrom : bitsFrom s 0 bits := fun j hj => by rw [Nat.zero_add]; exact hbits j hj
  constructor
  · rintro tail sub rfl hlen hfit htail hsub hin
    obtain ⟨hpaths, hrest⟩ := bitsFrom_append_iff.1 hfrom
    have haway : sub.index ≠ s.root.toNat := h.root_eq ▸ CodeTree.descend_index_ne h.indices_nodup htail hsub
    rw [exec_eq, runOf, h.decodeRun_inner hT hcap, hlen, List.length_append,
      decodeWalk_steps h.count_le h.stored hT h.root_eq hsteps hpaths (by rwa [Nat.zero_add]),
      ← Nat.add_zero tail.length, decodeWalk_descend h.count_le h.stored hsub hin hrest, decodeWalk, if_neg haway]
    rfl
  · rintro rfl hlen hcount
    obtain ⟨paths, last, rfl⟩ := (List.eq_nil_or_concat' steps).resolve_left (by rintro rfl; cases hcount)
    obtain ⟨hsteps, hlast⟩ := List.forall_mem_append.1 hsteps
    have hlead := hlast last (by simp)
    have hfull : paths.length = Config.outCap := by simpa using hcount
    rw [List.flatMap_append, List.flatMap_singleton] at hfrom hlen ⊢
    obtain ⟨hpaths, hrest⟩ := bitsFrom_append_iff.1 hfrom
    rw [List.length_append] at hlen ⊢
    obtain ⟨left, hleft⟩ := Nat.exists_eq_add_of_le hlen
    rw [exec_eq, runOf, h.decodeRun_inner hT hcap, hleft, Nat.add_assoc,
      decodeWalk_steps h.count_le h.stored hT h.root_eq hsteps hpaths (by rw [Nat.zero_add, hfull]),
      decodeWalk_leadsTo h.count_le h.stored hT hlead hrest, if_pos (by rw [Nat.zero_add, hfull]), Nat.zero_add]
    rfl

end Sys2Proof.Machine
end

section
/-! PROOFS. The round trip (44_tree_decoder.md R184): what BUILD, GEN and PACK leave for a text with its counts in FREQ,
and what UNPACK and DECODE make of it in any state that holds it. -/

namespace Sys2Proof.Machine

/-! ### The counts of a text (00_scope.md R5) -/

/-- The frequency table of a text: how often each symbol occurs. -/
def textFreq (text : List Byte) (i : Nat) : Word := BitVec.ofNat 32 (text.count (BitVec.ofNat 8 i))

theorem toNat_textFreq {text : List Byte} (hlen : text.length ≤ Config.textCap) (i : Nat) :
    (textFreq text i).toNat = text.count (BitVec.ofNat 8 i) := by
  have hle : text.length ≤ 16384 := hlen
  have hcount := List.count_le_length (a := BitVec.ofNat 8 i) (l := text)
  exact Nat.mod_eq_of_lt (by omega)

theorem textFreq_ne_zero {text : List Byte} (hlen : text.length ≤ Config.textCap) {c : Byte} (hc : c ∈ text) :
    textFreq text c.toNat ≠ 0 := by
  intro hzero
  have hcount := toNat_textFreq hlen c.toNat
  rw [hzero, BitVec.ofNat_toNat, BitVec.setWidth_eq] at hcount
  exact (List.count_pos_iff.2 hc).ne hcount

theorem presentSymbols_textFreq_ne_nil {text : List Byte} (hlen : text.length ≤ Config.textCap) (hne : text ≠ []) :
    presentSymbols (textFreq text) ≠ [] := by
  obtain ⟨c, rest, rfl⟩ := List.exists_cons_of_ne_nil hne
  exact List.ne_nil_of_mem ((mem_presentSymbols _ c.toNat).2 ⟨c.isLt, textFreq_ne_zero hlen (by simp)⟩)

theorem nodup_ofNat_bytes : ((List.range Config.nsym).map (BitVec.ofNat 8)).Nodup := by
  refine List.Nodup.map_on (fun i hi j hj hij => ?_) List.nodup_range
  rw [List.mem_range] at hi hj
  have := congrArg BitVec.toNat hij
  rwa [BitVec.toNat_ofNat, BitVec.toNat_ofNat, Nat.mod_eq_of_lt hi, Nat.mod_eq_of_lt hj] at this

/-- Every byte of the text is counted at one symbol. -/
theorem freqSum_textFreq {text : List Byte} (hlen : text.length ≤ Config.textCap) :
    freqSum (textFreq text) Config.nsym = text.length := by
  have hall : ∀ c ∈ (text : Multiset Byte), c ∈ ((List.range Config.nsym).map (BitVec.ofNat 8)).toFinset := by
    intro c _
    rw [List.mem_toFinset]
    exact List.mem_map.2 ⟨c.toNat, List.mem_range.2 c.isLt, by simp⟩
  calc freqSum (textFreq text) Config.nsym
      = (((List.range Config.nsym).map (BitVec.ofNat 8)).map (fun c => text.count c)).sum := by
        rw [freqSum, List.map_map]
        exact congrArg List.sum (List.map_congr_left fun i _ => toNat_textFreq hlen i)
    _ = ∑ c ∈ ((List.range Config.nsym).map (BitVec.ofNat 8)).toFinset, (text : Multiset Byte).count c := by
        rw [← List.sum_toFinset _ nodup_ofNat_bytes]
        simp only [Multiset.coe_count]
    _ = text.length := Multiset.sum_count_eq_card hall

/-! ### BUILD and GEN on a text (40_tree_builder.md R116, R120, 41_code_gen.md R131) -/

/-- BUILD on the counts of a text leaves a strict tree with all its symbols, and at ROOT the text's length. -/
theorem TextGiven.execBuild {s : State} {text : List Byte} (h : TextGiven s text) (hne : text ≠ [])
    (hf : FreqGiven s (textFreq text)) :
    ∃ t T, exec .build s = .next t ∧ t.done = true ∧ t.err = s.err ∧ TextGiven t text ∧ TreeHeld t T ∧
      (∀ c ∈ text, c ∈ T.symbols) ∧ t.nodeFreq.peek t.root.toNat = some (BitVec.ofNat 32 text.length) := by
  have hsum := freqSum_textFreq h.length_le
  have hcap : text.length ≤ 16384 := h.length_le
  obtain ⟨nd, nf, hexec, _⟩ :=
    buildResult s _ hf (presentSymbols_textFreq_ne_nil h.length_le hne) (by rw [hsum]; omega)
  have hbuilt := execBuild_built hf hexec rfl
  obtain ⟨T, _, htree, _, hsymbols⟩ := builtTreePassesTreeWF s _ _ hf hexec rfl
  refine ⟨_, T, hexec, rfl, rfl, ⟨h.length_eq, h.length_le, h.held⟩, htree,
    fun c hc => (hsymbols c).2 (textFreq_ne_zero h.length_le hc), ?_⟩
  rw [hbuilt.root_toNat, hbuilt.peek_root_freq, presentLeaves_total, hsum]

theorem TreeHeld.of_same_nodes {s u : State} {T : CodeTree} (h : TreeHeld s T) (hcount : u.treeCount = s.treeCount)
    (hroot : u.root = s.root) (hnode : ∀ i, i < s.treeCount.toNat → u.node.peek i = s.node.peek i) :
    TreeHeld u T where
  count_le := hcount ▸ h.count_le
  root_eq := hroot ▸ h.root_eq
  stored := CodeTree.storedIn_congr h.stored hcount fun i hi => hnode i (CodeTree.storedIn_indices_lt h.stored i hi)
  indices_nodup := h.indices_nodup
  symbols_nodup := h.symbols_nodup

/-- After GEN every symbol of the tree has a code, the path to its leaf (41_code_gen.md R132). -/
theorem TreeHeld.leadsTo_codeBits {s : State} {T : CodeTree} (h : TreeHeld s T) {c : Byte} (hc : c ∈ T.symbols)
    (u : State) : (codeEntry (u.writeCodes (T.codes [])) c).valid = true ∧
      T.leadsTo (codeBits (u.writeCodes (T.codes [])) c) c := by
  cases hp : codeFor (T.codes []) c with
  | none => exact absurd hc (by rw [← CodeTree.codes_symbols T []]; exact codeFor_eq_none_iff.1 hp)
  | some p =>
    refine ⟨codeEntry_writeCodes_valid.2 ⟨p, hp⟩, ?_⟩
    rw [codeBits_writeCodes h.codes_length, hp]
    exact (CodeTree.codeFor_codes_iff h.symbols_nodup).1 hp

/-! ### A text in the container (20_memory.md R78) -/

/-- The container of `s` holds `text`, packed by the paths `code` of the tree `T`. -/
structure ContainerHolds (s : State) (T : CodeTree) (code : Byte → List Bool) (text : List Byte) : Prop where
  tree : TreeHeld s T
  leadsTo : ∀ c ∈ text, T.leadsTo (code c) c
  rootFreq : s.nodeFreq.peek s.root.toNat = some (BitVec.ofNat 32 text.length)
  length_le : text.length ≤ Config.outCap
  fits : 1 + ceil8 (text.flatMap code).length ≤ Config.payloadCap
  payloadLen : s.payloadLen.toNat = 1 + ceil8 (text.flatMap code).length
  payload : Cells.holds s.payload 0 (payloadOf (text.flatMap code) (text.flatMap code).length)

theorem ContainerHolds.of_sameContainer {s u : State} {T : CodeTree} {code : Byte → List Bool} {text : List Byte}
    (h : ContainerHolds s T code text) (hu : SameContainer s u) : ContainerHolds u T code text where
  tree := h.tree.of_same_nodes hu.treeCount_eq hu.root_eq hu.node_eq
  leadsTo := h.leadsTo
  rootFreq := by
    have hroot : s.root.toNat < s.treeCount.toNat := h.tree.root_eq ▸ CodeTree.storedIn_index_lt h.tree.stored
    rw [hu.root_eq, hu.nodeFreq_eq _ hroot, h.rootFreq]
  length_le := h.length_le
  fits := h.fits
  payloadLen := by rw [hu.payloadLen_eq, h.payloadLen]
  payload := fun k hk => by
    have hin : 0 + k < s.payloadLen.toNat := by rwa [Nat.zero_add, h.payloadLen, ← length_payloadOf]
    rw [hu.payload_eq _ hin, h.payload k hk]

/-- PACK with the codes of a tree leaves the text in the container, or raises PAYLOAD_OVERFLOW. -/
theorem TreeHeld.execPack {s : State} {T : CodeTree} {text : List Byte} (h : TreeHeld s T) (ht : TextGiven s text)
    (hcoded : TextCoded s text) (hleads : ∀ c ∈ text, T.leadsTo (codeBits s c) c)
    (hfreq : s.nodeFreq.peek s.root.toNat = some (BitVec.ofNat 32 text.length)) :
    ∃ t, exec .pack s = .next t ∧ (t.done = true ∨ t.err = true ∧ t.errCode = 6) ∧
      (t.done = true → ContainerHolds t T (codeBits s) text) := by
  rcases Nat.lt_or_ge Config.payloadCap (1 + ceil8 (packedBits s text).length) with hover | hfit
  · rw [length_packedBits] at hover
    exact ⟨_, ht.execPack_overflow hcoded.valid hover, .inr ⟨rfl, rfl⟩, fun hd => by cases hd⟩
  · refine ⟨_, ht.execPack hcoded hfit, .inl rfl, fun _ =>
      { tree := h.of_same_nodes rfl rfl fun _ _ => rfl
        leadsTo := hleads
        rootFreq := hfreq
        length_le := ht.length_le
        fits := hfit
        payloadLen := ?_
        payload := Cells.holds_poke_zero _ _ }⟩
    have hbytes : 1 + ceil8 (packedBits s text).length ≤ 16384 := hfit
    rw [State.succeed_payloadLen, State.writePayload_payloadLen, length_payloadOf, BitVec.toNat_ofNat]
    exact Nat.mod_eq_of_lt (by omega)

/-! ### UNPACK and DECODE of a container (44_tree_decoder.md R183, R184) -/

/-- DECODE of the paths of a text's symbols gives the text, whether they are read from the bits or, below a single
leaf, from the count at ROOT. -/
theorem TreeHeld.execDecode_text {s : State} {T : CodeTree} {code : Byte → List Bool} {text : List Byte}
    (h : TreeHeld s T) (hleads : ∀ c ∈ text, T.leadsTo (code c) c) (hlen : text.length ≤ Config.outCap)
    (hfreq : s.nodeFreq.peek s.root.toNat = some (BitVec.ofNat 32 text.length))
    (hbitLen : s.bitLen.toNat = (text.flatMap code).length) (hcap : (text.flatMap code).length ≤ Config.bitCap)
    (hbits : ∀ i, i < (text.flatMap code).length → storedBit s.bitbuf i = (text.flatMap code)[i]?) :
    ∃ out, exec .decode s = .next
        { s with busy := false, done := true, textOut := out, outLen := BitVec.ofNat 32 text.length } ∧
      Cells.holds out 0 text := by
  cases hT : T.isInner with
  | true =>
    obtain ⟨out, hexec, hout, _⟩ := decodeEmitsTheLeavesOfThePaths s T (text.map (fun c => (c, code c)))
      (text.flatMap code) h hT (List.forall_mem_map.2 hleads) (by rw [List.flatMap_map]) hbitLen hcap hbits
      (by simpa using hlen)
    exact ⟨out, by simpa using hexec, by simpa [Function.comp_def] using hout⟩
  | false =>
    cases T with
    | inner n l r => cases hT
    | leaf n sym =>
      have hempty : text.flatMap code = [] :=
        List.flatMap_eq_nil_iff.2 fun c hc => (CodeTree.leadsTo_leaf.1 (hleads c hc)).1
      have hzero : s.bitLen = 0 := BitVec.eq_of_toNat_eq (by rw [hbitLen, hempty]; rfl)
      have hcount : (BitVec.ofNat 32 text.length).toNat = text.length := by
        have : text.length ≤ 16384 := hlen
        exact Nat.mod_eq_of_lt (by omega)
      rw [← h.root_eq] at hfreq
      obtain ⟨out, hexec, hout, _⟩ := ((decodeOfASingleLeaf s n sym h).2 _ hzero hfreq).2 (by rwa [hcount])
      refine ⟨out, hexec, fun k hk => ?_⟩
      rw [Nat.zero_add, hout k (by rwa [hcount]), List.getElem?_eq_getElem hk,
        (CodeTree.leadsTo_leaf.1 (hleads _ (List.getElem_mem hk))).2]

/-- UNPACK and DECODE, each accepted in turn, give back the text the container holds. -/
theorem ContainerHolds.decompress {u : State} {T : CodeTree} {code : Byte → List Bool} {text : List Byte}
    (h : ContainerHolds u T code text) :
    ∃ s₄ s₅, exec .unpack (u.accept (encode .unpack)) = .next s₄ ∧ s₄.done = true ∧ s₄.err = false ∧
      exec .decode (s₄.accept (encode .decode)) = .next s₅ ∧ s₅.done = true ∧ s₅.err = false ∧
      s₅.outLen.toNat = text.length ∧ Cells.holds s₅.textOut 0 text := by
  obtain ⟨bb, hunpack, hbits⟩ :=
    execUnpack_payloadOf (u := u.accept (encode .unpack)) h.payload h.payloadLen h.fits
  have hbytes : 1 + ceil8 (text.flatMap code).length ≤ 16384 := h.fits
  have hlen : text.length ≤ 16384 := h.length_le
  have hcap : (text.flatMap code).length ≤ 131072 := by rw [ceil8] at hbytes; omega
  obtain ⟨out, hdecode, hout⟩ := TreeHeld.execDecode_text
    (s := { u.accept (encode .unpack) with
      busy := false, done := true, bitbuf := bb
      bitLen := BitVec.ofNat 32 (text.flatMap code).length }.accept (encode .decode))
    (h.tree.of_same_nodes rfl rfl fun _ _ => rfl) h.leadsTo h.length_le h.rootFreq
    (Nat.mod_eq_of_lt (by omega)) hcap hbits
  exact ⟨_, _, hunpack, rfl, rfl, hdecode, rfl, rfl, Nat.mod_eq_of_lt (by omega), hout⟩

/-- Settles O52: BUILD leaves a tree of the text's symbols, GEN gives each its path, PACK leaves the container, and
any state that holds it is decompressed to the text. -/
theorem roundTrip : Obligations.RoundTrip := by
  intro s text hne htext hfreq
  obtain ⟨s₁, T, hbuild, hd₁, he₁, ht₁, htree₁, hsymbols, hroot⟩ :=
    TextGiven.execBuild (s := s.accept (encode .build)) ⟨htext.length_eq, htext.length_le, htext.held⟩ hne hfreq
  have htree : TreeHeld (s₁.accept (encode .gen)) T := htree₁.of_same_nodes rfl rfl fun _ _ => rfl
  have hcodes := fun c hc => htree.leadsTo_codeBits (hsymbols c hc) (s₁.accept (encode .gen))
  obtain ⟨s₃, hpack, hend, hholds⟩ := TreeHeld.execPack
    (s := ((s₁.accept (encode .gen)).writeCodes (T.codes [])).succeed.accept (encode .pack))
    (htree.of_same_nodes rfl rfl fun _ _ => rfl) ⟨ht₁.length_eq, ht₁.length_le, ht₁.held⟩
    ⟨fun c hc => (hcodes c hc).1, fun himg => by cases himg⟩ (fun c hc => (hcodes c hc).2) hroot
  exact ⟨s₁, _, s₃, hbuild, hd₁, he₁, htree.execGen, rfl, rfl, hpack, hend,
    fun hd u hu => ((hholds hd).of_sameContainer hu).decompress⟩

end Sys2Proof.Machine
end

section
/-! PROOFS. The engine (45_control.md R190 to R195): its turns by the head of the schedule, the acceptance of a command,
the ends of NOP and of an illegal word, and when BUSY changes. -/

namespace Sys2Proof.Machine

/-! ### The engine's turn by the head of the schedule (45_control.md R192, log 1, log 8) -/

theorem engineTurn_busy {s : State} (hbusy : s.busy = true) : engineTurn s = runCommand s := if_pos hbusy

theorem engineTurn_idle {s : State} (hidle : s.busy = false) : engineTurn s = .next s := by
  rw [engineTurn, hidle, if_neg Bool.false_ne_true]

theorem runCommand_of_decode {s : State} {i : Instr} (h : decode s.cmd = .ok i) : runCommand s = exec i s := by
  rw [runCommand, h]

theorem runCommand_of_illegal {s : State} (h : rsvField s.cmd ≠ 0 ∨ 6 ≤ opField s.cmd) :
    runCommand s = .next (s.raise .illegalCmd s.cmd) := by
  obtain ⟨r, hr⟩ := (decode_illegal_iff s.cmd).2 h
  rw [runCommand, hr]
  rfl

theorem hostRead_idle {s : State} (hidle : s.busy = false) (off : Offset) :
    hostRead s off = s.respond { busError := false, data := memRead s off } := by
  rw [hostRead, hidle, Bool.false_and, if_neg Bool.false_ne_true]

section Turn
variable {s : State} {rest : List Input}

theorem step_nothing_left (hin : s.inputs = []) : step s = engineTurn s := by
  rw [step, nextEvent, hin]

theorem step_engine (hin : s.inputs = .engine :: rest) : step s = engineTurn (s.withInputs rest) := by
  rw [step, nextEvent, hin]

theorem step_poll_busy (hin : s.inputs = .poll :: rest) (hbusy : s.busy = true) : step s = runCommand s := by
  rw [step, nextEvent, hin]
  exact if_pos hbusy

/-- While idle a POLL is one host read of STATUS. -/
theorem step_poll_idle (hin : s.inputs = .poll :: rest) (hidle : s.busy = false) :
    step s = .next
      { s with inputs := rest, responses := { busError := false, data := s.statusWord } :: s.responses } := by
  have hread : hostRead (s.withInputs rest) statusOffset =
      (s.withInputs rest).respond { busError := false, data := s.statusWord } :=
    hostRead_idle (s := s.withInputs rest) hidle statusOffset
  rw [step, nextEvent, hin]
  exact (if_neg (Bool.eq_false_iff.1 hidle)).trans (congrArg _ hread)

end Turn

/-- Settles O3: each of the three turns runs the command, and `decode` names it. -/
theorem stepRunsTheDecodedCommand : Obligations.StepRunsTheDecodedCommand := by
  intro s i hbusy hdecode _
  refine ⟨fun rest hin => ?_, fun hin => ?_, fun rest hin => ?_⟩
  · rw [step_engine hin]
    exact (engineTurn_busy (s := s.withInputs rest) hbusy).trans (runCommand_of_decode hdecode)
  · rw [step_nothing_left hin, engineTurn_busy hbusy, runCommand_of_decode hdecode]
  · rw [step_poll_busy hin hbusy, runCommand_of_decode hdecode]

/-- Settles O5: no command is decoded from such a word, and the turn ends with the error. -/
theorem illegalWordEndsWithIllegalCmd : Obligations.IllegalWordEndsWithIllegalCmd := by
  intro s rest hbusy hin hword
  rw [step_engine hin]
  exact (engineTurn_busy (s := s.withInputs rest) hbusy).trans (runCommand_of_illegal hword)

/-- Settles O57: an idle engine has nothing to do, and STATUS shows its flags with BUSY = 0. -/
theorem stepWhileIdle : Obligations.StepWhileIdle := by
  intro s hidle
  refine ⟨fun hin => ?_, fun rest hin => ?_, fun rest hin => ⟨s.statusWord, step_poll_idle hin hidle, ?_⟩⟩
  · rw [step_nothing_left hin, engineTurn_idle hidle]
  · rw [step_engine hin]
    exact engineTurn_idle (s := s.withInputs rest) hidle
  · rw [← hidle]
    exact statusWord_fields s

/-! ### Acceptance (45_control.md R191) and NOP (R195) -/

/-- Settles O6: the location at 0x004 is CMD, which an idle block accepts and a busy one does not. -/
theorem cmdWriteIsAcceptedWhenIdle : Obligations.CmdWriteIsAcceptedWhenIdle := by
  intro s v rest hin
  exact ⟨fun hidle => step_write_idle hin rfl hidle, fun hbusy => step_write_busy hin rfl hbusy⟩

/-- Settles O7: the write of the word 0 is accepted, and the engine's turn then runs NOP. -/
theorem nopIsAFullCommand : Obligations.NopIsAFullCommand := by
  refine ⟨fun s => rfl, fun s rest hidle hin => ?_⟩
  have haccept := (cmdWriteIsAcceptedWhenIdle s _ _ hin).1 hidle
  refine ⟨_, _, haccept, rfl, rfl, rfl, rfl, rfl,
    (stepRunsTheDecodedCommand _ .nop rfl (decode_encode .nop) rfl).1 rest rfl, ?_, rfl⟩
  simp [State.irq]

/-! ### When BUSY changes (45_control.md R190) -/

theorem memWrite_busy (s : State) {off : Offset} (v : Word) (hcmd : locate off ≠ .cmd) :
    (memWrite s off v).busy = s.busy := by
  cases hloc : locate off
  case cmd => exact absurd hloc hcmd
  all_goals simp only [memWrite, hloc, State.ackStatus_busy]

theorem busyWrite_busy (s : State) (off : Offset) (v : Word) : (busyWrite s off v).busy = s.busy := by
  unfold busyWrite
  split
  case h_2 hloc => exact memWrite_busy s v (by rw [hloc]; nofun)
  case h_3 hloc => exact memWrite_busy s v (by rw [hloc]; nofun)
  all_goals rfl

theorem hostRead_busy (s : State) (off : Offset) : (hostRead s off).busy = s.busy := by
  obtain ⟨_, _, h⟩ | h := hostRead_cases s off <;> rw [h] <;> rfl

/-- No host access ends a command. -/
theorem portAccess_busy_of_busy {s : State} (hbusy : s.busy = true) (op : PortOp) : (portAccess s op).busy = true := by
  obtain h | ⟨off, _, _, h⟩ | ⟨off, v, _, _, h⟩ := portAccess_cases s op <;> rw [h]
  · exact hbusy
  · rw [hostRead_busy, hbusy]
  · rw [hostWrite, if_pos hbusy, State.respond_busy, busyWrite_busy, hbusy]

/-- The only host access that starts a command is an aligned 32-bit write to CMD (45_control.md R191). -/
theorem portAccess_starts {s : State} {op : PortOp} (hidle : s.busy = false) (hstart : (portAccess s op).busy = true) :
    ∃ v, op = .write .bits32 0x004#17 v ∧ (portAccess s op).cmd = v := by
  have hwrite (off : Offset) (v : Word) :
      hostWrite s off v = (memWrite s off v).respond { busError := false, data := 0 } := by
    rw [hostWrite, hidle, if_neg Bool.false_ne_true]
  obtain h | ⟨off, _, _, h⟩ | ⟨off, v, hoff, rfl, h⟩ := portAccess_cases s op <;> rw [h] at hstart ⊢
  · rw [State.respond_busy, hidle] at hstart
    cases hstart
  · rw [hostRead_busy, hidle] at hstart
    cases hstart
  · rw [hwrite] at hstart ⊢
    by_cases hcmd : off = 0x004#17
    · subst hcmd
      exact ⟨v, rfl, rfl⟩
    · have hloc : locate off ≠ .cmd := locate_ne rfl hoff (Ne.symm hcmd) (by decide)
      rw [State.respond_busy, memWrite_busy s v hloc, hidle] at hstart
      cases hstart

/-- A command that ends has ended with DONE or with ERR. -/
theorem exec_done_or_err {i : Instr} {s t : State} (h : exec i s = .next t) : t.done = true ∨ t.err = true := by
  obtain ⟨s', _, rfl⟩ | ⟨e, info, rfl⟩ | ⟨_, e, info, rfl⟩ := exec_next h
  · exact .inl rfl
  · exact .inr rfl
  · exact .inr rfl

theorem runCommand_done_or_err {s t : State} (h : runCommand s = .next t) : t.done = true ∨ t.err = true := by
  obtain ⟨i, _, hrun⟩ | ⟨_, hrun⟩ := runCommand_cases s <;> rw [hrun] at h
  · exact exec_done_or_err h
  · cases h
    exact .inr rfl

/-- A step that starts a command is a host access that starts one. -/
theorem step_starts {s t : State} (h : step s = .next t) (hidle : s.busy = false) (hstart : t.busy = true) :
    ∃ v rest, s.inputs = .access (.write .bits32 0x004#17 v) :: rest ∧ t.cmd = v := by
  obtain ⟨hbusy, _⟩ | ⟨_, ⟨_, hs⟩ | ⟨rest, _, hs⟩ | ⟨rest, _, hs⟩⟩ | ⟨op, rest, hin, hs⟩ | ⟨rest, _, hs⟩ :=
    step_cases s
  · rw [hidle] at hbusy
    cases hbusy
  all_goals
    rw [hs] at h
    cases h
  · rw [hidle] at hstart
    cases hstart
  · rw [State.withInputs_busy, hidle] at hstart
    cases hstart
  · rw [hostRead_busy, State.withInputs_busy, hidle] at hstart
    cases hstart
  · obtain ⟨v, rfl, hcmd⟩ := portAccess_starts (s := s.withInputs rest) hidle hstart
    exact ⟨v, rest, hin, hcmd⟩
  · cases hstart

/-- A step that ends a command is reset or a turn of the engine. -/
theorem step_ends {s t : State} (h : step s = .next t) (hbusy : s.busy = true) (hend : t.busy = false) :
    (∃ rest, s.inputs = .reset :: rest) ∨
      (s.inputs = [] ∨ ∃ rest, s.inputs = .engine :: rest ∨ s.inputs = .poll :: rest) ∧
        (t.done = true ∨ t.err = true) := by
  obtain ⟨_, hturn, rest, hrun⟩ | ⟨rest, rfl⟩ | ⟨op, rest, rfl⟩ | ⟨rest, hin, _⟩ := step_next h
  · exact .inr ⟨hturn, runCommand_done_or_err hrun⟩
  · rw [State.withInputs_busy, hbusy] at hend
    cases hend
  · rw [portAccess_busy_of_busy (s := s.withInputs rest) hbusy op] at hend
    cases hend
  · exact .inl ⟨rest, hin⟩

/-- Settles O8: BUSY is set by acceptance alone, and cleared by the end of a command or by reset. -/
theorem engineLeavesIdleOnlyByAcceptance : Obligations.EngineLeavesIdleOnlyByAcceptance :=
  fun _ _ h => ⟨step_starts h, step_ends h⟩

/-! ### The flags a command ends with (45_control.md R193, 60_exceptions.md R210, R220) -/

theorem runOf_err {i : Instr} {s s' : State} (h : runOf i s = .ok s') : s'.err = s.err := by
  obtain ⟨_, rfl⟩ | ⟨_, _, _, _, rfl⟩ | ⟨_, _, _, rfl⟩ | ⟨_, _, _, rfl⟩ | ⟨_, _, _, _, rfl⟩ | ⟨_, _, _, rfl⟩ :=
    runOf_ok h <;> rfl

theorem exec_ie {i : Instr} {s t : State} (h : exec i s = .next t) : t.ie = s.ie := by
  obtain ⟨⟨_, _, _, hie, _⟩, _⟩ := commandsWriteOnlyTheirOwnResults i s t h
  exact hie

/-- With one of DONE and ERR set, the interrupt output is IE. -/
theorem irq_of_done_eq_not_err {t : State} (h : t.done = !t.err) : t.irq = t.ie := by
  rw [State.irq, h, Bool.not_or_self, Bool.and_true]

/-- Settles O9: success sets DONE and leaves ERR at 0; an error of either kind sets ERR and clears DONE. -/
theorem commandEndsWithDoneOrErr : Obligations.CommandEndsWithDoneOrErr := by
  intro i s t herr h
  obtain ⟨hbusy, hflags⟩ : t.busy = false ∧ t.done = !t.err := by
    obtain ⟨s', hok, rfl⟩ | ⟨e, info, rfl⟩ | ⟨_, e, info, rfl⟩ := exec_next h
    · exact ⟨rfl, by rw [State.succeed_done, State.succeed_err, runOf_err hok, herr, Bool.not_false]⟩
    · exact ⟨rfl, rfl⟩
    · exact ⟨rfl, rfl⟩
  exact ⟨hbusy, hflags, (irq_of_done_eq_not_err hflags).trans (exec_ie h)⟩

end Sys2Proof.Machine
end

section
/-! PROOFS. Where everything a command reads has been written no command stops, so every step answers a next state
(10_state.md R46, 45_control.md R192, 70_reset_and_hazards.md R261). -/

namespace Sys2Proof.Machine

/-! ### Runs that do not fault (93_implementation_defined.md U1) -/

/-- The run does not stop at an element that is UNSPECIFIED. -/
def NoFault {α : Type} (r : Except Stop α) : Prop := ∀ f, r ≠ .error (.fault f)

theorem NoFault.ok {α : Type} (a : α) : NoFault (.ok a) := nofun

theorem NoFault.raise {α : Type} (e : ErrorKind) (info : Word) : NoFault (.error (.raise e info) : Except Stop α) :=
  nofun

theorem NoFault.raiseWalk {α : Type} (e : ErrorKind) (info : Word) :
    NoFault (.error (.raiseWalk e info) : Except Stop α) := nofun

theorem NoFault.map {α β : Type} {r : Except Stop α} (h : NoFault r) (g : α → β) : NoFault (r.map g) := by
  intro f hf
  cases r with
  | ok a => cases hf
  | error e => cases hf; exact h f rfl

/-- A command whose run does not fault answers a next state. -/
theorem NoFault.endCommand {r : Except Stop State} (h : NoFault r) (s : State) :
    ∃ t, Machine.endCommand s r = .next t :=
  match r, h with
  | .ok s', _ => ⟨s'.succeed, rfl⟩
  | .error (.raise e info), _ => ⟨s.raise e info, rfl⟩
  | .error (.raiseWalk e info), _ => ⟨s.loseTextOut.raise e info, rfl⟩
  | .error (.fault f), h => absurd rfl (h f)

/-! ### The six commands over written storage -/

theorem huffmanTree_noFault (fs : List Word) : NoFault (huffmanTree fs) := by
  intro f hf
  obtain ⟨_, he⟩ | ⟨_, _, _, _, _, _, _, he⟩ := huffmanTree_error hf <;> cases he

theorem exists_element {α : Type} {a : ArrayName} {m : Cells α} {i : Nat} (h : (m.peek i).isSome) :
    ∃ v, element a m i = .ok v := by
  obtain ⟨v, hv⟩ := Option.isSome_iff_exists.1 h
  exact ⟨v, (element_ok_iff ..).2 hv⟩

/-- `gather` answers when every item does. -/
theorem exists_gather {α β : Type} {f : β → Except Stop α} {xs : List β} (h : ∀ x ∈ xs, ∃ y, f x = .ok y) :
    ∃ ys, gather f xs = .ok ys := by
  cases hg : gather f xs with
  | ok ys => exact ⟨ys, rfl⟩
  | error e =>
    obtain ⟨_, x, _, rfl, _, he⟩ := gather_error f xs e hg
    obtain ⟨y, hy⟩ := h x (by simp)
    rw [hy] at he
    cases he

section Written
variable {s : State} (h : AllWritten s)
include h

theorem AllWritten.exists_freqGiven : ∃ f, FreqGiven s f := by
  refine ⟨fun i => (s.freq.peek i).getD 0, fun i hi => ?_⟩
  obtain ⟨v, hv⟩ := Option.isSome_iff_exists.1 (h.freq i hi)
  simp [hv]

theorem AllWritten.buildRun_noFault : NoFault (buildRun s) := by
  obtain ⟨f, hf⟩ := h.exists_freqGiven
  rw [buildRun_of_freqGiven hf]
  exact (huffmanTree_noFault _).map _

/-- TreeWF looks at nodes below TREE_COUNT only, and TREE_COUNT is at most 511 (40_tree_builder.md R118). -/
theorem AllWritten.treeWF_noFault : NoFault (treeWF s) := by
  intro f hf
  obtain ⟨_, he, _⟩ | ⟨j, hj, hnone, _⟩ := treeWF_stops hf
  · cases he
  · exact absurd hnone (Option.isSome_iff_ne_none.1 (h.node j hj))

theorem AllWritten.genRun_noFault : NoFault (genRun s) :=
  fun f hf => h.treeWF_noFault f (genRun_error hf).2

/-- PACK reads TEXT_IN below TEXT_LEN, which is at most TEXT_CAP (42_bit_packer.md R146). -/
theorem AllWritten.packRun_noFault : NoFault (packRun s) := by
  intro f hf
  obtain ⟨_, he⟩ | ⟨hcap, ⟨k, hk, _, hsym⟩ | ⟨_, _, ⟨_, he⟩ | ⟨_, _, hnone⟩⟩⟩ := packRun_error hf
  · cases he
  · obtain ⟨_, hnone⟩ | ⟨_, _, _, he⟩ := packSymbol_error hsym
    · exact absurd hnone (Option.isSome_iff_ne_none.1 (h.textIn k (Nat.lt_of_lt_of_le hk hcap)))
    · cases he
  · cases he
  · exact absurd hnone (Option.isSome_iff_ne_none.1 h.code)

theorem AllWritten.exists_readPayload {k : Nat} (hk : k < Config.payloadCap) : ∃ b, readPayload s k = .ok b :=
  exists_element (h.payload k hk)

theorem AllWritten.unpackData_noFault (header : Byte) {d : Nat} (hd : d + 1 < Config.payloadCap) :
    NoFault (unpackData s header d) := by
  obtain ⟨full, hfull⟩ := exists_gather (f := readPayload s) (xs := List.range' 1 d) fun k hk =>
    h.exists_readPayload (by rw [List.mem_range'_1] at hk; omega)
  obtain ⟨last, hlast⟩ := h.exists_readPayload hd
  simp only [unpackData, hfull, hlast]
  exact .ok _

/-- UNPACK reads PAYLOAD below PAYLOAD_LEN, which is at most PAYLOAD_CAP (43_bit_unpacker.md R161). -/
theorem AllWritten.unpackRun_noFault : NoFault (unpackRun s) := by
  by_cases hzero : s.payloadLen = 0
  case pos => rw [unpackRun, if_pos hzero]; exact .raise _ _
  by_cases hover : Config.payloadCap < s.payloadLen.toNat
  case pos => rw [unpackRun, if_neg hzero, if_pos hover]; exact .raise _ _
  have hpos : 1 ≤ s.payloadLen.toNat := Nat.one_le_iff_ne_zero.2 fun hz => hzero (BitVec.eq_of_toNat_eq hz)
  have hcap := Nat.not_lt.1 hover
  obtain ⟨header, hheader⟩ := Option.isSome_iff_exists.1 (h.payload 0 (by decide))
  rcases Nat.lt_or_ge 7 header.toNat with h7 | h7
  · rw [unpackRun_header_above hpos hcap hheader h7]
    exact .raise _ _
  cases hlen : s.payloadLen.toNat - 1 with
  | zero =>
    rw [unpackRun_without_data hpos hcap hheader h7 hlen]
    split
    · exact .ok _
    · exact .raise _ _
  | succ d =>
    rw [unpackRun_with_data hpos hcap hheader h7 hlen]
    exact h.unpackData_noFault header (by omega)

theorem AllWritten.exists_readBit {i : Nat} (hi : i < Config.bitCap) : ∃ b, readBit s i = .ok b := by
  obtain ⟨y, hy⟩ := Option.isSome_iff_exists.1 (h.bitbuf (i / 8) (Nat.div_lt_of_lt_mul hi))
  exact ⟨_, (readBit_ok_iff ..).2 ⟨y, hy, rfl⟩⟩

/-- From an inner vertex DECODE's walk goes to vertices of the stored tree only, and reads bits below BIT_CAP
(44_tree_decoder.md R176). -/
theorem AllWritten.decodeWalk_noFault {T sub : CodeTree} (hT : TreeHeld s T) (hinner : T.isInner = true)
    {left i k : Nat} (hi : i + left ≤ Config.bitCap) (hsub : sub.storedIn s) (hin : sub.isInner = true) :
    NoFault (decodeWalk s left i sub.index k) := by
  induction left generalizing i k sub with
  | zero =>
    rw [decodeWalk]
    split
    · exact .ok _
    · exact .raiseWalk _ _
  | succ left ih =>
    cases sub with
    | leaf n sym => cases hin
    | inner n l r =>
      obtain ⟨b, hb⟩ := h.exists_readBit (show i < Config.bitCap by omega)
      have hchild := CodeTree.child_storedIn hsub b
      rw [CodeTree.index]
      cases hc : CodeTree.child l r b with
      | leaf m sym =>
        rw [decodeWalk_leaf hT.count_le hsub hb hc]
        split
        · exact .raiseWalk _ _
        · rw [← hT.root_eq]
          exact (ih (by omega) hT.stored hinner).map _
      | inner m l' r' =>
        have hcin : (CodeTree.child l r b).isInner = true := by rw [hc]; rfl
        rw [decodeWalk_inner hT.count_le hsub hb hcin]
        exact ih (by omega) hchild hcin

theorem AllWritten.decodeSingle_noFault (hroot : s.root.toNat < Config.maxNodes) (sym : Byte) :
    NoFault (decodeSingle s sym) := by
  obtain ⟨c, hc⟩ : ∃ c, readNodeFreq s s.root.toNat = .ok c := exists_element (h.nodeFreq _ hroot)
  simp only [decodeSingle, hc]
  split
  · exact .raise _ _
  · split
    · exact .raise _ _
    · exact .ok _

/-- Once TreeWF has answered its tree, DECODE reads what stands in that tree. -/
theorem AllWritten.decodeRun_noFault : NoFault (decodeRun s) := by
  by_cases hover : Config.bitCap < s.bitLen.toNat
  case pos => rw [decodeRun, if_pos hover]; exact .raise _ _
  by_cases hzero : s.treeCount = 0
  case pos =>
    rw [decodeRun, if_neg hover, if_pos hzero]
    split
    · exact .ok _
    · exact .raise _ _
  have hcap := Nat.not_lt.1 hover
  cases ht : treeWF s with
  | error e =>
    have hrun : decodeRun s = .error e := by rw [decodeRun, if_neg hover, if_neg hzero, ht]
    rw [hrun]
    rintro f ⟨⟩
    exact h.treeWF_noFault f ht
  | ok T =>
    have hT := (treeWFAcceptsExactlyTheStrictTrees s T).1 ht
    cases T with
    | leaf n sym =>
      rw [hT.decodeRun_leaf hcap]
      exact h.decodeSingle_noFault
        (hT.root_eq ▸ Nat.lt_of_lt_of_le (CodeTree.storedIn_index_lt hT.stored) hT.count_le) sym
    | inner n l r =>
      rw [hT.decodeRun_inner rfl hcap]
      exact (h.decodeWalk_noFault hT rfl (by rwa [Nat.zero_add]) hT.stored rfl).map _

theorem AllWritten.runOf_noFault (i : Instr) : NoFault (runOf i s) := by
  cases i with
  | nop => exact .ok s
  | build => exact h.buildRun_noFault
  | gen => exact h.genRun_noFault
  | pack => exact h.packRun_noFault
  | unpack => exact h.unpackRun_noFault
  | decode => exact h.decodeRun_noFault

/-! ### The engine over written storage -/

theorem AllWritten.runCommand_answers : ∃ t, runCommand s = .next t := by
  obtain ⟨i, _, hrun⟩ | ⟨_, hrun⟩ := runCommand_cases s
  · rw [hrun, exec_eq]
    exact (h.runOf_noFault i).endCommand s
  · exact ⟨_, hrun⟩

theorem AllWritten.withInputs (rest : List Input) : AllWritten (s.withInputs rest) := { h with }

end Written

/-- Settles O15: only the engine's turn can stop, and over written storage its command does not. -/
theorem writtenStorageNeverStops : Obligations.WrittenStorageNeverStops := by
  intro s h
  obtain ⟨_, ⟨_, hs⟩ | ⟨rest, _, hs⟩ | ⟨_, _, hs⟩⟩ | ⟨_, ⟨_, hs⟩ | ⟨_, _, hs⟩ | ⟨_, _, hs⟩⟩ | ⟨_, _, _, hs⟩ |
    ⟨_, _, hs⟩ := step_cases s <;> rw [hs]
  · exact h.runCommand_answers
  · exact (h.withInputs rest).runCommand_answers
  · exact h.runCommand_answers
  all_goals exact ⟨_, rfl⟩

end Sys2Proof.Machine
end

section
/-! PROOFS. Acknowledging an error, the interrupt level, and what taking an error leaves unchanged (60_exceptions.md
R210 to R212, R220). -/

namespace Sys2Proof.Machine

/-! ### Acknowledging an error (60_exceptions.md R212) -/

@[simp] theorem memWrite_status (s : State) (v : Word) : memWrite s 0x008#17 v = s.ackStatus v := rfl

@[simp] theorem memWrite_irqEn (s : State) (v : Word) : memWrite s 0x010#17 v = { s with ie := v.getLsbD 0 } := rfl

/-- Settles O24: the STATUS write is `ackStatus`, which leaves ERR_INFO, and the CMD write is `accept`, which looks at
no flag. -/
theorem errorAcknowledgement : Obligations.ErrorAcknowledgement := by
  intro s rest v hidle
  refine ⟨fun hin hbit => ⟨_, step_write_idle hin rfl hidle, ?_, ?_, rfl, hidle⟩, fun hin =>
    ⟨_, step_write_idle hin rfl hidle, rfl, rfl, rfl, rfl, rfl, rfl⟩⟩
  · simp [hbit]
  · simp [hbit]

/-! ### The interrupt level (60_exceptions.md R220) -/

theorem irq_iff (s : State) : s.irq = true ↔ s.ie = true ∧ (s.done = true ∨ s.err = true) := by simp [State.irq]

/-- Neither DONE nor ERR is set. -/
def State.Quiet (s : State) : Prop := s.done = false ∧ s.err = false

theorem State.Quiet.irq {s : State} (h : s.Quiet) : s.irq = false := by
  rw [State.irq, h.1, h.2, Bool.or_self, Bool.and_false]

theorem accept_quiet (s : State) (v : Word) : (s.accept v).Quiet := ⟨rfl, rfl⟩

/-- A STATUS write with 1 at each of DONE and ERR that is set clears both. -/
theorem ackStatus_quiet {s : State} {v : Word} (hdone : s.done = true → v.getLsbD 1 = true)
    (herr : s.err = true → v.getLsbD 2 = true) : (s.ackStatus v).Quiet := by
  constructor
  · cases hd : s.done
    · simp [hd]
    · simp [hdone hd]
  · cases he : s.err
    · simp [he]
    · simp [herr he]

section Quiet
variable {s : State} (h : s.Quiet)
include h

theorem State.Quiet.memWrite (off : Offset) (v : Word) : (Machine.memWrite s off v).Quiet := by
  cases hloc : locate off <;> simp only [Machine.memWrite, hloc]
  case cmd => exact accept_quiet s v
  case status => exact ackStatus_quiet (by simp [h.1]) (by simp [h.2])
  all_goals exact h

theorem State.Quiet.busyWrite (off : Offset) (v : Word) : (Machine.busyWrite s off v).Quiet := by
  unfold Machine.busyWrite
  split
  · exact h
  · exact h.memWrite off v
  · exact h.memWrite off v
  · exact h

/-- No host access sets DONE or ERR. -/
theorem State.Quiet.portAccess (op : PortOp) : (Machine.portAccess s op).Quiet := by
  obtain hop | ⟨off, _, _, hop⟩ | ⟨off, v, _, _, hop⟩ := portAccess_cases s op <;> rw [hop]
  · exact h
  · obtain ⟨_, _, hread⟩ | hread := hostRead_cases s off <;> rw [hread] <;> exact h
  · unfold hostWrite
    split
    · exact h.busyWrite off v
    · exact h.memWrite off v

end Quiet

theorem exec_busy {i : Instr} {s t : State} (h : exec i s = .next t) : t.busy = false := by
  obtain ⟨s', _, rfl⟩ | ⟨e, info, rfl⟩ | ⟨_, e, info, rfl⟩ := exec_next h <;> rfl

theorem runCommand_busy {s t : State} (h : runCommand s = .next t) : t.busy = false := by
  obtain ⟨i, _, hrun⟩ | ⟨_, hrun⟩ := runCommand_cases s <;> rw [hrun] at h
  · exact exec_busy h
  · cases h
    rfl

/-- Of the events of a step, only the end of a command sets DONE or ERR. -/
theorem step_sets_flag {s t : State} (h : step s = .next t) (hquiet : s.Quiet) (hflag : ¬t.Quiet) :
    s.busy = true ∧ t.busy = false := by
  obtain ⟨hbusy, _, rest, hrun⟩ | ⟨rest, rfl⟩ | ⟨op, rest, rfl⟩ | ⟨rest, _, rfl⟩ := step_next h
  · exact ⟨hbusy, runCommand_busy hrun⟩
  · exact absurd hquiet hflag
  · exact absurd (State.Quiet.portAccess (s := s.withInputs rest) hquiet op) hflag
  · exact absurd ⟨rfl, rfl⟩ hflag

/-- Settles O25: irq is 0 while DONE and ERR are, and a command's end sets one of them. -/
theorem interruptLevel : Obligations.InterruptLevel := by
  refine ⟨rfl, fun s => ⟨irq_iff s, fun v => (accept_quiet s v).irq,
    fun v hdone herr => (ackStatus_quiet hdone herr).irq, fun v hie => ?_, fun i t hie h => ?_,
    fun t h hdone herr hflag => step_sets_flag h ⟨hdone, herr⟩ ?_⟩⟩
  · rw [memWrite_irqEn, State.irq, hie, Bool.false_and]
  · exact (irq_iff t).2 ⟨(exec_ie h).trans hie, exec_done_or_err h⟩
  · rintro ⟨hd, he⟩
    simp [hd, he] at hflag

/-! ### Taking an error (60_exceptions.md R210, R211) -/

/-- A command that ends with ERR, accepted with ERR = 0, raised its error before its first write or in DECODE's
walk. -/
theorem exec_error {i : Instr} {s t : State} (herr : s.err = false) (h : exec i s = .next t) (ht : t.err = true) :
    ∃ e info, runOf i s = .error (.raise e info) ∧ t = s.raise e info ∨
      runOf i s = .error (.raiseWalk e info) ∧ t = s.loseTextOut.raise e info := by
  rw [exec_eq] at h
  obtain ⟨s', hok, rfl⟩ | ⟨e, info, hraise⟩ | ⟨e, info, hwalk⟩ := endCommand_next h
  · rw [State.succeed_err, runOf_err hok, herr] at ht
    cases ht
  · exact ⟨e, info, .inl hraise⟩
  · exact ⟨e, info, .inr hwalk⟩

/-- The errors marked "walk error" in 44_tree_decoder.md R176. -/
theorem decodeRun_raiseWalk {s : State} {e : ErrorKind} {info : Word} (h : decodeRun s = .error (.raiseWalk e info)) :
    e = .corruptPayload ∨ e = .outOverflow := by
  obtain ⟨_, he⟩ | ⟨_, ⟨_, _, he⟩ | ⟨_, ht⟩ | ⟨_, _, _, ⟨he, _⟩ | ⟨_, _, ⟨_, hs⟩ | ⟨_, hw⟩⟩⟩⟩ := decodeRun_error h
  · cases he
  · cases he
  · obtain ⟨_, he⟩ | ⟨_, he, _⟩ := treeWF_error ht <;> cases he
  · cases he
  · obtain ⟨_, he⟩ | ⟨_, ⟨_, _, _, he⟩ | ⟨_, he, _⟩⟩ := decodeSingle_error hs <;> cases he
  · obtain he | ⟨_, _, _, he⟩ | ⟨_, he, _⟩ | ⟨_, he, _⟩ := decodeWalk_error hw <;> cases he
    · exact .inl rfl
    · exact .inr rfl

/-- Settles O10: `raise` writes STATUS and ERR_INFO alone, and only a walk error of DECODE loses TEXT_OUT first. -/
theorem errorsArePrecise : Obligations.ErrorsArePrecise := by
  intro i s t herr h ht
  obtain ⟨e, info, ⟨_, rfl⟩ | ⟨hwalk, rfl⟩⟩ := exec_error herr h ht
  · exact .inl rfl
  · obtain rfl : i = .decode := runOf_error_allowed hwalk
    refine .inr ⟨rfl, ?_, rfl⟩
    obtain rfl | rfl := decodeRun_raiseWalk hwalk
    · exact .inl rfl
    · exact .inr rfl

end Sys2Proof.Machine
end

section
/-! PROOFS. The error codes of each command, the cause that then holds and what ERR_INFO records (60_exceptions.md
R205). -/

namespace Sys2Proof.Machine

/-! ### What the host reads of an error (60_exceptions.md R210) -/

/-- ERRCODE and ERR_INFO of `t` are those of the error that ended the command early. -/
def Stop.reportedBy (t : State) : Stop → Prop
  | .raise e info | .raiseWalk e info => t.errCode = errorCode e ∧ t.errInfo = info
  | .fault _ => False

theorem exec_reports {i : Instr} {s t : State} (herr : s.err = false) (h : exec i s = .next t) (ht : t.err = true) :
    ∃ e, runOf i s = .error e ∧ e.reportedBy t := by
  obtain ⟨e, info, ⟨hrun, rfl⟩ | ⟨hrun, rfl⟩⟩ := exec_error herr h ht
  · exact ⟨_, hrun, rfl, rfl⟩
  · exact ⟨_, hrun, rfl, rfl⟩

theorem toNat_word {n : Nat} (h : n < 2 ^ 32) : (BitVec.ofNat 32 n).toNat = n := by
  rw [BitVec.toNat_ofNat, Nat.mod_eq_of_lt h]

/-! ### BUILD (40_tree_builder.md R113) -/

/-- Every item that `gather` went through has answered. -/
theorem exists_of_gather {α β : Type} {f : β → Except Stop α} {xs : List β} {ys : List α} (h : gather f xs = .ok ys)
    {x : β} (hx : x ∈ xs) : ∃ y, f x = .ok y := by
  have hall := (gather_ok_iff f xs ys).1 h
  induction hall with
  | nil => cases hx
  | cons hy hall ih =>
    obtain rfl | hx := List.mem_cons.1 hx
    · exact ⟨_, hy⟩
    · exact ih ((gather_ok_iff ..).2 hall) hx

theorem exists_freqGiven_of_gather {s : State} {fs : List Word}
    (h : gather (readFreq s) (List.range Config.nsym) = .ok fs) : ∃ f, FreqGiven s f := by
  refine ⟨fun i => (s.freq.peek i).getD 0, fun i hi => ?_⟩
  obtain ⟨v, hv⟩ := exists_of_gather h (List.mem_range.2 hi)
  simp [(element_ok_iff ..).1 hv]

/-- The running total fits up to `n`, or there is a symbol whose addition first takes it above the limit. -/
theorem freqSum_fits_or_overflows (f : Nat → Word) (n : Nat) :
    freqSum f n ≤ 0xFFFFFFFF ∨ ∃ k, k < n ∧ freqSum f k ≤ 0xFFFFFFFF ∧ 0xFFFFFFFF < freqSum f (k + 1) := by
  induction n with
  | zero => exact .inl (Nat.zero_le _)
  | succ n ih =>
    obtain hfits | ⟨k, hk, hover⟩ := ih
    · rcases Nat.lt_or_ge 0xFFFFFFFF (freqSum f (n + 1)) with hover | hfits'
      · exact .inr ⟨n, Nat.lt_succ_self n, hfits, hover⟩
      · exact .inl hfits'
    · exact .inr ⟨k, Nat.lt_succ_of_lt hk, hover⟩

/-- BUILD ends with an error only on a table that is all 0 or whose total overflows, as on every other it succeeds. -/
theorem execBuild_error {s t : State} {f : Nat → Word} (hf : FreqGiven s f) (herr : s.err = false)
    (h : exec .build s = .next t) (ht : t.err = true) :
    t.errCode = 2 ∧ t.errInfo = 0 ∧ (∀ j, j < 256 → f j = 0) ∨
      t.errCode = 3 ∧ t.errInfo.toNat < 256 ∧ freqSum f t.errInfo.toNat ≤ 0xFFFFFFFF ∧
        0xFFFFFFFF < freqSum f (t.errInfo.toNat + 1) := by
  obtain ⟨hempty, hoverflow, _⟩ := buildErrors s f hf
  by_cases hzero : ∀ j, j < 256 → f j = 0
  · rw [hempty hzero] at h
    cases h
    exact .inl ⟨rfl, rfl, hzero⟩
  obtain hfits | ⟨k, hk, hfits, hover⟩ := freqSum_fits_or_overflows f 256
  · have hne : presentSymbols f ≠ [] := by
      push Not at hzero
      obtain ⟨j, hj, hfj⟩ := hzero
      exact List.ne_nil_of_mem ((mem_presentSymbols f j).2 ⟨hj, hfj⟩)
    obtain ⟨nd, nf, hdone, _⟩ := buildResult s f hf hne hfits
    rw [hdone] at h
    cases h
    rw [herr] at ht
    cases ht
  · rw [hoverflow k hk hfits hover] at h
    cases h
    have hinfo : (BitVec.ofNat 32 k).toNat = k := toNat_word (by omega)
    exact .inr ⟨rfl, by rwa [hinfo], by rwa [hinfo], by rwa [hinfo]⟩

/-! ### TreeWF, for GEN and DECODE (40_tree_builder.md R118) -/

theorem treeWF_reports {s t : State} {e : Stop} (h : treeWF s = .error e) (hrep : e.reportedBy t) :
    t.errCode = 4 ∧ treeWF s = .error (.raise .badTree t.errInfo) := by
  obtain ⟨info, rfl⟩ | ⟨_, rfl, _⟩ := treeWF_error h
  · obtain ⟨hcode, rfl⟩ := hrep
    exact ⟨hcode, h⟩
  · cases hrep

/-! ### PACK (42_bit_packer.md R146, R149) -/

/-- The text that PACK's check pass has gone through. -/
theorem textGiven_of_gather {s : State} {text : List Byte} (hcap : s.textLen.toNat ≤ Config.textCap)
    (h : gather (packSymbol s) (List.range s.textLen.toNat) = .ok text) :
    TextGiven s text ∧ ∀ sym ∈ text, (codeEntry s sym).valid = true := by
  have hlen : text.length = s.textLen.toNat := by simpa using gather_length h
  have hall : ∀ k (hk : k < text.length), packSymbol s k = .ok text[k] := by
    intro k hk
    simpa using (List.forall₂_iff_get.1 ((gather_ok_iff ..).1 h)).2 k (by simpa [hlen] using hk) hk
  refine ⟨⟨hlen.symm, hlen ▸ hcap, fun k hk => ?_⟩, fun sym hsym => ?_⟩
  · rw [Nat.zero_add, List.getElem?_eq_getElem hk]
    exact ((packSymbol_ok_iff ..).1 (hall k hk)).1
  · obtain ⟨k, hk, rfl⟩ := List.getElem_of_mem hsym
    exact ((packSymbol_ok_iff ..).1 (hall k hk)).2

/-- The total bit length of a text within TEXT_CAP does not wrap (00_scope.md R8, R12). -/
theorem bitTotal_lt {s : State} {text : List Byte} (h : text.length ≤ Config.textCap) : bitTotal s text < 2 ^ 32 := by
  have hsum : bitTotal s text ≤ text.length * 256 := by
    have := List.sum_le_card_nsmul (text.map fun sym => (codeEntry s sym).len.toNat) 256 fun n hn => by
      obtain ⟨sym, _, rfl⟩ := List.mem_map.1 hn
      exact Nat.le_of_lt (BitVec.isLt _)
    simpa [bitTotal] using this
  have hcap : Config.textCap = 16384 := rfl
  omega

/-- PACK reports the index without a code, the bit length that does not fit, or TEXT_LEN. -/
theorem packRun_reports {s t : State} {e : Stop} (h : packRun s = .error e) (hrep : e.reportedBy t) :
    (t.errCode = 5 ∧ t.errInfo.toNat < s.textLen.toNat ∧
        (∃ sym, Cells.peek s.textIn t.errInfo.toNat = some sym ∧ (codeEntry s sym).valid = false) ∧
        ∀ k, k < t.errInfo.toNat → ∃ sym, Cells.peek s.textIn k = some sym ∧ (codeEntry s sym).valid = true) ∨
      (t.errCode = 6 ∧ 16384 < 1 + (t.errInfo.toNat + 7) / 8 ∧ ∃ text, TextGiven s text ∧
        (∀ sym ∈ text, (codeEntry s sym).valid = true) ∧
        t.errInfo.toNat = (text.map (fun sym => (codeEntry s sym).len.toNat)).sum) ∨
      t.errCode = 8 ∧ t.errInfo = s.textLen ∧ 16384 < s.textLen.toNat := by
  obtain ⟨hover, rfl⟩ | ⟨hcap, ⟨k, hk, hpre, hsym⟩ | ⟨text, htext, ⟨hover, rfl⟩ | ⟨_, rfl, _⟩⟩⟩ := packRun_error h
  · obtain ⟨hcode, hinfo⟩ := hrep
    exact .inr (.inr ⟨hcode, hinfo, hover⟩)
  · obtain ⟨rfl, _⟩ | ⟨sym, hpeek, hvalid, rfl⟩ := packSymbol_error hsym
    · cases hrep
    obtain ⟨hcode, hinfo⟩ := hrep
    have hk' : t.errInfo.toNat = k := by rw [hinfo, toNat_word (Nat.lt_trans hk (BitVec.isLt _))]
    rw [hk']
    refine .inl ⟨hcode, hk, ⟨sym, hpeek, hvalid⟩, fun j hj => ?_⟩
    obtain ⟨sym', hj'⟩ := hpre j hj
    exact ⟨sym', (packSymbol_ok_iff ..).1 hj'⟩
  · obtain ⟨hcode, hinfo⟩ := hrep
    obtain ⟨hgiven, hvalid⟩ := textGiven_of_gather hcap htext
    have htotal : t.errInfo.toNat = bitTotal s text := by rw [hinfo, toNat_word (bitTotal_lt hgiven.length_le)]
    exact .inr (.inl ⟨hcode, htotal ▸ hover, text, hgiven, hvalid, htotal⟩)
  · cases hrep

/-! ### DECODE (44_tree_decoder.md R176 to R179) -/

/-- With a tree in storage DECODE ends early in the single leaf's checks, or in its walk from the root. -/
theorem TreeHeld.decodeRun_error {s : State} {T : CodeTree} {e : Stop} (hT : TreeHeld s T)
    (hcap : s.bitLen.toNat ≤ Config.bitCap) (h : decodeRun s = .error e) :
    (T.isInner = false ∧ ∃ sym, decodeSingle s sym = .error e) ∨
      T.isInner = true ∧ decodeWalk s s.bitLen.toNat 0 T.index 0 = .error e := by
  cases T with
  | leaf i sym => exact .inl ⟨rfl, sym, hT.decodeRun_leaf hcap ▸ h⟩
  | inner i l r =>
    rw [hT.decodeRun_inner rfl hcap] at h
    refine .inr ⟨rfl, ?_⟩
    cases hw : decodeWalk s s.bitLen.toNat 0 (CodeTree.inner i l r).index 0 with
    | error e' => rw [hw] at h; cases h; rfl
    | ok text => rw [hw] at h; cases h

/-- A single leaf is refused for the bits that are present, or for its count. -/
theorem decodeSingle_reports {s t : State} {sym : Byte} {e : Stop} (h : decodeSingle s sym = .error e)
    (hrep : e.reportedBy t) :
    s.bitLen ≠ 0 ∧ t.errCode = 9 ∧ t.errInfo = 0 ∨
      s.bitLen = 0 ∧ t.errCode = 10 ∧ s.nodeFreq.peek s.root.toNat = some t.errInfo ∧ 16384 < t.errInfo.toNat := by
  obtain ⟨hbits, rfl⟩ | ⟨hbits, ⟨c, hpeek, hover, rfl⟩ | ⟨_, rfl, _⟩⟩ := decodeSingle_error h
  · exact .inl ⟨hbits, hrep⟩
  · obtain ⟨hcode, rfl⟩ := hrep
    exact .inr ⟨hbits, hcode, hpeek, hover⟩
  · cases hrep

theorem bitsFrom_zero_iff {s : State} {bs : List Bool} :
    bitsFrom s 0 bs ↔ ∀ k, k < bs.length → storedBit s.bitbuf k = bs[k]? := by
  simp only [bitsFrom, Nat.zero_add]

/-- The walk from an internal root reports that the bits end away from the root, or the bit of the symbol too many. -/
theorem TreeHeld.decodeWalk_reports {s t : State} {T : CodeTree} {e : Stop} (hT : TreeHeld s T)
    (hin : T.isInner = true) (h : decodeWalk s s.bitLen.toNat 0 T.index 0 = .error e) (hrep : e.reportedBy t) :
    (t.errCode = 9 ∧ t.errInfo = s.bitLen ∧
        ∃ (steps : List (Byte × List Bool)) (tail bits : List Bool) (sub : CodeTree),
          steps.length ≤ 16384 ∧ (∀ p ∈ steps, T.leadsTo p.2 p.1) ∧ tail ≠ [] ∧
          T.descend tail = some sub ∧ sub.isInner = true ∧ bits = steps.flatMap (fun p => p.2) ++ tail ∧
          bits.length = s.bitLen.toNat ∧ ∀ k, k < bits.length → storedBit s.bitbuf k = bits[k]?) ∨
      (t.errCode = 10 ∧ t.errInfo.toNat < s.bitLen.toNat ∧
        ∃ (steps : List (Byte × List Bool)) (bits : List Bool), steps.length = 16385 ∧
          (∀ p ∈ steps, T.leadsTo p.2 p.1) ∧ bits = steps.flatMap (fun p => p.2) ∧
          bits.length = t.errInfo.toNat + 1 ∧ ∀ k, k < bits.length → storedBit s.bitbuf k = bits[k]?) := by
  obtain ⟨rfl, steps, tail, bits, sub, hcount, hsteps, htail, hsub, hsubin, hlen, heq, hbits⟩ |
    ⟨steps, bits, j, rfl, hj, hlen, hcount, hsteps, heq, hbits⟩ | ⟨f, rfl⟩ :=
      decodeWalk_trace hT.count_le hT.root_eq hT.stored hin T.descend_nil hin (Nat.zero_le _) h
  · obtain ⟨hcode, hinfo⟩ := hrep
    exact .inl ⟨hcode, hinfo, steps, tail, bits, sub, by rwa [Nat.zero_add] at hcount, hsteps, htail, hsub, hsubin,
      heq, hlen, bitsFrom_zero_iff.1 hbits⟩
  · obtain ⟨hcode, hinfo⟩ := hrep
    rw [Nat.zero_add] at hj hcount
    have hlt : j < s.bitLen.toNat := by omega
    have hj' : t.errInfo.toNat = j := by rw [hinfo, toNat_word (Nat.lt_trans hlt (BitVec.isLt _))]
    rw [hj']
    exact .inr ⟨hcode, hlt, steps, bits, hcount, hsteps, heq, hj.symm, bitsFrom_zero_iff.1 hbits⟩
  · cases hrep

/-! ### The statement -/

/-- Settles O11: what ended the command's run, as its inversion lemma says, is what STATUS and ERR_INFO report. -/
theorem errorCodesOfEachCommand : Obligations.ErrorCodesOfEachCommand := by
  intro i s t herr h ht
  obtain ⟨e, hrun, hrep⟩ := exec_reports herr h ht
  cases i with
  | nop => cases hrun
  | build =>
    obtain ⟨_, rfl, _⟩ | ⟨fs, hfs, _⟩ := buildRun_error hrun
    · cases hrep
    obtain ⟨f, hf⟩ := exists_freqGiven_of_gather hfs
    obtain ⟨hcode, hinfo, hzero⟩ | ⟨hcode, hlt, hover⟩ := execBuild_error hf herr h ht
    · exact .inl ⟨hcode, hinfo, fun j hj => (hf j hj).trans (congrArg some (hzero j hj))⟩
    · exact .inr ⟨hcode, hlt, f, hf, hover⟩
  | gen =>
    obtain ⟨htree, hwf⟩ := genRun_error hrun
    obtain ⟨hcode, hbad⟩ := treeWF_reports hwf hrep
    exact ⟨hcode, htree, hbad⟩
  | pack => exact packRun_reports hrun hrep
  | unpack =>
    obtain ⟨hzero, rfl⟩ | ⟨hover, rfl⟩ | ⟨header, hne, hpeek, hbad, rfl⟩ | ⟨_, rfl, _⟩ := unpackRun_error hrun
    · obtain ⟨hcode, hinfo⟩ := hrep
      exact .inl ⟨hcode, .inl ⟨hzero, hinfo⟩⟩
    · obtain ⟨hcode, hinfo⟩ := hrep
      exact .inr ⟨hcode, hinfo, hover⟩
    · obtain ⟨hcode, hinfo⟩ := hrep
      exact .inl ⟨hcode, .inr ⟨hne, header, hpeek, hinfo, hbad⟩⟩
    · cases hrep
  | decode =>
    obtain ⟨hover, rfl⟩ | ⟨hcap, ⟨htree, hbits, rfl⟩ | ⟨htree, hwf⟩ | ⟨_, T, hwf, _⟩⟩ := decodeRun_error hrun
    · obtain ⟨hcode, hinfo⟩ := hrep
      exact .inr (.inl ⟨hcode, hinfo, hover⟩)
    · obtain ⟨hcode, hinfo⟩ := hrep
      exact .inl ⟨hcode, .inl ⟨htree, hbits, hinfo⟩⟩
    · obtain ⟨hcode, hbad⟩ := treeWF_reports hwf hrep
      exact .inl ⟨hcode, .inr ⟨htree, hbad⟩⟩
    have hT := (treeWFAcceptsExactlyTheStrictTrees s T).1 hwf
    refine .inr (.inr ?_)
    obtain ⟨hleaf, sym, hsingle⟩ | ⟨hin, hwalk⟩ := hT.decodeRun_error hcap hrun
    · obtain ⟨hbits, hcode, hinfo⟩ | ⟨hbits, hcode, hcount⟩ := decodeSingle_reports hsingle hrep
      · exact ⟨.inl hcode, T, hT, fun _ _ => ⟨hcode, hinfo⟩, fun _ hz => absurd hz hbits, by simp [hleaf],
          by simp [hleaf]⟩
      · exact ⟨.inr hcode, T, hT, fun _ hne => absurd hbits hne, fun _ _ => ⟨hcode, hcount⟩, by simp [hleaf],
          by simp [hleaf]⟩
    · obtain ⟨hcode, haway⟩ | ⟨hcode, hmany⟩ := hT.decodeWalk_reports hin hwalk hrep
      · exact ⟨.inl hcode, T, hT, by simp [hin], by simp [hin], fun _ _ => haway, by simp [hcode]⟩
      · exact ⟨.inr hcode, T, hT, by simp [hin], by simp [hin], by simp [hcode], fun _ _ => hmany⟩

end Sys2Proof.Machine
end

section
/-! PROOFS. Reset (70_reset_and_hazards.md R240) and the commands right after it (R242). -/

namespace Sys2Proof.Machine

/-! ### The reset input (70_reset_and_hazards.md R240, log 16) -/

theorem step_reset {s : State} {rest : List Input} (hin : s.inputs = .reset :: rest) :
    step s = .next (s.withInputs rest).resetInput := by
  rw [step, nextEvent, hin]

theorem irq_resetInput (s : State) : s.resetInput.irq = false := State.Quiet.irq ⟨rfl, rfl⟩

theorem codeEntry_resetInput (s : State) (sym : Byte) :
    codeEntry s.resetInput sym = { valid := false, len := 0 } := by
  rw [codeEntry, State.resetInput_codeTab]
  rfl

/-- Settles O26: the step is the reset input, which leaves every array without an element. -/
theorem resetInputResetsEverything : Obligations.ResetInputResetsEverything := by
  intro s rest hin
  refine ⟨_, step_reset hin, ?_⟩
  simp [irq_resetInput, codeEntry_resetInput]

/-! ### The commands right after reset (70_reset_and_hazards.md R242) -/

/-- TEXT_LEN is 0 after reset, so the text is empty. -/
theorem textGiven_reset : TextGiven State.reset [] where
  length_eq := rfl
  length_le := Nat.zero_le _
  held := nofun

/-- Settles O27: after reset there is no tree, no text and no payload, so each command ends as its statement says of
these; BUILD stops at the first frequency. -/
theorem commandsRightAfterReset : Obligations.CommandsRightAfterReset := by
  refine ⟨⟨_, nopIsAFullCommand.1 _, rfl⟩, ?gen, ?pack, ?unpack, ?decode, ?build⟩
  case gen =>
    obtain ⟨t, hexec, hframe, hcodes⟩ := genWithoutATree State.reset rfl
    exact ⟨t, hexec, hframe ▸ rfl, hcodes⟩
  case pack =>
    obtain ⟨pl, hexec, hheader, _⟩ := packOfZeroLengthCodes State.reset [] textGiven_reset nofun
    exact ⟨_, hexec, rfl, rfl, hheader⟩
  case unpack =>
    obtain ⟨_, hempty, _⟩ := unpackOfEmptyAndMalformedPayloads State.reset
    exact ⟨_, hempty rfl, rfl, rfl, rfl⟩
  case decode =>
    obtain ⟨hexec, _⟩ := decodeWithoutATree State.reset
    exact ⟨_, hexec rfl rfl, rfl, rfl⟩
  case build => exact buildStopsAtAnUnwrittenFrequency State.reset 0 (by decide) rfl nofun

end Sys2Proof.Machine
end
